-- ==== Sys2Proof/Word.lean ====
section
/-! DEFINITION. The word types of the block: bytes, 16-bit and 32-bit registers, the 64-bit transaction word
(spec/30_encoding.md R89), the 40 bits of a frame, and an array of five bytes (R80; spec/10_state.md R25, R26). -/

namespace Sys2Proof

/-- One byte. -/
abbrev Byte := BitVec 8

/-- A 16-bit register: a sample (read as signed), a latched RMS, a trip counter, a storage offset. -/
abbrev Word16 := BitVec 16

/-- A 32-bit register or operand: a relay timer, the DATA field. -/
abbrev Word32 := BitVec 32

/-- A transaction word (R89). -/
abbrev TxWord := BitVec 64

/-- A frame read as one number, b0 in bits 39:32 and b4 in bits 7:0 (spec/opcode_table.json). -/
abbrev FrameWord := BitVec 40

/-- Five bytes in order: a frame (R80), the staging buffer `stg[0..4]` (R25), the handoff register
`frm[0..4]` (R26). -/
structure FiveBytes where
  b0 : Byte
  b1 : Byte
  b2 : Byte
  b3 : Byte
  b4 : Byte
deriving DecidableEq, Repr

end Sys2Proof
end

