-- ==== Sys2Proof/Config.lean ====
section
/-! DEFINITION. What an implementation fixes: the parameters of spec/00_scope.md R6, the command code table of
spec/30_encoding.md R86, the kinds of event the environment can bring, and the free values (opaque constants
without a body, so that nothing can be proved of them). -/

namespace Sys2Proof

/-- The nine wire commands of R86. -/
inductive CmdName where
  | getTiming | setTiming | getRaises | resetRaises | getLowers | resetLowers
  | queryFreq | queryVolt | querySpectrum
deriving DecidableEq, Repr

/-- The parameter `CMDCODE`: the 7-bit code of each command (R86, D6). -/
structure CmdCodes where
  getTiming : BitVec 7
  setTiming : BitVec 7
  getRaises : BitVec 7
  resetRaises : BitVec 7
  getLowers : BitVec 7
  resetLowers : BitVec 7
  queryFreq : BitVec 7
  queryVolt : BitVec 7
  querySpectrum : BitVec 7
deriving DecidableEq, Repr

/-- The default table of R86. -/
def CmdCodes.default : CmdCodes where
  getTiming := 0x01
  setTiming := 0x02
  getRaises := 0x03
  resetRaises := 0x04
  getLowers := 0x05
  resetLowers := 0x06
  queryFreq := 0x07
  queryVolt := 0x08
  querySpectrum := 0x09

/-- `RX_FULL_POLICY` (R6, D11): what a byte that arrives at a full receive FIFO meets. -/
inductive RxFullPolicy where
  | drop | stuck
deriving DecidableEq, Repr

/-- `SCHED` (R6, D33). -/
inductive SchedPolicy where
  | free | priority
deriving DecidableEq, Repr

/-- The parameters of one block instance (R6). They are constants of the instance: no step changes them. -/
structure Params where
  /-- `EU`, the erase-unit size in bytes. -/
  eu : Nat
  /-- `NVS_SIZE`, the bytes of the storage region. -/
  nvsSize : Nat
  /-- `NVS_BASE`, the device address of the region. -/
  nvsBase : Nat
  /-- `ERASED_BYTE`. -/
  erasedByte : Byte
  /-- `NOMINAL`. -/
  nominal : Nat
  /-- `BAND_HALF`. -/
  bandHalf : Nat
  /-- `DEF_DELAY`, in ticks. -/
  defDelay : Word32
  /-- `INV_K`, in tick times RMS unit. -/
  invK : Word32
  /-- `TICK_PERIOD`; no rule reads it (R6, R278). -/
  tickPeriod : Nat
  /-- `RX_FULL_POLICY`. -/
  rxFullPolicy : RxFullPolicy
  /-- `INV_LIVE`. -/
  invLive : Bool
  /-- `CMDCODE`. -/
  cmdCode : CmdCodes
  /-- `SCHED`. -/
  sched : SchedPolicy
deriving DecidableEq, Repr

/-- The parameter values `State.reset` carries: the spec's defaults where R6 decides one, and where R6 says
OPEN the example values it states. DESIGN CHOICE, log entry 1. unsafe: a claim about this one value says
nothing of another instance; the statements are made for every value. -/
def Params.standard : Params where
  eu := 8
  nvsSize := 16
  nvsBase := 0
  erasedByte := 0xFF
  nominal := 1000
  bandHalf := 100
  defDelay := 3
  invK := 300
  tickPeriod := 1
  rxFullPolicy := .drop
  invLive := true
  cmdCode := CmdCodes.default
  sched := .free

/-- What the environment and the scheduler can bring next (spec/60_exceptions.md R272, R274;
spec/70_reset_and_hazards.md R290, R305). DESIGN CHOICE in this form, log entries 3 and 12. -/
inductive Event where
  /-- A transaction, as its transaction word (R89). -/
  | word (w : TxWord)
  /-- A block reset between two transactions (R290). -/
  | reset
  /-- A block reset that falls inside the storage write of this transaction (R305). -/
  | torn (w : TxWord)
deriving DecidableEq, Repr, Inhabited

namespace Config

/-- Free value: the n-th sample the analog source answers with when the environment has none ready (R10). -/
opaque freeSample : Nat → Word16

/-- Free value: the answer (true is ok) of a device call when the environment has none ready (R10). -/
opaque freeDevOk : Nat → Bool

/-- Free value: `AnyByte()` when the environment has none ready (R10). -/
opaque freeByte : Nat → Byte

/-- Free value: the event that comes next when the environment has none ready (R272). -/
opaque freeEvent : Nat → Event

end Config

end Sys2Proof
end

