-- ==== Sys2Proof/Syntax.lean ====
section
/-! DEFINITION. The instructions: one constructor for each row of spec/opcode_table.json, with the operands of
spec/30_encoding.md R90 (transaction words) and R82, R83 (frame commands). -/

namespace Sys2Proof

/-- A FIFO instance (R90: SEL 0 is rx, 1 is tx). -/
inductive FifoSel where
  | rx | tx
deriving DecidableEq, Repr

/-- A channel, 0..NCH-1 with NCH = 3 (spec/00_scope.md R6). -/
inductive Chan where
  | c0 | c1 | c2
deriving DecidableEq, Repr

/-- The channels in channel order (spec/42_sampling_rms.md R150). -/
def Chan.all : List Chan := [.c0, .c1, .c2]

/-- The timing mode (spec/10_state.md R34). -/
inductive Mode where
  | definite | inverse
deriving DecidableEq, Repr

/-- The instructions of the block: the fifteen transactions of R91 and the ten frame commands of R86. A frame
command carries its acknowledge bit `a` (R82) and its three parameter bytes; `cmdUnknown` also its code. -/
inductive Instr where
  | put (f : FifoSel) (b : Byte)
  | tryput (f : FifoSel) (b : Byte)
  | get (f : FifoSel)
  | rxByte (b : Byte)
  | txReady
  | syncStep
  | dispatch
  | encodeFrame (c p1 p2 p3 : Byte)
  | tick
  | rmsLatch (c : Chan)
  | relayEval (c : Chan) (m : Mode)
  | alloc (size : Byte)
  | nvWrite (width : Byte) (off : Word16) (val : Word32)
  | persist
  | init
  | getTiming (a : Bool) (p1 p2 p3 : Byte)
  | setTiming (a : Bool) (p1 p2 p3 : Byte)
  | getRaises (a : Bool) (p1 p2 p3 : Byte)
  | resetRaises (a : Bool) (p1 p2 p3 : Byte)
  | getLowers (a : Bool) (p1 p2 p3 : Byte)
  | resetLowers (a : Bool) (p1 p2 p3 : Byte)
  | queryFreq (a : Bool) (p1 p2 p3 : Byte)
  | queryVolt (a : Bool) (p1 p2 p3 : Byte)
  | querySpectrum (a : Bool) (p1 p2 p3 : Byte)
  | cmdUnknown (a : Bool) (code : BitVec 7) (p1 p2 p3 : Byte)
deriving DecidableEq, Repr

/-- The form a written instruction has: a 64-bit transaction word or a 40-bit frame. -/
inductive Encoded where
  | word (w : TxWord)
  | frame (w : FrameWord)
deriving DecidableEq, Repr

end Sys2Proof
end

