-- ==== Sys2Proof/WellFormed.lean ====
section
/-! DEFINITION. When a parameter set is legal (spec/00_scope.md R6) and when an instruction can be written as a
word or a frame (spec/30_encoding.md R86, R90). -/

namespace Sys2Proof

/-- The nine codes in the order of R86. -/
def CmdCodes.list (k : CmdCodes) : List (BitVec 7) :=
  [k.getTiming, k.setTiming, k.getRaises, k.resetRaises, k.getLowers, k.resetLowers, k.queryFreq,
    k.queryVolt, k.querySpectrum]

/-- `CMDCODE` is an injective map (R86). -/
abbrev CmdCodes.wf (k : CmdCodes) : Prop := k.list.Nodup

/-- The constraints R6 puts on the parameters (D20, D23). -/
abbrev Params.wf (p : Params) : Prop :=
  4 ≤ p.eu ∧ 2 ^ p.eu.log2 = p.eu ∧ p.nvsSize % p.eu = 0 ∧ p.nvsSize ≤ 65536 ∧
    p.nvsBase % p.eu = 0 ∧ p.nominal ≤ 32767 ∧ p.cmdCode.wf

/-- The operand checks that the types of `Instr` do not make already: the value of a 1-byte or 2-byte NV_WRITE
fits its width (R90), and an unknown command's code is not in `CMDCODE` (R86). -/
def Instr.wellFormed (k : CmdCodes) : Instr → Bool
  | .nvWrite w _ v => (w != 1 || v.toNat < 256) && (w != 2 || v.toNat < 65536)
  | .cmdUnknown _ code _ _ _ => !k.list.contains code
  | .put _ _ | .tryput _ _ | .get _ | .rxByte _ | .txReady | .syncStep | .dispatch
  | .encodeFrame _ _ _ _ | .tick | .rmsLatch _ | .relayEval _ _ | .alloc _ | .persist | .init
  | .getTiming _ _ _ _ | .setTiming _ _ _ _ | .getRaises _ _ _ _ | .resetRaises _ _ _ _
  | .getLowers _ _ _ _ | .resetLowers _ _ _ _ | .queryFreq _ _ _ _ | .queryVolt _ _ _ _
  | .querySpectrum _ _ _ _ => true

end Sys2Proof
end

