-- ==== Sys2Proof/Decode.lean ====
section
/-! DEFINITION. The decoder of transaction words and of frames, total and rejecting by name
(spec/30_encoding.md R89 to R99), and after it the encoder, the pseudo-instructions of R97 and the assembler
syntax of R96. -/

namespace Sys2Proof

/-- Why a transaction word spells no operation (R99). -/
inductive DecodeError where
  /-- `OP` is not in the map of R91. -/
  | unknownOp (op : Byte)
  /-- A FIFO selector above 1. -/
  | badFifo (sel : Byte)
  /-- A channel selector of NCH or more. -/
  | badChannel (sel : Byte)
  /-- A field or bit that R90 or R91 wants zero is not. -/
  | reservedBits
  /-- Not a form of this machine: neither 64 nor 40 bits. -/
  | badLength (nbits : Nat)
deriving DecidableEq, Repr

/-- `OP`, bits 63:56 (R89). -/
def opField (w : TxWord) : Byte := w.extractLsb' 56 8

/-- `SEL`, bits 55:48 (R89). -/
def selField (w : TxWord) : Byte := w.extractLsb' 48 8

/-- `ADDR`, bits 47:32 (R89). -/
def addrField (w : TxWord) : Word16 := w.extractLsb' 32 16

/-- `DATA`, bits 31:0 (R89). -/
def dataField (w : TxWord) : Word32 := w.extractLsb' 0 32

/-- Byte `i` of a 32-bit value, byte 0 the least significant (R64, R90). -/
def byteOf (v : Word32) (i : Nat) : Byte := v.extractLsb' (8 * i) 8

/-- The FIFO selector (R90). -/
def FifoSel.ofSel (sel : Byte) : Except DecodeError FifoSel :=
  if sel = 0 then .ok .rx else if sel = 1 then .ok .tx else .error (.badFifo sel)

/-- The FIFO selector's value (R90). -/
def FifoSel.toSel : FifoSel → Byte
  | .rx => 0
  | .tx => 1

/-- The channel selector (R90). -/
def Chan.ofSel (sel : Byte) : Except DecodeError Chan :=
  if sel = 0 then .ok .c0 else if sel = 1 then .ok .c1 else if sel = 2 then .ok .c2
  else .error (.badChannel sel)

/-- The channel selector's value (R90). -/
def Chan.toSel : Chan → Byte
  | .c0 => 0
  | .c1 => 1
  | .c2 => 2

/-- The mode bit (spec/10_state.md R34): 0 is DEFINITE, 1 is INVERSE. -/
def Mode.ofBit (m : Bool) : Mode := if m then .inverse else .definite

/-- The mode's value as a bit (R34). -/
def Mode.toBit : Mode → Bool
  | .definite => false
  | .inverse => true

/-- A word whose reserved fields are zero spells `i`; otherwise it spells nothing (R95). -/
def reserved (zero : Bool) (i : Instr) : Except DecodeError Instr :=
  if zero then .ok i else .error .reservedBits

/-- The byte operand leaves `DATA[31:8]` zero (R90). -/
def byteOnly (d : Word32) : Bool := d.extractLsb' 8 24 == 0

/-- R90 on the NV_WRITE value: a legal width below 4 leaves `DATA[31:8w]` zero; another width is not checked. -/
def nvValueOk (w : Byte) (d : Word32) : Bool :=
  if w = 1 then d.toNat < 256 else if w = 2 then d.toNat < 65536 else true

/-- The transaction a 64-bit word spells, or the reason it spells none (R91, R98, R99). -/
def decodeWord (w : TxWord) : Except DecodeError Instr :=
  let sel := selField w
  let addr := addrField w
  let data := dataField w
  match (opField w).toNat with
  | 0x01 => (FifoSel.ofSel sel).bind fun f => reserved (addr == 0 && byteOnly data) (.put f (byteOf data 0))
  | 0x02 => (FifoSel.ofSel sel).bind fun f => reserved (addr == 0 && byteOnly data) (.tryput f (byteOf data 0))
  | 0x03 => (FifoSel.ofSel sel).bind fun f => reserved (addr == 0 && data == 0) (.get f)
  | 0x10 => reserved (sel == 0 && addr == 0 && byteOnly data) (.rxByte (byteOf data 0))
  | 0x11 => reserved (sel == 0 && addr == 0 && data == 0) .txReady
  | 0x12 => reserved (sel == 0 && addr == 0 && data == 0) .syncStep
  | 0x13 => reserved (sel == 0 && addr == 0 && data == 0) .dispatch
  | 0x14 => reserved (sel == 0 && addr == 0)
      (.encodeFrame (byteOf data 3) (byteOf data 2) (byteOf data 1) (byteOf data 0))
  | 0x20 => reserved (sel == 0 && addr == 0 && data == 0) .tick
  | 0x21 => (Chan.ofSel sel).bind fun c => reserved (addr == 0 && data == 0) (.rmsLatch c)
  | 0x22 => (Chan.ofSel sel).bind fun c =>
      reserved (addr.extractLsb' 1 15 == 0 && data == 0) (.relayEval c (Mode.ofBit (addr.getLsbD 0)))
  | 0x30 => reserved (addr == 0 && data == 0) (.alloc sel)
  | 0x31 => reserved (nvValueOk sel data) (.nvWrite sel addr data)
  | 0x32 => reserved (sel == 0 && addr == 0 && data == 0) .persist
  | 0x3F => reserved (sel == 0 && addr == 0 && data == 0) .init
  | _ => .error (.unknownOp (opField w))

/-- The command a 7-bit code selects (R86); `none` is every code not in `CMDCODE`. -/
def CmdCodes.lookup (k : CmdCodes) (code : BitVec 7) : Option CmdName :=
  if code = k.getTiming then some .getTiming
  else if code = k.setTiming then some .setTiming
  else if code = k.getRaises then some .getRaises
  else if code = k.resetRaises then some .resetRaises
  else if code = k.getLowers then some .getLowers
  else if code = k.resetLowers then some .resetLowers
  else if code = k.queryFreq then some .queryFreq
  else if code = k.queryVolt then some .queryVolt
  else if code = k.querySpectrum then some .querySpectrum
  else none

/-- The acknowledge bit of a command byte (R82). -/
def ackBit (b0 : Byte) : Bool := b0.getLsbD 7

/-- The code of a command byte (R82). -/
def codeField (b0 : Byte) : BitVec 7 := b0.extractLsb' 0 7

/-- A command or response byte from its flag and its code (R82). -/
def commandByte (a : Bool) (code : BitVec 7) : Byte := BitVec.ofBool a ++ code

/-- `ck(c, p1, p2, p3)` (R81). -/
def checksum (c p1 p2 p3 : Byte) : Byte := c ^^^ p1 ^^^ p2 ^^^ p3

/-- The frame of four bytes and their checksum (R80, R84). -/
def FiveBytes.ofFour (c p1 p2 p3 : Byte) : FiveBytes := ⟨c, p1, p2, p3, checksum c p1 p2 p3⟩

/-- A frame's bytes from its 40 bits, b0 the highest (spec/opcode_table.json). -/
def FiveBytes.ofBits (w : FrameWord) : FiveBytes :=
  ⟨w.extractLsb' 32 8, w.extractLsb' 24 8, w.extractLsb' 16 8, w.extractLsb' 8 8, w.extractLsb' 0 8⟩

/-- A frame's 40 bits, b0 the highest. -/
def FiveBytes.toBits (f : FiveBytes) : FrameWord := f.b0 ++ f.b1 ++ f.b2 ++ f.b3 ++ f.b4

/-- The command that four frame bytes spell (R82, R83, R86). Byte b4 is not looked at, as the dispatcher does
not read it again (spec/45_commands.md R230); validity is the synchronizer's check. DEDUCED, log entry 9. -/
def decodeFrame (k : CmdCodes) (f : FiveBytes) : Instr :=
  let a := ackBit f.b0
  match k.lookup (codeField f.b0) with
  | some .getTiming => .getTiming a f.b1 f.b2 f.b3
  | some .setTiming => .setTiming a f.b1 f.b2 f.b3
  | some .getRaises => .getRaises a f.b1 f.b2 f.b3
  | some .resetRaises => .resetRaises a f.b1 f.b2 f.b3
  | some .getLowers => .getLowers a f.b1 f.b2 f.b3
  | some .resetLowers => .resetLowers a f.b1 f.b2 f.b3
  | some .queryFreq => .queryFreq a f.b1 f.b2 f.b3
  | some .queryVolt => .queryVolt a f.b1 f.b2 f.b3
  | some .querySpectrum => .querySpectrum a f.b1 f.b2 f.b3
  | none => .cmdUnknown a (codeField f.b0) f.b1 f.b2 f.b3

/-- The decoder of both forms (R88, R98). -/
def decode (k : CmdCodes) : Encoded → Except DecodeError Instr
  | .word w => decodeWord w
  | .frame w => .ok (decodeFrame k (FiveBytes.ofBits w))

/-- The instruction of a row of spec/opcode_table.json, the row's bits read as one number: a 64-bit transaction
word, or a 40-bit frame under the default code table. -/
def decodeTableWord (nbits w : Nat) : Option Instr :=
  let out : Except DecodeError Instr :=
    if nbits = 64 then decode CmdCodes.default (.word (BitVec.ofNat 64 w))
    else if nbits = 40 then decode CmdCodes.default (.frame (BitVec.ofNat 40 w))
    else .error (.badLength nbits)
  match out with
  | .ok i => some i
  | .error _ => none

/-! ## Encoder -/

/-- A transaction word from its four fields (R89). -/
def txWord (op sel : Byte) (addr : Word16) (data : Word32) : TxWord := op ++ sel ++ addr ++ data

/-- The frame a host sends for a command (R80 to R83): valid checksum. -/
def requestFrame (a : Bool) (code : BitVec 7) (p1 p2 p3 : Byte) : Encoded :=
  .frame (FiveBytes.ofFour (commandByte a code) p1 p2 p3).toBits

/-- The word or frame of an instruction (R86, R89 to R91). -/
def encode (k : CmdCodes) : Instr → Encoded
  | .put f b => .word (txWord 0x01 f.toSel 0 (b.setWidth 32))
  | .tryput f b => .word (txWord 0x02 f.toSel 0 (b.setWidth 32))
  | .get f => .word (txWord 0x03 f.toSel 0 0)
  | .rxByte b => .word (txWord 0x10 0 0 (b.setWidth 32))
  | .txReady => .word (txWord 0x11 0 0 0)
  | .syncStep => .word (txWord 0x12 0 0 0)
  | .dispatch => .word (txWord 0x13 0 0 0)
  | .encodeFrame c p1 p2 p3 => .word (txWord 0x14 0 0 (c ++ p1 ++ p2 ++ p3))
  | .tick => .word (txWord 0x20 0 0 0)
  | .rmsLatch c => .word (txWord 0x21 c.toSel 0 0)
  | .relayEval c m => .word (txWord 0x22 c.toSel ((BitVec.ofBool m.toBit).setWidth 16) 0)
  | .alloc size => .word (txWord 0x30 size 0 0)
  | .nvWrite w off v => .word (txWord 0x31 w off v)
  | .persist => .word (txWord 0x32 0 0 0)
  | .init => .word (txWord 0x3F 0 0 0)
  | .getTiming a p1 p2 p3 => requestFrame a k.getTiming p1 p2 p3
  | .setTiming a p1 p2 p3 => requestFrame a k.setTiming p1 p2 p3
  | .getRaises a p1 p2 p3 => requestFrame a k.getRaises p1 p2 p3
  | .resetRaises a p1 p2 p3 => requestFrame a k.resetRaises p1 p2 p3
  | .getLowers a p1 p2 p3 => requestFrame a k.getLowers p1 p2 p3
  | .resetLowers a p1 p2 p3 => requestFrame a k.resetLowers p1 p2 p3
  | .queryFreq a p1 p2 p3 => requestFrame a k.queryFreq p1 p2 p3
  | .queryVolt a p1 p2 p3 => requestFrame a k.queryVolt p1 p2 p3
  | .querySpectrum a p1 p2 p3 => requestFrame a k.querySpectrum p1 p2 p3
  | .cmdUnknown a code p1 p2 p3 => requestFrame a code p1 p2 p3

/-! ## Notation of traces -/

/-- The word of INIT (R91). -/
def initWord : TxWord := txWord 0x3F 0 0 0

/-- The word of DISPATCH (R91). -/
def dispatchWord : TxWord := txWord 0x13 0 0 0

/-- `HOSTFRAME c, p1, p2, p3` (R97). -/
def hostFrame (c p1 p2 p3 : Byte) : List Instr :=
  [.rxByte c, .rxByte p1, .rxByte p2, .rxByte p3, .rxByte (checksum c p1 p2 p3)]

/-- `RECV n` (R97). -/
def recv (n : Nat) : List Instr := List.replicate n .syncStep

/-- `DRAIN n` (R97). -/
def drain (n : Nat) : List Instr := List.replicate n .txReady

/-- `TICKS n` (R97). -/
def ticks (n : Nat) : List Instr := List.replicate n .tick

/-- The operands of an assembler line, after the mnemonic (R96). -/
def asmOperands (xs : List String) : String := String.intercalate ", " xs

/-- The name of a FIFO instance in a trace (R96). -/
def FifoSel.asm : FifoSel → String
  | .rx => "rx"
  | .tx => "tx"

/-- The assembler line of a transaction (R96), numbers in decimal; a frame command is written by the bytes of
its frame in a HOSTFRAME (R97) and has no mnemonic of its own in a trace. -/
def Instr.asm : Instr → Option String
  | .put f b => some ("PUT " ++ asmOperands [f.asm, toString b.toNat])
  | .tryput f b => some ("TRYPUT " ++ asmOperands [f.asm, toString b.toNat])
  | .get f => some ("GET " ++ f.asm)
  | .rxByte b => some ("RX_BYTE " ++ toString b.toNat)
  | .txReady => some "TX_READY"
  | .syncStep => some "SYNC_STEP"
  | .dispatch => some "DISPATCH"
  | .encodeFrame c p1 p2 p3 =>
      some ("ENCODE " ++ asmOperands [toString c.toNat, toString p1.toNat, toString p2.toNat, toString p3.toNat])
  | .tick => some "TICK"
  | .rmsLatch c => some ("RMS_LATCH " ++ toString c.toSel.toNat)
  | .relayEval c m => some ("RELAY_EVAL " ++ asmOperands
      [toString c.toSel.toNat, match m with | .definite => "DEFINITE" | .inverse => "INVERSE"])
  | .alloc size => some ("ALLOC " ++ toString size.toNat)
  | .nvWrite w off v => some ("NV_WRITE " ++ asmOperands [toString w.toNat, toString off.toNat, toString v.toNat])
  | .persist => some "PERSIST"
  | .init => some "INIT"
  | .getTiming _ _ _ _ | .setTiming _ _ _ _ | .getRaises _ _ _ _ | .resetRaises _ _ _ _
  | .getLowers _ _ _ _ | .resetLowers _ _ _ _ | .queryFreq _ _ _ _ | .queryVolt _ _ _ _
  | .querySpectrum _ _ _ _ | .cmdUnknown _ _ _ _ _ => none

end Sys2Proof
end

