-- ==== Sys2Proof/Machine/State.lean ====
section
/-! DEFINITION. The state of the block, as plain data: the block registers of spec/10_state.md (one record,
`Block`), the durable storage, the wire streams, the `refused` mark, and the model's own fields (parameters,
the environment's answers and events, the last result). -/

namespace Sys2Proof.Machine

/-- The statuses of spec/60_exceptions.md R260, with `nvStatus` one of them (R40). -/
inductive Status where
  | ok | outOfSpace | programFailure | alignmentViolation | badSize | badAddress | full
deriving DecidableEq, Repr

/-- One FIFO instance (R22, R23). -/
structure Fifo where
  buf : Vector Byte 256
  head : BitVec 8
  tail : BitVec 8
  avail : BitVec 9
  free : BitVec 9
deriving DecidableEq, Repr

/-- The relay state of a channel (R31). -/
inductive RelayState where
  | normal | outrange | tripRaise | tripLower
deriving DecidableEq, Repr

/-- The registers of one channel (R27, R29 to R33). -/
structure ChanRegs where
  /-- `win[c][0..15]`, each read as signed. -/
  win : Vector Word16 16
  /-- `rms[c]`, read as signed. -/
  rms : Word16
  voltageAlarm : Bool
  st : RelayState
  raiseReq : Bool
  lowerReq : Bool
  timerDelay : Word32
  timerCount : Word32
deriving DecidableEq, Repr

/-- A counter's place in storage (R36). -/
structure Slot where
  off : Word16
  valid : Bool
deriving DecidableEq, Repr

/-- The block registers: everything a block reset sets (R22 to R41). -/
structure Block where
  rx : Fifo
  tx : Fifo
  rxOvf : Bool
  stg : FiveBytes
  stgCount : BitVec 3
  frm : FiveBytes
  frmValid : Bool
  pos : BitVec 4
  rmsValid : Bool
  ch0 : ChanRegs
  ch1 : ChanRegs
  ch2 : ChanRegs
  mode : Mode
  raisesNb : Word16
  lowersNb : Word16
  raisesSlot : Slot
  lowersSlot : Slot
  raisesDirty : Bool
  lowersDirty : Bool
  /-- `fsm[0..NVS_SIZE-1]`; true is used (R38). -/
  fsm : List Bool
  nvStatus : Status
  initDone : Bool
deriving DecidableEq, Repr

/-- Bytes by address, in the canonical form of `Memory.wf`; a byte that is not listed reads `unlistedByte`. -/
abbrev Memory := List Host.Cell

/-- What a storage byte that nothing has written reads as. The spec leaves the first power-up contents of the
device a draw (R39). DESIGN CHOICE, log entry 8. unsafe: a claim about a storage that nothing has written could
rest on this byte; a state that lists other bytes is a device with other contents. -/
def unlistedByte : Byte := 0xFF

/-- The environment's answers to the draws of spec/00_scope.md R10: what it has ready, in the order it will be
asked, and the number of the next free value. The model's own field, log entry 2. -/
structure Env where
  /-- Answers to `Sample`. -/
  samples : List Word16
  /-- Answers to `DevErase` and `DevProgram` in the order of the calls; true is ok. -/
  devResults : List Bool
  /-- Answers to `AnyByte`. -/
  anyBytes : List Byte
  /-- How many draws a free value has answered. -/
  drawNo : Nat
deriving DecidableEq, Repr

/-- The output of a transaction (spec/30_encoding.md R93). The model's own field, log entry 10. -/
inductive Result where
  /-- Nothing returned. -/
  | none
  /-- The transaction held: it did not happen (R11). -/
  | held
  /-- GET's byte. -/
  | byte (b : Byte)
  /-- A status: TRYPUT, NV_WRITE, a failed ALLOC. -/
  | status (st : Status)
  /-- A successful ALLOC: OK and the offset. -/
  | allocated (off : Word16)
deriving DecidableEq, Repr

/-- The whole state. -/
structure State where
  /-- The parameters of this block instance; no step changes them (log entry 1). -/
  cfg : Params
  /-- The block registers. -/
  blk : Block
  /-- The storage device, by device address (R39, R61). -/
  nv : Memory
  /-- The sticky model mark of R42. -/
  refused : Bool
  /-- The bytes the transport has delivered, first first (R60). -/
  wireIn : List Byte
  /-- The bytes `SendByte` has delivered to the transport, first first (R60, R10). -/
  wireOut : List Byte
  /-- The environment's answers to draws. -/
  env : Env
  /-- The events that come next, first first (log entry 3). -/
  sched : List Event
  /-- The output of the last transaction. -/
  result : Result
deriving DecidableEq, Repr

/-- Why the machine stops with a fault. The block itself has no fault mechanism (R263). -/
inductive Fault where
  /-- Raised by SYNC_STEP when `stgCount` is 5, 6 or 7, so that `stg[stgCount]` does not exist: R25 says the
  count is 0..4 between transactions, and no run reaches such a state. safe: the model stops where the spec
  gives nothing. DESIGN CHOICE, log entry 14. -/
  | stagingIndex
deriving DecidableEq, Repr

/-- Why the machine refuses. No meaning of this model refuses: a word that spells no operation sets the mark
`refused` (R99). -/
inductive Refusal where
  /-- Raised only by an arm of `exec` whose instruction has no meaning in the model; no arm is left so. safe. -/
  | notModelled (mnemonic : String)
deriving DecidableEq, Repr

/-- The outcome of a meaning. -/
abbrev Out := Host.Outcome State Fault Refusal

/-- A FIFO right after reset (R22, R23): empty. The contents of `buf`, which the spec leaves unspecified, are 0:
DESIGN CHOICE, log entry 7. unsafe: a claim could rest on a byte that no put has written. -/
def Fifo.reset : Fifo where
  buf := Vector.replicate 256 0
  head := 0
  tail := 0
  avail := 0
  free := 256

/-- A channel right after reset (R27, R29 to R33). -/
def ChanRegs.reset : ChanRegs where
  win := Vector.replicate 16 0
  rms := 0
  voltageAlarm := false
  st := .normal
  raiseReq := false
  lowerReq := false
  timerDelay := 0
  timerCount := 0

/-- The block registers right after reset (R22 to R41). `stg` and `frm`, which the spec leaves unspecified, are
0: DESIGN CHOICE, log entry 7. unsafe: a claim could rest on a byte nothing has written. -/
def Block.reset (p : Params) : Block where
  rx := Fifo.reset
  tx := Fifo.reset
  rxOvf := false
  stg := ⟨0, 0, 0, 0, 0⟩
  stgCount := 0
  frm := ⟨0, 0, 0, 0, 0⟩
  frmValid := false
  pos := 0
  rmsValid := false
  ch0 := ChanRegs.reset
  ch1 := ChanRegs.reset
  ch2 := ChanRegs.reset
  mode := .definite
  raisesNb := 0
  lowersNb := 0
  raisesSlot := ⟨0, false⟩
  lowersSlot := ⟨0, false⟩
  raisesDirty := false
  lowersDirty := false
  fsm := List.replicate p.nvsSize false
  nvStatus := .ok
  initDone := false

/-- The machine right after the reset at first power-up (spec/70_reset_and_hazards.md R290): every register at
its reset value, storage with nothing listed, nothing on the wire, no answer and no event prepared. -/
def State.reset : State where
  cfg := Params.standard
  blk := Block.reset Params.standard
  nv := []
  refused := false
  wireIn := []
  wireOut := []
  env := { samples := [], devResults := [], anyBytes := [], drawNo := 0 }
  sched := []
  result := .none

end Sys2Proof.Machine
end

