-- ==== Sys2Proof/Machine/Ops.lean ====
section
/-! DEFINITION. The named operations over the state that every meaning is built from: answering holds and
results, register selection, FIFO put and get, storage bytes, draws, and the device calls. The block takes no
exception and returns from none (spec/60_exceptions.md R263, R264): what stands here in their place is the hold
(`hold`) and the returned status (`finish`). -/

namespace Sys2Proof.Machine

/-! ## Ending a transaction -/

/-- A transaction that has no step in this state (R11): nothing changes but the recorded output. Log entry 4. -/
def hold (s : State) : Out := .next { s with result := .held }

/-- A transaction is done and returns `r` (R93). -/
def finish (r : Result) (s : State) : Out := .next { s with result := r }

/-- While `initDone = 0`, every transaction but INIT holds (R271). -/
def gated (k : State → Out) (s : State) : Out :=
  if s.blk.initDone then k s else hold s

/-! ## Registers -/

/-- The FIFO instance an operand selects. -/
def Block.fifo (b : Block) : FifoSel → Fifo
  | .rx => b.rx
  | .tx => b.tx

/-- Write the FIFO instance an operand selects. -/
def Block.setFifo (b : Block) (f : FifoSel) (x : Fifo) : Block :=
  match f with
  | .rx => { b with rx := x }
  | .tx => { b with tx := x }

/-- The registers of channel `c`. -/
def Block.chan (b : Block) : Chan → ChanRegs
  | .c0 => b.ch0
  | .c1 => b.ch1
  | .c2 => b.ch2

/-- Write the registers of channel `c`. -/
def Block.setChan (b : Block) (c : Chan) (x : ChanRegs) : Block :=
  match c with
  | .c0 => { b with ch0 := x }
  | .c1 => { b with ch1 := x }
  | .c2 => { b with ch2 := x }

/-- Write the block registers. -/
def State.setBlk (s : State) (b : Block) : State := { s with blk := b }

/-- Write the environment's answers. -/
def State.setEnv (s : State) (e : Env) : State := { s with env := e }

/-- The code of a status in `nvStatus` (R260). -/
def Status.code : Status → BitVec 3
  | .ok => 0
  | .outOfSpace => 1
  | .programFailure => 2
  | .alignmentViolation => 3
  | .badSize => 4
  | .badAddress => 5
  | .full => 6

/-- The value of `st[c]` (R31). -/
def RelayState.code : RelayState → BitVec 2
  | .normal => 0
  | .outrange => 1
  | .tripRaise => 2
  | .tripLower => 3

/-! ## FIFO (spec/40_fifo.md) -/

/-- The writes of a put (R110, R111, R112). -/
def Fifo.push (f : Fifo) (b : Byte) : Fifo where
  buf := f.buf.set f.tail.toNat b f.tail.isLt
  head := f.head
  tail := f.tail + 1
  avail := f.avail + 1
  free := f.free - 1

/-- The byte GET reads (R113). -/
def Fifo.front (f : Fifo) : Byte := f.buf[f.head.toNat]'f.head.isLt

/-- The writes of GET (R113). -/
def Fifo.pop (f : Fifo) : Fifo where
  buf := f.buf
  head := f.head + 1
  tail := f.tail
  avail := f.avail - 1
  free := f.free + 1

/-- The five puts of ENCODE (spec/41_frame_sync.md R134). -/
def Fifo.pushFrame (f : Fifo) (x : FiveBytes) : Fifo :=
  ((((f.push x.b0).push x.b1).push x.b2).push x.b3).push x.b4

/-! ## Storage bytes -/

/-- Put a listed byte at its place in the rising order. -/
def Memory.insert (a : Nat) (v : Byte) : Memory → Memory
  | [] => [(a, v)]
  | c :: m => if a < c.1 then (a, v) :: c :: m else c :: Memory.insert a v m

/-- The byte at an address. -/
def Memory.read : Memory → Nat → Byte
  | [], _ => unlistedByte
  | c :: m, a => if c.1 = a then c.2 else Memory.read m a

/-- Write the byte at an address; a byte that reads as unlisted is not listed. -/
def Memory.write (m : Memory) (a : Nat) (v : Byte) : Memory :=
  let rest := m.filter fun c => c.1 != a
  if v = unlistedByte then rest else Memory.insert a v rest

/-- Write bytes at rising addresses. -/
def Memory.writeList (m : Memory) (a : Nat) : List Byte → Memory
  | [] => m
  | v :: vs => Memory.writeList (Memory.write m a v) (a + 1) vs

/-- The canonical form: addresses strictly rising, no entry equal to the unlisted byte. -/
abbrev Memory.wf (m : Memory) : Prop :=
  m.Pairwise (fun x y => x.1 < y.1) ∧ ∀ c ∈ m, c.2 ≠ unlistedByte

/-- `nv[off]`, at device address `NVS_BASE + off` (spec/20_memory.md R61). -/
def State.nvByte (s : State) (off : Nat) : Byte := Memory.read s.nv (s.cfg.nvsBase + off)

/-- `n` bytes of `nv` from offset `off`, in rising order. -/
def State.nvBytes (s : State) (off n : Nat) : List Byte := (List.range n).map fun i => s.nvByte (off + i)

/-- Write bytes of `nv` from offset `off` in rising order (R61). -/
def State.setNvBytes (s : State) (off : Nat) (bs : List Byte) : State :=
  { s with nv := Memory.writeList s.nv (s.cfg.nvsBase + off) bs }

/-- The value of little-endian bytes (R64, R65). -/
def leValue : List Byte → Nat
  | [] => 0
  | b :: bs => b.toNat + 256 * leValue bs

/-- `MemRead(off, n)` (R10, R65). -/
def State.memRead (s : State) (off n : Nat) : Nat := leValue (s.nvBytes off n)

/-! ## Draws (spec/00_scope.md R10): the environment's next answer, or a free value -/

/-- `Sample(c)`. -/
def Env.drawSample (e : Env) : Word16 × Env :=
  match e.samples with
  | x :: xs => (x, { e with samples := xs })
  | [] => (Config.freeSample e.drawNo, { e with drawNo := e.drawNo + 1 })

/-- The result of a device call; true is ok. -/
def Env.drawDev (e : Env) : Bool × Env :=
  match e.devResults with
  | x :: xs => (x, { e with devResults := xs })
  | [] => (Config.freeDevOk e.drawNo, { e with drawNo := e.drawNo + 1 })

/-- `AnyByte()`. -/
def Env.drawByte (e : Env) : Byte × Env :=
  match e.anyBytes with
  | x :: xs => (x, { e with anyBytes := xs })
  | [] => (Config.freeByte e.drawNo, { e with drawNo := e.drawNo + 1 })

/-- `n` draws of `AnyByte()`, one for each byte. -/
def Env.drawBytes (e : Env) : Nat → List Byte × Env
  | 0 => ([], e)
  | n + 1 =>
    let x := e.drawByte
    let rest := Env.drawBytes x.2 n
    (x.1 :: rest.1, rest.2)

/-- Each byte of the erase unit at offset `base` becomes `AnyByte()` (spec/44_nvstore.md R206, R207;
spec/70_reset_and_hazards.md R305). -/
def State.scrambleUnit (s : State) (base : Nat) : State :=
  let d := s.env.drawBytes s.cfg.eu
  (s.setEnv d.2).setNvBytes base d.1

/-- `DevErase` on the unit at offset `base`: ok fills it with `ERASED_BYTE`, fail leaves any bytes (R206). -/
def State.devErase (s : State) (base : Nat) : Bool × State :=
  let d := s.env.drawDev
  let s1 := s.setEnv d.2
  if d.1 then (true, s1.setNvBytes base (List.replicate s.cfg.eu s.cfg.erasedByte))
  else (false, s1.scrambleUnit base)

/-- `DevProgram` on the unit at offset `base`: ok stores the bytes, fail leaves any bytes (R207). -/
def State.devProgram (s : State) (base : Nat) (bytes : List Byte) : Bool × State :=
  let d := s.env.drawDev
  let s1 := s.setEnv d.2
  if d.1 then (true, s1.setNvBytes base bytes)
  else (false, s1.scrambleUnit base)

end Sys2Proof.Machine
end

