-- ==== Sys2Proof/Machine/Operands.lean ====
section
/-! DEFINITION. The values the rules compute from operands, registers and parameters: the arithmetic primitives
of spec/00_scope.md R12, the band of R7, the RMS function (spec/42_sampling_rms.md R152, R155), the relay's
comparator value and delay (spec/43_relay.md R172, R173), the erase unit of an offset (spec/20_memory.md R61). -/

namespace Sys2Proof.Machine

/-! ## Primitives of R12 -/

/-- The root of `n` found bit by bit: `r` is the root so far, `k` bits are left to decide. -/
def isqrtBits (n : Nat) : Nat → Nat → Nat
  | 0, r => r
  | k + 1, r =>
    let c := r + 2 ^ k
    if c * c ≤ n then isqrtBits n k c else isqrtBits n k r

/-- `isqrt(n)`, the largest `r` with `r * r ≤ n` (R12). -/
def isqrt (n : Nat) : Nat := isqrtBits n (n.log2 / 2 + 1) 0

/-- `ceil_div(a, b)` (R12). -/
def ceilDiv (a b : Nat) : Nat := (a + b - 1) / b

/-- `sat32(v)` (R12). -/
def sat32 (v : Nat) : Nat := min v 0xFFFFFFFF

/-! ## Derived constants of R7 -/

/-- `LOW = NOMINAL - BAND_HALF`, in unbounded integers. -/
def low (p : Params) : Int := (p.nominal : Int) - (p.bandHalf : Int)

/-- `HIGH = NOMINAL + BAND_HALF`. -/
def high (p : Params) : Int := (p.nominal : Int) + (p.bandHalf : Int)

/-- `DELAY_INF`. -/
def delayInf : Word32 := 0xFFFFFFFF

/-- `NUNITS`. -/
def nUnits (p : Params) : Nat := p.nvsSize / p.eu

/-- The offset of the first byte of the erase unit that holds `off` (R61). -/
def unitBase (p : Params) (off : Nat) : Nat := off / p.eu * p.eu

/-! ## RMS -/

/-- The sum of the squares of signed samples (R152). -/
def sumSquares (w : List Word16) : Nat := (w.map fun x => x.toInt.natAbs * x.toInt.natAbs).sum

/-- `RMSF(w)` (R152, D15): exact, truncated, saturated to 32767. -/
def rmsf (w : Vector Word16 16) : Nat := min 32767 (isqrt (sumSquares w.toList / 16))

/-- `liveRms(c)` (R155): the RMS of the window as it stands. -/
def liveRms (b : Block) (c : Chan) : Int := (rmsf (b.chan c).win : Int)

/-! ## Relay -/

/-- `bandValue(c, m)` (R172, D17): the latched RMS, but the live one for an inverse countdown under `INV_LIVE`. -/
def bandValue (p : Params) (b : Block) (c : Chan) (m : Mode) : Int :=
  if p.invLive = true ∧ m = .inverse ∧ (b.chan c).st = .outrange then liveRms b c
  else (b.chan c).rms.toInt

/-- `dev(v) = |v - NOMINAL|` (R173). -/
def deviation (p : Params) (v : Int) : Nat := (v - (p.nominal : Int)).natAbs

/-- `delayFor(m, v)`, the delay budget in ticks (R173, D19). -/
def delayFor (p : Params) (m : Mode) (v : Int) : Word32 :=
  match m with
  | .definite => p.defDelay
  | .inverse =>
    if deviation p v = 0 then delayInf
    else BitVec.ofNat 32 (ceilDiv p.invK.toNat (deviation p v))

/-! ## Storage -/

/-- The sizes and widths R200 and R203 accept. -/
def legalWidth (w : Nat) : Bool := w = 1 || w = 2 || w = 4

/-- The merge phase (R205): byte `i` of the unit buffer is byte `i - k` of the value for `i` in `k..k+w-1`, and
as it was elsewhere. -/
def mergeBytes (old : List Byte) (k w : Nat) (val : Word32) : List Byte :=
  old.mapIdx fun i b => if k ≤ i ∧ i < k + w then byteOf val (i - k) else b

/-- The two bytes of a counter as they stand in a response (spec/30_encoding.md R84). -/
def lowByte (n : Word16) : Byte := n.extractLsb' 0 8

/-- The high byte of a counter (R84). -/
def highByte (n : Word16) : Byte := n.extractLsb' 8 8

/-- The staging buffer with byte `b` at index `i`; there is no index above 4 (R25, R130). -/
def setByteAt (x : FiveBytes) (i : Nat) (b : Byte) : FiveBytes :=
  match i with
  | 0 => { x with b0 := b }
  | 1 => { x with b1 := b }
  | 2 => { x with b2 := b }
  | 3 => { x with b3 := b }
  | 4 => { x with b4 := b }
  | _ => x

end Sys2Proof.Machine
end

