-- ==== Sys2Proof/Machine/Flags.lean ====
section
/-! DEFINITION. The conditions and flags the rules compute: frame validity (spec/30_encoding.md R81), the band
comparator and its sides (spec/43_relay.md R170, R171), the alarm verdict (spec/42_sampling_rms.md R154), whether
a trip is allowed (R174), the actuation outputs (spec/60_exceptions.md R276). -/

namespace Sys2Proof.Machine

/-- A 5-byte sequence is valid iff its last byte is the XOR of the first four (R81). -/
def frameValid (x : FiveBytes) : Bool := x.b4 == checksum x.b0 x.b1 x.b2 x.b3

/-- `inBand(v)`, a closed interval (R170). -/
def inBand (p : Params) (v : Int) : Bool := low p ≤ v && v ≤ high p

/-- `below(v)` (R171). -/
def below (p : Params) (v : Int) : Bool := v < low p

/-- `above(v)` (R171). -/
def above (p : Params) (v : Int) : Bool := high p < v

/-- The verdict RMS_LATCH writes to `voltageAlarm[c]` (R153, R154). -/
def alarmVerdict (p : Params) (rms : Word16) : Bool := rms.toInt < low p || high p < rms.toInt

/-- `tripAllowed(m, v)` (R174). -/
def tripAllowed (p : Params) (m : Mode) (v : Int) : Bool := !(m == .inverse && deviation p v == 0)

/-- The level `raise_out[c]` (R276). -/
def raiseOut (b : Block) (c : Chan) : Bool := (b.chan c).raiseReq

/-- The level `lower_out[c]` (R276). -/
def lowerOut (b : Block) (c : Chan) : Bool := (b.chan c).lowerReq

end Sys2Proof.Machine
end

