-- ==== Sys2Proof/Machine/Relay.lean ====
section
/-! DEFINITION. The relay state machine of a channel (spec/43_relay.md): RELAY_EVAL. -/

namespace Sys2Proof.Machine

/-- The direction of a trip (R171, R182). -/
inductive TripDir where
  | raise | lower
deriving DecidableEq, Repr

/-- `countTrip` (R182): a counter without a slot drops the increment. -/
def countTrip (d : TripDir) (b : Block) : Block :=
  match d with
  | .raise =>
    if b.raisesSlot.valid then { b with raisesNb := b.raisesNb + 1, raisesDirty := true } else b
  | .lower =>
    if b.lowersSlot.valid then { b with lowersNb := b.lowersNb + 1, lowersDirty := true } else b

/-- NORMAL (R176): an out-of-band value starts a countdown at 0. -/
def relayNormal (p : Params) (c : Chan) (m : Mode) (v : Int) (b : Block) : Block :=
  if inBand p v then b
  else b.setChan c { b.chan c with st := .outrange, timerCount := 0, timerDelay := delayFor p m v }

/-- The return in band, the same from OUTRANGE (R177) and from a tripped state (R180). -/
def relayReturn (c : Chan) (b : Block) : Block :=
  b.setChan c { b.chan c with
    st := .normal, raiseReq := false, lowerReq := false, timerCount := 0, timerDelay := 0 }

/-- The trip (R179): the side of `v` at the moment of the trip decides the direction. -/
def relayTrip (p : Params) (c : Chan) (v : Int) (b : Block) : Block :=
  if below p v then
    countTrip .raise (b.setChan c { b.chan c with st := .tripRaise, raiseReq := true, lowerReq := false })
  else
    countTrip .lower (b.setChan c { b.chan c with st := .tripLower, lowerReq := true, raiseReq := false })

/-- OUTRANGE still out of band (R178): recompute the delay, count, and trip when the count has reached it. -/
def relayCount (p : Params) (c : Chan) (m : Mode) (v : Int) (b : Block) : Block :=
  let r := b.chan c
  let delay := delayFor p m v
  let count := BitVec.ofNat 32 (sat32 (r.timerCount.toNat + 1))
  let b1 := b.setChan c { r with timerDelay := delay, timerCount := count }
  if tripAllowed p m v ∧ delay.toNat ≤ count.toNat then relayTrip p c v b1 else b1

/-- One evaluation of channel `c` under mode `m` (R175). -/
def relayEval (p : Params) (c : Chan) (m : Mode) (b : Block) : Block :=
  let v := bandValue p b c m
  match (b.chan c).st with
  | .normal => relayNormal p c m v b
  | .outrange => if inBand p v then relayReturn c b else relayCount p c m v b
  | .tripRaise => if inBand p v then relayReturn c b else b
  | .tripLower => if inBand p v then relayReturn c b else b

/-- RELAY_EVAL (R175). -/
def execRelayEval (c : Chan) (m : Mode) (s : State) : Out :=
  gated (fun s => finish .none (s.setBlk (relayEval s.cfg c m s.blk))) s

end Sys2Proof.Machine
end

