-- ==== Sys2Proof/Machine/Sampling.lean ====
section
/-! DEFINITION. Sampling and the RMS latch (spec/42_sampling_rms.md): TICK, RMS_LATCH. -/

namespace Sys2Proof.Machine

/-- The latch of one channel (R153, R154). -/
def rmsLatch (p : Params) (c : Chan) (b : Block) : Block :=
  let rms := BitVec.ofNat 16 (rmsf (b.chan c).win)
  b.setChan c { b.chan c with rms := rms, voltageAlarm := alarmVerdict p rms }

/-- RMS_LATCH (R153): it does not write `rmsValid`. -/
def execRmsLatch (c : Chan) (s : State) : Out :=
  gated (fun s => finish .none (s.setBlk (rmsLatch s.cfg c s.blk))) s

/-- One sample of channel `c` at the window position (R150). -/
def writeSample (c : Chan) (x : Word16) (b : Block) : Block :=
  b.setChan c { b.chan c with win := (b.chan c).win.set b.pos.toNat x b.pos.isLt }

/-- Draw and write the sample of channel `c` (R150, R94). -/
def State.sampleChan (s : State) (c : Chan) : State :=
  let d := s.env.drawSample
  (s.setEnv d.2).setBlk (writeSample c d.1 s.blk)

/-- What a tick does after its samples are written (R150): advance the position, latch on the wrap, evaluate
every channel under the snapshot `m` once the first window has been latched. -/
def tickBlock (p : Params) (m : Mode) (b : Block) : Block :=
  let b1 := { b with pos := b.pos + 1 }
  let b2 :=
    if b1.pos = 0 then { Chan.all.foldl (fun b c => rmsLatch p c b) b1 with rmsValid := true } else b1
  if b2.rmsValid then Chan.all.foldl (fun b c => relayEval p c m b) b2 else b2

/-- TICK (R150, R151): samples of channels 0, 1, 2, then the rest, all under the mode at the tick's start. -/
def execTick (s : State) : Out :=
  gated (fun s =>
    let s1 := Chan.all.foldl State.sampleChan s
    finish .none (s1.setBlk (tickBlock s.cfg s.blk.mode s1.blk))) s

end Sys2Proof.Machine
end

