-- ==== Sys2Proof/Machine/Storage.lean ====
section
/-! DEFINITION. The storage allocator and the write sequencer (spec/44_nvstore.md): ALLOC, NV_WRITE, PERSIST. -/

namespace Sys2Proof.Machine

/-! ## Allocator -/

/-- What ALLOC returns (R200, R260). -/
inductive AllocOut where
  | ok (off : Word16)
  | fail (st : Status)
deriving DecidableEq, Repr

/-- The output of an ALLOC transaction (R93). -/
def AllocOut.result : AllocOut → Result
  | .ok off => .allocated off
  | .fail st => .status st

/-- The status ALLOC leaves in `nvStatus`. -/
def AllocOut.status : AllocOut → Status
  | .ok _ => .ok
  | .fail st => st

/-- Whether `fsm[a..a+n-1]` exist and are all 0. -/
def freeRun (fsm : List Bool) (n a : Nat) : Bool := (List.range n).all fun i => fsm[a + i]? == some false

/-- `fsm[a..a+n-1] <- 1`. -/
def markUsed (fsm : List Bool) (n a : Nat) : List Bool :=
  fsm.mapIdx fun i u => u || (a ≤ i && i < a + n)

/-- The scan of R200: the aligned candidates `a` with `a + size ≤ NVS_SIZE`, lowest first, and of them the first
that is free. -/
def firstFit (p : Params) (fsm : List Bool) (size : Nat) : Option Nat :=
  ((List.range (p.nvsSize / size)).map fun k => k * size).find? (freeRun fsm size)

/-- ALLOC's effect on the block registers and what it returns (R200). -/
def allocBlock (p : Params) (size : Nat) (b : Block) : AllocOut × Block :=
  if legalWidth size then
    match firstFit p b.fsm size with
    | some a => (.ok (BitVec.ofNat 16 a), { b with fsm := markUsed b.fsm size a, nvStatus := .ok })
    | none => (.fail .outOfSpace, { b with nvStatus := .outOfSpace })
  else (.fail .badSize, { b with nvStatus := .badSize })

/-- ALLOC (R200). -/
def execAlloc (size : Byte) (s : State) : Out :=
  gated (fun s =>
    let r := allocBlock s.cfg size.toNat s.blk
    finish r.1.result (s.setBlk r.2)) s

/-! ## Write sequencer -/

/-- The checks of NV_WRITE in their order (R203, R265): the status of the first that fails. -/
def nvCheck (p : Params) (w off : Nat) : Option Status :=
  if !legalWidth w then some .badSize
  else if off % w ≠ 0 then some .alignmentViolation
  else if p.nvsSize < off + w then some .badAddress
  else none

/-- Read, merge, erase, program (R204 to R207). -/
def State.nvSequence (s : State) (w off : Nat) (val : Word32) : Status × State :=
  let base := unitBase s.cfg off
  let merged := mergeBytes (s.nvBytes base s.cfg.eu) (off - base) w val
  let e := s.devErase base
  if e.1 then
    let r := e.2.devProgram base merged
    (if r.1 then .ok else .programFailure, r.2)
  else (.programFailure, e.2)

/-- NV_WRITE as an operation that returns its status (R203, R208). -/
def State.nvWrite (s : State) (w off : Nat) (val : Word32) : Status × State :=
  let r := match nvCheck s.cfg w off with
    | some st => (st, s)
    | none => s.nvSequence w off val
  (r.1, r.2.setBlk { r.2.blk with nvStatus := r.1 })

/-- NV_WRITE (R203). -/
def execNvWrite (width : Byte) (off : Word16) (val : Word32) (s : State) : Out :=
  gated (fun s =>
    let r := s.nvWrite width.toNat off.toNat val
    finish (.status r.1) r.2) s

/-! ## Counter persistence -/

/-- PERSIST (R215): one dirty counter, raises first; the dirty bit is cleared before the write. -/
def execPersist (s : State) : Out :=
  gated (fun s =>
    if s.blk.raisesDirty then
      let s1 := s.setBlk { s.blk with raisesDirty := false }
      finish .none (s1.nvWrite 2 s.blk.raisesSlot.off.toNat (s.blk.raisesNb.setWidth 32)).2
    else if s.blk.lowersDirty then
      let s1 := s.setBlk { s.blk with lowersDirty := false }
      finish .none (s1.nvWrite 2 s.blk.lowersSlot.off.toNat (s.blk.lowersNb.setWidth 32)).2
    else hold s) s

end Sys2Proof.Machine
end

