-- ==== Sys2Proof/Machine/Boot.lean ====
section
/-! DEFINITION. Boot and reset (spec/70_reset_and_hazards.md): INIT, the block reset. -/

namespace Sys2Proof.Machine

/-- The slot an allocation gives a counter (R292, R36). -/
def AllocOut.slot : AllocOut → Slot
  | .ok off => ⟨off, true⟩
  | .fail _ => ⟨0, false⟩

/-- The counter INIT loads from its slot, as the bytes stand (R292, R293). -/
def State.loadCounter (s : State) (slot : Slot) : Word16 :=
  if slot.valid then BitVec.ofNat 16 (s.memRead slot.off.toNat 2) else 0

/-- INIT (R292): holds once it has run; allocates the raise counter's slot, then the lower counter's, and loads
both. -/
def execInit (s : State) : Out :=
  if s.blk.initDone then hold s
  else
    let r1 := allocBlock s.cfg 2 s.blk
    let r2 := allocBlock s.cfg 2 r1.2
    finish .none (s.setBlk { r2.2 with
      raisesSlot := r1.1.slot
      lowersSlot := r2.1.slot
      raisesNb := s.loadCounter r1.1.slot
      lowersNb := s.loadCounter r2.1.slot
      initDone := true })

/-- A block reset (R290): every block register at its reset value, storage unchanged. The mark `refused`, which
R42 says is never cleared, stays: DEDUCED, log entry 6. safe: it keeps a claim from resting on a run that
refused a word. -/
def State.blockReset (s : State) : State :=
  { s with blk := Block.reset s.cfg, result := .none }

end Sys2Proof.Machine
end

