-- ==== Sys2Proof/Machine/Fifo.lean ====
section
/-! DEFINITION. The FIFO transactions (spec/40_fifo.md): PUT, TRYPUT, GET, RX_BYTE, TX_READY. -/

namespace Sys2Proof.Machine

/-- The state after one byte is put on a FIFO with a free slot (R110). -/
def State.putByte (s : State) (f : FifoSel) (b : Byte) : State :=
  s.setBlk (s.blk.setFifo f ((s.blk.fifo f).push b))

/-- The state after one byte is taken from a FIFO that holds one (R113). -/
def State.takeByte (s : State) (f : FifoSel) : State :=
  s.setBlk (s.blk.setFifo f (s.blk.fifo f).pop)

/-- PUT (R110): holds while the FIFO has no free slot. -/
def execPut (f : FifoSel) (b : Byte) (s : State) : Out :=
  gated (fun s => if (s.blk.fifo f).free = 0 then hold s else finish .none (s.putByte f b)) s

/-- TRYPUT (R111): returns FULL where PUT would hold. -/
def execTryput (f : FifoSel) (b : Byte) (s : State) : Out :=
  gated (fun s =>
    if (s.blk.fifo f).free = 0 then finish (.status .full) s
    else finish (.status .ok) (s.putByte f b)) s

/-- GET (R113): holds while the FIFO is empty; its result is the byte. -/
def execGet (f : FifoSel) (s : State) : Out :=
  gated (fun s =>
    if (s.blk.fifo f).avail = 0 then hold s
    else finish (.byte (s.blk.fifo f).front) (s.takeByte f)) s

/-- A byte arrives from the wire (R60, R114). -/
def State.wireReceived (s : State) (b : Byte) : State := { s with wireIn := s.wireIn ++ [b] }

/-- `SendByte(b)` (R10, R116). -/
def State.wireSent (s : State) (b : Byte) : State := { s with wireOut := s.wireOut ++ [b] }

/-- RX_BYTE (R114, R115): on a full receive FIFO, DROP discards the byte and sets `rx.ovf`, STUCK holds. -/
def execRxByte (b : Byte) (s : State) : Out :=
  gated (fun s =>
    if s.blk.rx.free = 0 then
      match s.cfg.rxFullPolicy with
      | .drop => finish .none ((s.setBlk { s.blk with rxOvf := true }).wireReceived b)
      | .stuck => hold s
    else finish .none ((s.putByte .rx b).wireReceived b)) s

/-- TX_READY (R116): holds while the transmit FIFO is empty; the byte leaves on the wire. -/
def execTxReady (s : State) : Out :=
  gated (fun s =>
    if s.blk.tx.avail = 0 then hold s
    else finish .none ((s.takeByte .tx).wireSent s.blk.tx.front)) s

end Sys2Proof.Machine
end

