-- ==== Sys2Proof/Machine/Sync.lean ====
section
/-! DEFINITION. The frame synchronizer and the frame encoder (spec/41_frame_sync.md): SYNC_STEP, ENCODE. -/

namespace Sys2Proof.Machine

/-- The slide on an invalid window (R132): the oldest byte is dropped; `stg[4]` is not written. -/
def slide (x : FiveBytes) : FiveBytes := ⟨x.b1, x.b2, x.b3, x.b4, x.b4⟩

/-- What SYNC_STEP does with the byte it has taken (R130 to R132): append it; on the fifth byte emit a valid
window or slide an invalid one. -/
def syncByte (b : Block) (x : Byte) : Block :=
  let stg := setByteAt b.stg b.stgCount.toNat x
  let n := b.stgCount.toNat + 1
  if n < 5 then { b with stg := stg, stgCount := BitVec.ofNat 3 n }
  else if frameValid stg then { b with stg := stg, stgCount := 0, frm := stg, frmValid := true }
  else { b with stg := slide stg, stgCount := 4 }

/-- SYNC_STEP (R130): holds while a frame waits for DISPATCH or no byte is available. -/
def execSyncStep (s : State) : Out :=
  gated (fun s =>
    if s.blk.frmValid then hold s
    else if s.blk.rx.avail = 0 then hold s
    else if 4 < s.blk.stgCount.toNat then .fault .stagingIndex
    else
      let s1 := s.takeByte .rx
      finish .none (s1.setBlk (syncByte s1.blk s.blk.rx.front))) s

/-- Whether the transmit FIFO lacks room for a frame (R134, R135). -/
def txNoRoom (b : Block) : Bool := b.tx.free.toNat < 5

/-- The state after a frame is put on the transmit FIFO (R134). -/
def State.sendFrame (s : State) (x : FiveBytes) : State :=
  s.setBlk { s.blk with tx := s.blk.tx.pushFrame x }

/-- ENCODE (R134): holds until five slots are free, then puts the four bytes and their checksum. -/
def execEncodeFrame (c p1 p2 p3 : Byte) (s : State) : Out :=
  gated (fun s =>
    if txNoRoom s.blk then hold s
    else finish .none (s.sendFrame (FiveBytes.ofFour c p1 p2 p3))) s

end Sys2Proof.Machine
end

