-- ==== Sys2Proof/Machine/Commands.lean ====
section
/-! DEFINITION. The command dispatcher (spec/45_commands.md): the nine commands, the unknown command, DISPATCH. -/

namespace Sys2Proof.Machine

/-- What `execute` returns (spec/45_commands.md, preamble): the success bit and the response's parameter bytes. -/
structure Reply where
  ok : Bool
  r1 : Byte
  r2 : Byte
  r3 : Byte
deriving DecidableEq, Repr

/-- A frame is handled (R230, R85, R231): hold while a wanted response does not fit, drop `frmValid`, execute,
and queue the response `[{ok, code}, r1, r2, r3, ck]` when the request asked for one. -/
def runCommand (a : Bool) (code : BitVec 7) (execute : State → Reply × State) (s : State) : Out :=
  gated (fun s =>
    if a && txNoRoom s.blk then hold s
    else
      let r := execute (s.setBlk { s.blk with frmValid := false })
      finish .none
        (if a then r.2.sendFrame (FiveBytes.ofFour (commandByte r.1.ok code) r.1.r1 r.1.r2 r.1.r3)
         else r.2)) s

/-- The execution that answers with the request's parameters and touches nothing (R238 to R241). -/
def echo (ok : Bool) (p1 p2 p3 : Byte) (s : State) : Reply × State := (⟨ok, p1, p2, p3⟩, s)

/-- The response to a counter read: the counter, little-endian (R234, R84). -/
def counterReply (n : Word16) : Reply := ⟨true, lowByte n, highByte n, 0⟩

/-- The storage part of a counter reset (R235): 0 is written through the slot, if there is one; the result is
whether that worked. -/
def State.storeZero (s : State) (slot : Slot) : Bool × State :=
  if slot.valid then
    let r := s.nvWrite 2 slot.off.toNat 0
    (r.1 == .ok, r.2)
  else (false, s)

/-- GET_TIMING (R232). -/
def execGetTiming (a : Bool) (_p1 _p2 _p3 : Byte) (s : State) : Out :=
  runCommand a s.cfg.cmdCode.getTiming
    (fun s => (⟨true, (BitVec.ofBool s.blk.mode.toBit).setWidth 8, 0, 0⟩, s)) s

/-- SET_TIMING (R233). -/
def execSetTiming (a : Bool) (p1 p2 p3 : Byte) (s : State) : Out :=
  runCommand a s.cfg.cmdCode.setTiming
    (fun s =>
      if p1 = 0 then (⟨true, p1, p2, p3⟩, s.setBlk { s.blk with mode := .definite })
      else if p1 = 1 then (⟨true, p1, p2, p3⟩, s.setBlk { s.blk with mode := .inverse })
      else (⟨false, p1, p2, p3⟩, s)) s

/-- GET_RAISES (R234). -/
def execGetRaises (a : Bool) (_p1 _p2 _p3 : Byte) (s : State) : Out :=
  runCommand a s.cfg.cmdCode.getRaises (fun s => (counterReply s.blk.raisesNb, s)) s

/-- RESET_RAISES (R235): the counter in the block is 0 whether or not storage took the write. -/
def execResetRaises (a : Bool) (p1 p2 p3 : Byte) (s : State) : Out :=
  runCommand a s.cfg.cmdCode.resetRaises
    (fun s =>
      let r := (s.setBlk { s.blk with raisesNb := 0, raisesDirty := false }).storeZero s.blk.raisesSlot
      (⟨r.1, p1, p2, p3⟩, r.2)) s

/-- GET_LOWERS (R236). -/
def execGetLowers (a : Bool) (_p1 _p2 _p3 : Byte) (s : State) : Out :=
  runCommand a s.cfg.cmdCode.getLowers (fun s => (counterReply s.blk.lowersNb, s)) s

/-- RESET_LOWERS (R237). -/
def execResetLowers (a : Bool) (p1 p2 p3 : Byte) (s : State) : Out :=
  runCommand a s.cfg.cmdCode.resetLowers
    (fun s =>
      let r := (s.setBlk { s.blk with lowersNb := 0, lowersDirty := false }).storeZero s.blk.lowersSlot
      (⟨r.1, p1, p2, p3⟩, r.2)) s

/-- QUERY_FREQ (R238). -/
def execQueryFreq (a : Bool) (p1 p2 p3 : Byte) (s : State) : Out :=
  runCommand a s.cfg.cmdCode.queryFreq (echo true p1 p2 p3) s

/-- QUERY_VOLT (R239). -/
def execQueryVolt (a : Bool) (p1 p2 p3 : Byte) (s : State) : Out :=
  runCommand a s.cfg.cmdCode.queryVolt (echo true p1 p2 p3) s

/-- QUERY_SPECTRUM (R240). -/
def execQuerySpectrum (a : Bool) (p1 p2 p3 : Byte) (s : State) : Out :=
  runCommand a s.cfg.cmdCode.querySpectrum (echo true p1 p2 p3) s

/-- CMD_UNKNOWN (R241): always failure. -/
def execCmdUnknown (a : Bool) (code : BitVec 7) (p1 p2 p3 : Byte) (s : State) : Out :=
  runCommand a code (echo false p1 p2 p3) s

/-- DISPATCH (R230): holds while no frame waits; otherwise the frame in `frm` runs as the command it spells. -/
def execDispatch (s : State) : Out :=
  gated (fun s =>
    if s.blk.frmValid then
      let f := s.blk.frm
      let a := ackBit f.b0
      match s.cfg.cmdCode.lookup (codeField f.b0) with
      | some .getTiming => execGetTiming a f.b1 f.b2 f.b3 s
      | some .setTiming => execSetTiming a f.b1 f.b2 f.b3 s
      | some .getRaises => execGetRaises a f.b1 f.b2 f.b3 s
      | some .resetRaises => execResetRaises a f.b1 f.b2 f.b3 s
      | some .getLowers => execGetLowers a f.b1 f.b2 f.b3 s
      | some .resetLowers => execResetLowers a f.b1 f.b2 f.b3 s
      | some .queryFreq => execQueryFreq a f.b1 f.b2 f.b3 s
      | some .queryVolt => execQueryVolt a f.b1 f.b2 f.b3 s
      | some .querySpectrum => execQuerySpectrum a f.b1 f.b2 f.b3 s
      | none => execCmdUnknown a (codeField f.b0) f.b1 f.b2 f.b3 s
    else hold s) s

end Sys2Proof.Machine
end

