-- ==== Sys2Proof/Machine/Sched.lean ====
section
/-! DEFINITION. The agents and the scheduling of transactions (spec/60_exceptions.md R270 to R272, R282): which
event comes next, which transactions the policy admits, where an instruction is placed to run next, and the torn
storage write of spec/70_reset_and_hazards.md R305. -/

namespace Sys2Proof.Machine

/-- The agents of R270. -/
inductive Agent where
  | init | rxi | recv | tick | pkt | sigout | txi
deriving DecidableEq, Repr

/-- The agent whose step a transaction is (R91); unit-level words and frame commands have none (R92). -/
def agentOf : Instr → Option Agent
  | .rxByte _ => some .rxi
  | .txReady => some .txi
  | .syncStep => some .recv
  | .dispatch => some .pkt
  | .tick => some .tick
  | .persist => some .sigout
  | .init => some .init
  | .put _ _ | .tryput _ _ | .get _ | .encodeFrame _ _ _ _ | .rmsLatch _ | .relayEval _ _ | .alloc _
  | .nvWrite _ _ _ => none
  | .getTiming _ _ _ _ | .setTiming _ _ _ _ | .getRaises _ _ _ _ | .resetRaises _ _ _ _
  | .getLowers _ _ _ _ | .resetLowers _ _ _ _ | .queryFreq _ _ _ _ | .queryVolt _ _ _ _
  | .querySpectrum _ _ _ _ | .cmdUnknown _ _ _ _ _ => none

/-- When an agent's transaction is enabled (the table of R270). -/
def agentEnabled (p : Params) (b : Block) : Agent → Bool
  | .init => !b.initDone
  | .rxi => b.initDone && (p.rxFullPolicy == .drop || b.rx.free != 0)
  | .recv => b.initDone && !b.frmValid && b.rx.avail != 0
  | .tick => b.initDone
  | .pkt => b.initDone && b.frmValid && !(ackBit b.frm.b0 && txNoRoom b)
  | .sigout => b.initDone && (b.raisesDirty || b.lowersDirty)
  | .txi => b.initDone && b.tx.avail != 0

/-- No internal agent is enabled, the first sentence of R282. -/
def internalIdle (p : Params) (b : Block) : Bool :=
  !agentEnabled p b .init && !agentEnabled p b .recv && !agentEnabled p b .pkt && !agentEnabled p b .sigout

/-- A state is quiescent, by the list of R282: initialized, no frame waits, no byte waits, no counter is dirty.
The list is narrower than R282's first sentence (`internalIdle`), which holds too while DISPATCH waits for room in
`tx`; there a frame is not dispatched, so the rule's sentence on traces agrees with the list. DESIGN CHOICE, log
entry 20. safe: no meaning reads it. -/
def quiescent (b : Block) : Bool :=
  b.initDone && !b.frmValid && b.rx.avail == 0 && !b.raisesDirty && !b.lowersDirty

/-- Whether the scheduling policy lets this transaction be the next one (R272): under PRIORITY an internal
agent waits while one before it in the order RECV, PKT, SIGOUT is enabled. Log entry 11. -/
def admitted (s : State) (i : Instr) : Bool :=
  match s.cfg.sched with
  | .free => true
  | .priority =>
    match agentOf i with
    | some .pkt => !agentEnabled s.cfg s.blk .recv
    | some .sigout => !agentEnabled s.cfg s.blk .recv && !agentEnabled s.cfg s.blk .pkt
    | some .init | some .rxi | some .recv | some .tick | some .txi | none => true

/-- The event that comes next. With none prepared, the block's own first step INIT runs before initialization
(R271), and afterwards the event is a free value. DESIGN CHOICE, log entry 3. -/
def fetch (s : State) : Event × State :=
  match s.sched with
  | e :: es => (e, { s with sched := es })
  | [] =>
    if s.blk.initDone then
      (Config.freeEvent s.env.drawNo, s.setEnv { s.env with drawNo := s.env.drawNo + 1 })
    else (.word initWord, s)

/-- A word that spells no operation (R99): the mark is set, nothing else changes. -/
def markRefused (s : State) : State := { s with refused := true, result := .none }

/-- The width and offset of the NV_WRITE a counter reset makes, if it does not hold and has a slot (R235). -/
def resetTarget (b : Block) (a : Bool) (slot : Slot) : Option (Nat × Nat) :=
  if (a && txNoRoom b) || !slot.valid then none else some (2, slot.off.toNat)

/-- The width and offset of the NV_WRITE a transaction would make in this state, if any (R203, R215, R235,
R237). -/
def writeTarget (s : State) (i : Instr) : Option (Nat × Nat) :=
  if !s.blk.initDone then none
  else
    match i with
    | .nvWrite w off _ => some (w.toNat, off.toNat)
    | .persist =>
      if s.blk.raisesDirty then some (2, s.blk.raisesSlot.off.toNat)
      else if s.blk.lowersDirty then some (2, s.blk.lowersSlot.off.toNat)
      else none
    | .dispatch =>
      if s.blk.frmValid then
        match s.cfg.cmdCode.lookup (codeField s.blk.frm.b0) with
        | some .resetRaises => resetTarget s.blk (ackBit s.blk.frm.b0) s.blk.raisesSlot
        | some .resetLowers => resetTarget s.blk (ackBit s.blk.frm.b0) s.blk.lowersSlot
        | some .getTiming | some .setTiming | some .getRaises | some .getLowers | some .queryFreq
        | some .queryVolt | some .querySpectrum | none => none
      else none
    | .resetRaises a _ _ _ => resetTarget s.blk a s.blk.raisesSlot
    | .resetLowers a _ _ _ => resetTarget s.blk a s.blk.lowersSlot
    | .put _ _ | .tryput _ _ | .get _ | .rxByte _ | .txReady | .syncStep | .encodeFrame _ _ _ _ | .tick
    | .rmsLatch _ | .relayEval _ _ | .alloc _ | .init | .getTiming _ _ _ _ | .setTiming _ _ _ _
    | .getRaises _ _ _ _ | .getLowers _ _ _ _ | .queryFreq _ _ _ _ | .queryVolt _ _ _ _
    | .querySpectrum _ _ _ _ | .cmdUnknown _ _ _ _ _ => none

/-- A reset that falls inside the storage write of a transaction (R305): every byte of the unit being written
becomes any byte, and the block resets. A transaction that makes no write that passes its checks cannot be torn:
there the reset falls before it. Log entry 12. -/
def State.tornReset (s : State) (i : Instr) : State :=
  match writeTarget s i with
  | some (w, off) =>
    if nvCheck s.cfg w off = none then (s.scrambleUnit (unitBase s.cfg off)).blockReset else s.blockReset
  | none => s.blockReset

/-- A transaction word is the next event; every transaction but INIT runs only once the block is initialized
(R271), so that is set. Log entry 3. -/
def State.placeWord (s : State) (w : TxWord) : State :=
  { s with
    sched := .word w :: s.sched
    blk := { s.blk with initDone := if w = initWord then s.blk.initDone else true } }

/-- A frame stands in the handoff register and DISPATCH is the next event (R230). Log entry 3. -/
def State.placeFrame (s : State) (f : FiveBytes) : State :=
  { s with
    sched := .word dispatchWord :: s.sched
    blk := { s.blk with initDone := true, frm := f, frmValid := true } }

end Sys2Proof.Machine
end

