-- ==== Sys2Proof/Machine/Dispatch.lean ====
section
/-! DEFINITION. One arm for each instruction. -/

namespace Sys2Proof.Machine

/-- The meaning of an instruction. -/
def exec (i : Instr) (s : State) : Host.Outcome State Fault Refusal :=
  match i with
  | .put f b => Sys2Proof.Machine.execPut f b s
  | .tryput f b => Sys2Proof.Machine.execTryput f b s
  | .get f => Sys2Proof.Machine.execGet f s
  | .rxByte b => Sys2Proof.Machine.execRxByte b s
  | .txReady => Sys2Proof.Machine.execTxReady s
  | .syncStep => Sys2Proof.Machine.execSyncStep s
  | .dispatch => Sys2Proof.Machine.execDispatch s
  | .encodeFrame c p1 p2 p3 => Sys2Proof.Machine.execEncodeFrame c p1 p2 p3 s
  | .tick => Sys2Proof.Machine.execTick s
  | .rmsLatch c => Sys2Proof.Machine.execRmsLatch c s
  | .relayEval c m => Sys2Proof.Machine.execRelayEval c m s
  | .alloc size => Sys2Proof.Machine.execAlloc size s
  | .nvWrite width off val => Sys2Proof.Machine.execNvWrite width off val s
  | .persist => Sys2Proof.Machine.execPersist s
  | .init => Sys2Proof.Machine.execInit s
  | .getTiming a p1 p2 p3 => Sys2Proof.Machine.execGetTiming a p1 p2 p3 s
  | .setTiming a p1 p2 p3 => Sys2Proof.Machine.execSetTiming a p1 p2 p3 s
  | .getRaises a p1 p2 p3 => Sys2Proof.Machine.execGetRaises a p1 p2 p3 s
  | .resetRaises a p1 p2 p3 => Sys2Proof.Machine.execResetRaises a p1 p2 p3 s
  | .getLowers a p1 p2 p3 => Sys2Proof.Machine.execGetLowers a p1 p2 p3 s
  | .resetLowers a p1 p2 p3 => Sys2Proof.Machine.execResetLowers a p1 p2 p3 s
  | .queryFreq a p1 p2 p3 => Sys2Proof.Machine.execQueryFreq a p1 p2 p3 s
  | .queryVolt a p1 p2 p3 => Sys2Proof.Machine.execQueryVolt a p1 p2 p3 s
  | .querySpectrum a p1 p2 p3 => Sys2Proof.Machine.execQuerySpectrum a p1 p2 p3 s
  | .cmdUnknown a code p1 p2 p3 => Sys2Proof.Machine.execCmdUnknown a code p1 p2 p3 s

end Sys2Proof.Machine
end

