-- ==== Sys2Proof/Machine/Step.lean ====
section
/-! DEFINITION. One step of the machine: the next event happens (spec/60_exceptions.md R272;
spec/70_reset_and_hazards.md R290, R305). -/

namespace Sys2Proof.Machine

/-- One step. A word that decodes and is admitted runs; one that is not admitted holds (R272); one that spells
no operation sets `refused` (R99); a reset is no transaction (R290, R305). -/
def step (s : State) : Host.Outcome State Fault Refusal :=
  let f := fetch s
  match f.1 with
  | .word w =>
    match decodeWord w with
    | .ok i => if admitted f.2 i then exec i f.2 else hold f.2
    | .error _ => .next (markRefused f.2)
  | .reset => .next f.2.blockReset
  | .torn w =>
    match decodeWord w with
    | .ok i => .next (if admitted f.2 i then f.2.tornReset i else f.2.blockReset)
    | .error _ => .next f.2.blockReset

/-- `s` with one instruction of spec/opcode_table.json placed where the next step takes it: a transaction word
as the next event, a frame in the handoff register with DISPATCH as the next event. Log entry 3. -/
def State.withFetchWord (s : State) (nbits w : Nat) : State :=
  if nbits = 64 then s.placeWord (BitVec.ofNat 64 w)
  else if nbits = 40 then s.placeFrame (FiveBytes.ofBits (BitVec.ofNat 40 w))
  else s

end Sys2Proof.Machine
end

