-- ==== Sys2Proof/Safety.lean ====
section
/-! DEFINITION. The terms the statements use: the invariants the rules state of the block, what a transaction
leaves alone, the bytes a FIFO holds as a queue, and runs of transactions. -/

namespace Sys2Proof.Machine

/-! ## Invariants -/

/-- The invariants of spec/10_state.md R23 on one FIFO: `avail + free = 256` and `tail = (head + avail) mod 256`. -/
def Fifo.wf (f : Fifo) : Prop :=
  f.avail.toNat + f.free.toNat = 256 ∧ f.tail.toNat = (f.head.toNat + f.avail.toNat) % 256

/-- One channel's registers: each request flag is up exactly in its tripped state (spec/43_relay.md R183), the
timers are 0 in NORMAL (R176, R177, R180), and `rms[c]` is 0..32767 (spec/10_state.md R29). -/
def ChanRegs.wf (r : ChanRegs) : Prop :=
  (r.raiseReq = true ↔ r.st = .tripRaise) ∧ (r.lowerReq = true ↔ r.st = .tripLower) ∧
    (r.st = .normal → r.timerCount = 0 ∧ r.timerDelay = 0) ∧ r.rms.toNat ≤ 32767

/-- The alarm of a channel is the band verdict on its latched RMS (spec/42_sampling_rms.md R154). -/
def alarmAgrees (p : Params) (r : ChanRegs) : Prop :=
  r.voltageAlarm = true ↔ (r.rms.toInt < low p ∨ high p < r.rms.toInt)

/-- The counters' slots once INIT has run (spec/70_reset_and_hazards.md R292): offsets 0 and 2, or none when
there is no storage. -/
def slotsBound (p : Params) (b : Block) : Prop :=
  if p.nvsSize = 0 then b.raisesSlot = ⟨0, false⟩ ∧ b.lowersSlot = ⟨0, false⟩
  else b.raisesSlot = ⟨0, true⟩ ∧ b.lowersSlot = ⟨2, true⟩

/-- The invariant of the machine. -/
structure BlockInv (s : State) : Prop where
  /-- The parameters meet R6. -/
  params : s.cfg.wf
  /-- Storage is in its canonical form. -/
  memory : Memory.wf s.nv
  /-- R23. -/
  rx : s.blk.rx.wf
  /-- R23. -/
  tx : s.blk.tx.wf
  /-- R25: the fill count is 0..4. -/
  staging : s.blk.stgCount.toNat ≤ 4
  /-- The synchronizer hands on only valid frames (spec/45_commands.md R230). -/
  frame : s.blk.frmValid = true → frameValid s.blk.frm = true
  /-- R183, R29, on every channel. -/
  chan : ∀ c, (s.blk.chan c).wf
  /-- R154, once the channels have been latched. -/
  alarm : s.blk.rmsValid = true → ∀ c, alarmAgrees s.cfg (s.blk.chan c)
  /-- R38: one bit per storage byte. -/
  bitmap : s.blk.fsm.length = s.cfg.nvsSize
  /-- R40: ALLOC and NV_WRITE never return FULL. -/
  status : s.blk.nvStatus ≠ .full
  /-- A dirty raise counter has a slot (spec/44_nvstore.md R215). -/
  raisesDirty : s.blk.raisesDirty = true → s.blk.raisesSlot.valid = true
  /-- A dirty lower counter has a slot (R215). -/
  lowersDirty : s.blk.lowersDirty = true → s.blk.lowersSlot.valid = true
  /-- R271: until INIT runs, nothing but INIT has happened since the reset. -/
  boot : s.blk.initDone = false → s.blk = Block.reset s.cfg
  /-- R292: INIT binds the counters to the same offsets every time. -/
  slots : s.blk.initDone = true → slotsBound s.cfg s.blk

/-! ## What a transaction leaves alone -/

/-- Everything outside the block registers and the recorded output is as it was: the parameters, every storage
byte, the mark, the wire, the environment's answers and events. -/
def RestSame (s t : State) : Prop :=
  t.cfg = s.cfg ∧ (∀ a, Memory.read t.nv a = Memory.read s.nv a) ∧ t.refused = s.refused ∧
    t.wireIn = s.wireIn ∧ t.wireOut = s.wireOut ∧ t.env = s.env ∧ t.sched = s.sched

/-- As `RestSame`, but storage and the environment's answers may differ. -/
def OutsideSame (s t : State) : Prop :=
  t.cfg = s.cfg ∧ t.refused = s.refused ∧ t.wireIn = s.wireIn ∧ t.wireOut = s.wireOut ∧ t.sched = s.sched

/-- Every storage byte outside offsets `off..off+n-1` reads as before. -/
def StorageSameOutside (s t : State) (off n : Nat) : Prop :=
  ∀ a, (a < s.cfg.nvsBase + off ∨ s.cfg.nvsBase + off + n ≤ a) → Memory.read t.nv a = Memory.read s.nv a

/-- The transaction holds: nothing changes but the recorded output (spec/00_scope.md R11). -/
def Holds (i : Instr) (s : State) : Prop := exec i s = .next { s with result := .held }

/-- A transaction may run: INIT has, and a response, if one is wanted, fits (R271, R230). -/
def CommandReady (a : Bool) (s : State) : Prop :=
  s.blk.initDone = true ∧ (a = true → 5 ≤ s.blk.tx.free.toNat)

/-- The two device calls of one NV_WRITE answer ok (spec/00_scope.md R10). -/
def DeviceOk (s : State) : Prop := s.env.drawDev.1 = true ∧ s.env.drawDev.2.drawDev.1 = true

/-! ## Words -/

/-- What R90, R91 and R95 of spec/30_encoding.md ask of a word that spells an operation, by the values of its
fields: OP, SEL, ADDR, DATA. -/
def spellsOperation (w : TxWord) : Prop :=
  let op := (opField w).toNat
  let sel := (selField w).toNat
  let addr := (addrField w).toNat
  let data := (dataField w).toNat
  (op = 0x01 ∨ op = 0x02) ∧ sel ≤ 1 ∧ addr = 0 ∧ data < 256 ∨
  op = 0x03 ∧ sel ≤ 1 ∧ addr = 0 ∧ data = 0 ∨
  op = 0x10 ∧ sel = 0 ∧ addr = 0 ∧ data < 256 ∨
  (op = 0x11 ∨ op = 0x12 ∨ op = 0x13 ∨ op = 0x20 ∨ op = 0x32 ∨ op = 0x3F) ∧ sel = 0 ∧ addr = 0 ∧ data = 0 ∨
  op = 0x14 ∧ sel = 0 ∧ addr = 0 ∨
  op = 0x21 ∧ sel < 3 ∧ addr = 0 ∧ data = 0 ∨
  op = 0x22 ∧ sel < 3 ∧ addr ≤ 1 ∧ data = 0 ∨
  op = 0x30 ∧ addr = 0 ∧ data = 0 ∨
  op = 0x31 ∧ (sel = 1 → data < 256) ∧ (sel = 2 → data < 65536)

/-! ## Storage operands -/

/-- NV_WRITE passes its checks (spec/44_nvstore.md R203). -/
def WriteAccepted (p : Params) (w off : Nat) : Prop :=
  (w = 1 ∨ w = 2 ∨ w = 4) ∧ off % w = 0 ∧ off + w ≤ p.nvsSize

/-- Bitmap bits `a..a+n-1` exist and are 0 (R200). -/
def FreeAt (fsm : List Bool) (n a : Nat) : Prop := ∀ i < n, fsm[a + i]? = some false

/-! ## FIFO contents as a queue -/

/-- The bytes a FIFO holds, oldest first: `avail` bytes from `head` on, modulo 256. -/
def Fifo.contents (f : Fifo) : List Byte :=
  (List.range f.avail.toNat).map fun i => f.buf[(f.head.toNat + i) % 256]'(Nat.mod_lt _ (by decide))

/-- The five bytes of a frame in wire order (spec/30_encoding.md R80). -/
def frameBytes (x : FiveBytes) : List Byte := [x.b0, x.b1, x.b2, x.b3, x.b4]

/-! ## Runs -/

/-- Transactions one after another, stopping at the first fault or refusal. -/
def execAll : List Instr → State → Out
  | [], s => .next s
  | i :: is, s =>
    match exec i s with
    | .next t => execAll is t
    | .fault r => .fault r
    | .refused r => .refused r

/-- The acknowledge bit and the code of a frame command; no other instruction has them (R82, R86). -/
def commandHead (k : CmdCodes) : Instr → Option (Bool × BitVec 7)
  | .getTiming a _ _ _ => some (a, k.getTiming)
  | .setTiming a _ _ _ => some (a, k.setTiming)
  | .getRaises a _ _ _ => some (a, k.getRaises)
  | .resetRaises a _ _ _ => some (a, k.resetRaises)
  | .getLowers a _ _ _ => some (a, k.getLowers)
  | .resetLowers a _ _ _ => some (a, k.resetLowers)
  | .queryFreq a _ _ _ => some (a, k.queryFreq)
  | .queryVolt a _ _ _ => some (a, k.queryVolt)
  | .querySpectrum a _ _ _ => some (a, k.querySpectrum)
  | .cmdUnknown a code _ _ _ => some (a, code)
  | .put _ _ | .tryput _ _ | .get _ | .rxByte _ | .txReady | .syncStep | .dispatch
  | .encodeFrame _ _ _ _ | .tick | .rmsLatch _ | .relayEval _ _ | .alloc _ | .nvWrite _ _ _
  | .persist | .init => none

end Sys2Proof.Machine
end

