-- ==== Sys2Proof/Certificates/Slice0/Obligations.lean ====
section
/-! DEFINITION. The statements for the provers. Each docstring names the rule or section of spec/ it rests on, and
the assumption log's entry where a clause is the model's own choice. -/

open Sys2Proof Sys2Proof.Machine

/-! ## The machine as a whole -/

/-- A step runs the instruction the next word decodes to (log 3): `step` is `exec` of it on the state whose
`sched` has moved on, or a hold where the scheduling policy does not admit it (log 11). With nothing prepared,
the first step is INIT (log 3). -/
def Obligations.StepRunsTheNextWord : Prop :=
  (∀ (s : State) (w : TxWord) (es : List Event) (i : Instr),
    s.sched = .word w :: es → decodeWord w = .ok i →
      (admitted { s with sched := es } i = true → step s = exec i { s with sched := es }) ∧
      (admitted { s with sched := es } i = false → step s = .next { s with sched := es, result := .held })) ∧
  ∀ s : State, s.sched = [] → s.blk.initDone = false → step s = exec .init s

/-- 45_commands.md R230: DISPATCH holds while no frame waits, and otherwise does what the command its frame
spells does; it completes when a wanted response fits. -/
def Obligations.DispatchRunsTheFrameItHolds : Prop :=
  ∀ s : State, s.blk.initDone = true →
    (s.blk.frmValid = false → Holds .dispatch s) ∧
    (s.blk.frmValid = true → exec .dispatch s = exec (decodeFrame s.cfg.cmdCode s.blk.frm) s) ∧
    (s.blk.frmValid = true → CommandReady (ackBit s.blk.frm.b0) s →
      ∃ t, exec .dispatch s = .next t ∧ t.blk.frmValid = false ∧ t.blk.frm = s.blk.frm ∧ t.result = .none ∧
        OutsideSame s t)

/-- 30_encoding.md R95, R99: a word is rejected exactly when its fields spell no operation; it then changes no
block state and sets `refused`; no transaction clears the mark. -/
def Obligations.WordsThatSpellNothingOnlySetTheMark : Prop :=
  (∀ w : TxWord, (∃ e, decodeWord w = .error e) ↔ ¬ spellsOperation w) ∧
  (∀ (s : State) (w : TxWord) (es : List Event) (e : DecodeError),
    s.sched = .word w :: es → decodeWord w = .error e →
      step s = .next { s with sched := es, refused := true, result := .none }) ∧
  ∀ (i : Instr) (s t : State), exec i s = .next t → t.refused = s.refused

/-- 60_exceptions.md R271: while `initDone = 0` every transaction other than INIT holds, unit-level words and
frame commands too; once it is 1, INIT holds. -/
def Obligations.NothingRunsBeforeInitAndInitRunsOnce : Prop :=
  (∀ (i : Instr) (s : State), s.blk.initDone = false → i ≠ .init → Holds i s) ∧
  (∀ s : State, s.blk.initDone = true → Holds .init s) ∧
  ∀ (i : Instr) (s t : State), exec i s = .next t → s.blk.initDone = true → t.blk.initDone = true

/-- Decoding the word or frame of a well-formed instruction gives the instruction back, for every operand and
every injective code table (30_encoding.md sections 1 to 4). -/
def Obligations.DecodeOfEncodeIsTheInstruction : Prop :=
  ∀ (k : CmdCodes) (i : Instr), k.wf → i.wellFormed k = true → decode k (encode k i) = .ok i

/-- Every word that decodes is the one word of its instruction, and every valid frame the one frame of its
command: no two words mean the same. -/
def Obligations.EncodeOfDecodeIsTheWord : Prop :=
  (∀ (k : CmdCodes) (w : TxWord) (i : Instr), decodeWord w = .ok i → encode k i = .word w) ∧
  ∀ (k : CmdCodes) (f : FiveBytes), frameValid f = true → encode k (decodeFrame k f) = .frame f.toBits

/-- Words and frames written out from 95_test_vectors.md section 2.1 and section 2.9 decode to what they stand
for. -/
def Obligations.SpecWordsDecode : Prop :=
  decodeTableWord 64 0x0101000000000041 = some (.put .tx 0x41) ∧
  decodeTableWord 64 0x0300000000000000 = some (.get .rx) ∧
  decodeTableWord 64 0x1400000083020100 = some (.encodeFrame 0x83 0x02 0x01 0x00) ∧
  decodeTableWord 64 0x2202000100000000 = some (.relayEval .c2 .inverse) ∧
  decodeTableWord 64 0x310200020000BEEF = some (.nvWrite 2 2 0xBEEF) ∧
  decodeTableWord 64 0x3F00000000000000 = some .init ∧
  decodeTableWord 40 0x8201000083 = some (.setTiming true 0x01 0 0) ∧
  decodeTableWord 40 0x0A1122330A = some (.cmdUnknown false 0x0A 0x11 0x22 0x33) ∧
  decodeTableWord 64 0x0102000000000041 = none ∧
  decodeTableWord 64 0x2000000000000001 = none

/-- The state right after reset meets the invariant. The parameter values there are log 1, the storage log 8, and
the zero contents of `rx.buf`, `tx.buf`, `stg` and `frm`, which the invariant's `boot` part names through
`Block.reset`, are log 7: these are the model's choices. -/
def Obligations.ResetMeetsTheInvariant : Prop := BlockInv State.reset

/-- The invariant is inductive: from every state that meets it, reached or not, every step keeps it. Its parts
are 10_state.md R23, R25, R29, R38, R40, 42_sampling_rms.md R154, 43_relay.md R183, 44_nvstore.md R215,
45_commands.md R230, 60_exceptions.md R271, 70_reset_and_hazards.md R292, and the canonical form of storage. Its
`boot` part says that until INIT the registers are those of `Block.reset`; of these, the zero contents of `rx.buf`,
`tx.buf`, `stg` and `frm` are the model's choice (log 7). -/
def Obligations.EveryStepKeepsTheInvariant : Prop :=
  ∀ s t : State, BlockInv s → step s = .next t → BlockInv t

/-- 60_exceptions.md R263: the block has no fault. Under the invariant the model neither faults nor refuses: every
step, whatever event comes, answers a next state. -/
def Obligations.MachineUnderInvariantNeverStops : Prop :=
  ∀ s : State, BlockInv s → ∃ t, step s = .next t

/-- 00_scope.md R6: the parameters are constants of the instance. -/
def Obligations.ParametersNeverChange : Prop :=
  ∀ s t : State, step s = .next t → t.cfg = s.cfg

/-! ## Who writes what -/

/-- 10_state.md R34: the timing mode changes only by SET_TIMING, alone or as the frame DISPATCH handles, and then
to the mode its `p1` names. -/
def Obligations.ModeHasOneWriter : Prop :=
  ∀ (i : Instr) (s t : State), exec i s = .next t → t.blk.mode ≠ s.blk.mode →
    (∃ a p1 p2 p3, i = .setTiming a p1 p2 p3 ∧ p1 = (if t.blk.mode = .definite then 0 else 1)) ∨
    (i = .dispatch ∧ s.blk.frmValid = true ∧
      ∃ a p1 p2 p3, decodeFrame s.cfg.cmdCode s.blk.frm = .setTiming a p1 p2 p3 ∧
        p1 = (if t.blk.mode = .definite then 0 else 1))

/-- 10_state.md R24: `rx.ovf` is 0 after a reset; RX_BYTE sets it exactly when it discards a byte for want of
room; no transaction clears it. -/
def Obligations.OverflowFlagIsSticky : Prop :=
  (∀ s : State, s.blockReset.blk.rxOvf = false) ∧
  (∀ (i : Instr) (s t : State), exec i s = .next t → s.blk.rxOvf = true → t.blk.rxOvf = true) ∧
  (∀ (i : Instr) (s t : State), exec i s = .next t → s.blk.rxOvf = false → t.blk.rxOvf = true →
    ∃ b, i = .rxByte b ∧ s.blk.initDone = true ∧ s.blk.rx.free = 0 ∧ s.cfg.rxFullPolicy = .drop) ∧
  ∀ (b : Byte) (s : State), s.blk.initDone = true → s.blk.rx.free = 0 → s.cfg.rxFullPolicy = .drop →
    ∃ t, exec (.rxByte b) s = .next t ∧ t.blk.rxOvf = true ∧ t.blk.rx = s.blk.rx

/-- 10_state.md R38: ALLOC and INIT set bitmap bits, no transaction clears one. -/
def Obligations.BitmapBitsAreNeverCleared : Prop :=
  ∀ (i : Instr) (s t : State), exec i s = .next t →
    t.blk.fsm.length = s.blk.fsm.length ∧
    (∀ n : Nat, s.blk.fsm[n]? = some true → t.blk.fsm[n]? = some true) ∧
    (t.blk.fsm ≠ s.blk.fsm → (∃ size, i = .alloc size) ∨ i = .init)

/-- 10_state.md R39 and 44_nvstore.md R209 item 1: a storage byte changes only inside the erase unit of the one
NV_WRITE that the transaction makes, and only if that write passes its checks. -/
def Obligations.StorageChangesOnlyInsideOneCheckedWrite : Prop :=
  ∀ (i : Instr) (s t : State) (a : Nat), exec i s = .next t →
    Memory.read t.nv a ≠ Memory.read s.nv a →
      ∃ w off, writeTarget s i = some (w, off) ∧ WriteAccepted s.cfg w off ∧
        s.cfg.nvsBase + unitBase s.cfg off ≤ a ∧ a < s.cfg.nvsBase + unitBase s.cfg off + s.cfg.eu

/-- 10_state.md R36: only INIT writes the counters' slots. -/
def Obligations.SlotsAreBoundOnlyByInit : Prop :=
  ∀ (i : Instr) (s t : State), exec i s = .next t → i ≠ .init →
    t.blk.raisesSlot = s.blk.raisesSlot ∧ t.blk.lowersSlot = s.blk.lowersSlot

/-- 10_state.md R27, R28, R29: only TICK writes a sample window, the window position and `rmsValid`; only TICK and
RMS_LATCH write a latched RMS and its alarm. -/
def Obligations.WindowsMoveOnlyOnTick : Prop :=
  ∀ (i : Instr) (s t : State), exec i s = .next t → i ≠ .tick →
    t.blk.pos = s.blk.pos ∧ t.blk.rmsValid = s.blk.rmsValid ∧
    ∀ c, (t.blk.chan c).win = (s.blk.chan c).win ∧
      (i ≠ .rmsLatch c → (t.blk.chan c).rms = (s.blk.chan c).rms ∧
        (t.blk.chan c).voltageAlarm = (s.blk.chan c).voltageAlarm)

/-- 10_state.md R31, R32, R33: a channel's relay state, requests and timers move only by an evaluation of that
channel, in RELAY_EVAL or in TICK. -/
def Obligations.RelayRegistersMoveOnlyOnEvaluation : Prop :=
  ∀ (i : Instr) (s t : State) (c : Chan), exec i s = .next t → i ≠ .tick → (∀ m, i ≠ .relayEval c m) →
    (t.blk.chan c).st = (s.blk.chan c).st ∧ (t.blk.chan c).raiseReq = (s.blk.chan c).raiseReq ∧
    (t.blk.chan c).lowerReq = (s.blk.chan c).lowerReq ∧
    (t.blk.chan c).timerCount = (s.blk.chan c).timerCount ∧
    (t.blk.chan c).timerDelay = (s.blk.chan c).timerDelay

/-- 10_state.md R35: the raise counter is written only by a trip (in RELAY_EVAL or TICK), by RESET_RAISES (alone or
in DISPATCH) and by INIT; the lower counter likewise. -/
def Obligations.CountersMoveOnlyByTheirWriters : Prop :=
  ∀ (i : Instr) (s t : State), exec i s = .next t → i ≠ .tick → (∀ c m, i ≠ .relayEval c m) → i ≠ .init →
    (t.blk.raisesNb = s.blk.raisesNb ∨
      t.blk.raisesNb = 0 ∧ ((∃ a p1 p2 p3, i = .resetRaises a p1 p2 p3) ∨
        i = .dispatch ∧ ∃ a p1 p2 p3, decodeFrame s.cfg.cmdCode s.blk.frm = .resetRaises a p1 p2 p3)) ∧
    (t.blk.lowersNb = s.blk.lowersNb ∨
      t.blk.lowersNb = 0 ∧ ((∃ a p1 p2 p3, i = .resetLowers a p1 p2 p3) ∨
        i = .dispatch ∧ ∃ a p1 p2 p3, decodeFrame s.cfg.cmdCode s.blk.frm = .resetLowers a p1 p2 p3))

/-! ## FIFO -/

/-- 40_fifo.md R110, pseudocode, encoding and hold: with a free slot PUT writes the byte at `tail`, advances
`tail` modulo 256 and moves one unit from `free` to `avail`; without one it holds. -/
def Obligations.PutStoresOneByteOrHolds : Prop :=
  ∀ (f : FifoSel) (b : Byte) (s : State), s.blk.initDone = true →
    (∀ k, encode k (.put f b) = .word (txWord 0x01 f.toSel 0 (b.setWidth 32))) ∧
    ((s.blk.fifo f).free = 0 → Holds (.put f b) s) ∧
    ((s.blk.fifo f).free ≠ 0 → ∃ t, exec (.put f b) s = .next t ∧
      t.blk = s.blk.setFifo f
        { buf := (s.blk.fifo f).buf.set (s.blk.fifo f).tail.toNat b
          head := (s.blk.fifo f).head
          tail := (s.blk.fifo f).tail + 1
          avail := (s.blk.fifo f).avail + 1
          free := (s.blk.fifo f).free - 1 } ∧
      t.result = .none ∧ RestSame s t)

/-- 40_fifo.md R111, pseudocode and encoding: TRYPUT does the same put and returns OK; on a full FIFO it returns
FULL and nothing is written. -/
def Obligations.TryputReturnsOkOrFull : Prop :=
  ∀ (f : FifoSel) (b : Byte) (s : State), s.blk.initDone = true →
    (∀ k, encode k (.tryput f b) = .word (txWord 0x02 f.toSel 0 (b.setWidth 32))) ∧
    ((s.blk.fifo f).free = 0 → ∃ t, exec (.tryput f b) s = .next t ∧ t.blk = s.blk ∧
      t.result = .status .full ∧ RestSame s t) ∧
    ((s.blk.fifo f).free ≠ 0 → ∃ t, exec (.tryput f b) s = .next t ∧
      t.blk = s.blk.setFifo f
        { buf := (s.blk.fifo f).buf.set (s.blk.fifo f).tail.toNat b
          head := (s.blk.fifo f).head
          tail := (s.blk.fifo f).tail + 1
          avail := (s.blk.fifo f).avail + 1
          free := (s.blk.fifo f).free - 1 } ∧
      t.result = .status .ok ∧ RestSame s t)

/-- 40_fifo.md R113, pseudocode, encoding and hold: GET returns the byte at `head`, advances `head` modulo 256 and
moves one unit from `avail` to `free`; on an empty FIFO it holds. -/
def Obligations.GetReturnsTheOldestByteOrHolds : Prop :=
  ∀ (f : FifoSel) (s : State), s.blk.initDone = true →
    (∀ k, encode k (.get f) = .word (txWord 0x03 f.toSel 0 0)) ∧
    ((s.blk.fifo f).avail = 0 → Holds (.get f) s) ∧
    ((s.blk.fifo f).avail ≠ 0 → ∃ t, exec (.get f) s = .next t ∧
      t.blk = s.blk.setFifo f
        { buf := (s.blk.fifo f).buf
          head := (s.blk.fifo f).head + 1
          tail := (s.blk.fifo f).tail
          avail := (s.blk.fifo f).avail - 1
          free := (s.blk.fifo f).free + 1 } ∧
      t.result = .byte ((s.blk.fifo f).buf[(s.blk.fifo f).head.toNat]'(s.blk.fifo f).head.isLt) ∧ RestSame s t)

/-- 40_fifo.md R114, R115: with room RX_BYTE puts the byte on `rx`; without room DROP discards it and sets
`rx.ovf`, STUCK holds. The byte is recorded on the incoming wire stream when it is delivered (log 10). -/
def Obligations.RxByteFollowsTheFullPolicy : Prop :=
  ∀ (b : Byte) (s : State), s.blk.initDone = true →
    (∀ k, encode k (.rxByte b) = .word (txWord 0x10 0 0 (b.setWidth 32))) ∧
    (s.blk.rx.free ≠ 0 → ∃ t, exec (.rxByte b) s = .next t ∧
      t.blk = { s.blk with rx :=
        { buf := s.blk.rx.buf.set s.blk.rx.tail.toNat b
          head := s.blk.rx.head
          tail := s.blk.rx.tail + 1
          avail := s.blk.rx.avail + 1
          free := s.blk.rx.free - 1 } } ∧
      t.result = .none ∧ t.wireIn = s.wireIn ++ [b] ∧ RestSame { s with wireIn := t.wireIn } t) ∧
    (s.blk.rx.free = 0 → s.cfg.rxFullPolicy = .drop → ∃ t, exec (.rxByte b) s = .next t ∧
      t.blk = { s.blk with rxOvf := true } ∧ t.result = .none ∧ t.wireIn = s.wireIn ++ [b] ∧
      RestSame { s with wireIn := t.wireIn } t) ∧
    (s.blk.rx.free = 0 → s.cfg.rxFullPolicy = .stuck → Holds (.rxByte b) s)

/-- 40_fifo.md R116, pseudocode, encoding and hold: TX_READY takes the oldest byte of `tx` and sends it; it holds
while `tx` is empty. -/
def Obligations.TxReadySendsTheOldestByteOrHolds : Prop :=
  ∀ s : State, s.blk.initDone = true →
    (∀ k, encode k .txReady = .word (txWord 0x11 0 0 0)) ∧
    (s.blk.tx.avail = 0 → Holds .txReady s) ∧
    (s.blk.tx.avail ≠ 0 → ∃ t, exec .txReady s = .next t ∧
      t.blk = { s.blk with tx :=
        { buf := s.blk.tx.buf
          head := s.blk.tx.head + 1
          tail := s.blk.tx.tail
          avail := s.blk.tx.avail - 1
          free := s.blk.tx.free + 1 } } ∧
      t.result = .none ∧
      t.wireOut = s.wireOut ++ [s.blk.tx.buf[s.blk.tx.head.toNat]'s.blk.tx.head.isLt] ∧
      RestSame { s with wireOut := t.wireOut } t)

/-- 40_fifo.md R113, corner cases, and R117: under the invariants of R23 a FIFO is a queue of at most 256 bytes. A
put appends, a GET takes the first byte, the other instance is left alone, and the invariants stay. -/
def Obligations.FifoIsAQueue : Prop :=
  ∀ (f : FifoSel) (s : State), s.blk.initDone = true → (s.blk.fifo f).wf →
    (s.blk.fifo f).contents.length ≤ 256 ∧
    (∀ b, (s.blk.fifo f).contents.length < 256 → ∃ t, exec (.put f b) s = .next t ∧ (t.blk.fifo f).wf ∧
      (t.blk.fifo f).contents = (s.blk.fifo f).contents ++ [b] ∧
      ∀ g, g ≠ f → t.blk.fifo g = s.blk.fifo g) ∧
    (∀ b, (s.blk.fifo f).contents.length = 256 → Holds (.put f b) s) ∧
    (∀ b bs, (s.blk.fifo f).contents = b :: bs → ∃ t, exec (.get f) s = .next t ∧ (t.blk.fifo f).wf ∧
      t.result = .byte b ∧ (t.blk.fifo f).contents = bs ∧ ∀ g, g ≠ f → t.blk.fifo g = s.blk.fifo g) ∧
    ((s.blk.fifo f).contents = [] → Holds (.get f) s)

/-! ## Synchronizer and encoder -/

/-- 41_frame_sync.md R130 to R132: SYNC_STEP takes one byte of `rx` into the staging buffer; the fifth byte emits
a valid window into `frm` and restarts, or slides an invalid one by one byte; it holds while a frame waits or no
byte is available. -/
def Obligations.SyncStepAppendsEmitsOrSlides : Prop :=
  ∀ s : State, s.blk.initDone = true →
    let x := s.blk.rx.buf[s.blk.rx.head.toNat]'s.blk.rx.head.isLt
    let rx : Fifo :=
      { buf := s.blk.rx.buf
        head := s.blk.rx.head + 1
        tail := s.blk.rx.tail
        avail := s.blk.rx.avail - 1
        free := s.blk.rx.free + 1 }
    let g := s.blk.stg
    (s.blk.frmValid = true → Holds .syncStep s) ∧
    (s.blk.frmValid = false → s.blk.rx.avail = 0 → Holds .syncStep s) ∧
    (s.blk.frmValid = false → s.blk.rx.avail ≠ 0 → s.blk.stgCount.toNat ≤ 4 →
      ∃ t, exec .syncStep s = .next t ∧ t.result = .none ∧ RestSame s t ∧
        (s.blk.stgCount = 0 → t.blk = { s.blk with rx := rx, stg := { g with b0 := x }, stgCount := 1 }) ∧
        (s.blk.stgCount = 1 → t.blk = { s.blk with rx := rx, stg := { g with b1 := x }, stgCount := 2 }) ∧
        (s.blk.stgCount = 2 → t.blk = { s.blk with rx := rx, stg := { g with b2 := x }, stgCount := 3 }) ∧
        (s.blk.stgCount = 3 → t.blk = { s.blk with rx := rx, stg := { g with b3 := x }, stgCount := 4 }) ∧
        (s.blk.stgCount = 4 → x = g.b0 ^^^ g.b1 ^^^ g.b2 ^^^ g.b3 →
          t.blk = { s.blk with
            rx := rx, stg := { g with b4 := x }, frm := { g with b4 := x }, frmValid := true, stgCount := 0 }) ∧
        (s.blk.stgCount = 4 → x ≠ g.b0 ^^^ g.b1 ^^^ g.b2 ^^^ g.b3 →
          t.blk = { s.blk with rx := rx, stg := ⟨g.b1, g.b2, g.b3, x, x⟩, stgCount := 4 }))

/-- The model's own stop (log 14): a fill count of 5, 6 or 7, which 10_state.md R25 excludes, has no staging
element, and SYNC_STEP faults there. -/
def Obligations.SyncStepStopsOnAnImpossibleCount : Prop :=
  ∀ s : State, s.blk.initDone = true → s.blk.frmValid = false → s.blk.rx.avail ≠ 0 →
    5 ≤ s.blk.stgCount.toNat → exec .syncStep s = .fault .stagingIndex

/-- 41_frame_sync.md R134: with five free slots ENCODE appends the four bytes and their XOR to `tx` in one
transaction and touches nothing else; with fewer it holds. -/
def Obligations.EncodeQueuesAValidFrameOrHolds : Prop :=
  ∀ (c p1 p2 p3 : Byte) (s : State), s.blk.initDone = true →
    (∀ k, encode k (.encodeFrame c p1 p2 p3) = .word (txWord 0x14 0 0 (c ++ p1 ++ p2 ++ p3))) ∧
    (s.blk.tx.free.toNat < 5 → Holds (.encodeFrame c p1 p2 p3) s) ∧
    (5 ≤ s.blk.tx.free.toNat → s.blk.tx.wf → ∃ t, exec (.encodeFrame c p1 p2 p3) s = .next t ∧
      t.blk.tx.contents = s.blk.tx.contents ++ [c, p1, p2, p3, c ^^^ p1 ^^^ p2 ^^^ p3] ∧ t.blk.tx.wf ∧
      t.blk = { s.blk with tx := t.blk.tx } ∧ t.result = .none ∧ RestSame s t)

/-- 41_frame_sync.md R133 item 6 (checksum round trip): the five bytes ENCODE makes of `(c, p1, p2, p3)`, read by
an empty synchronizer, are emitted as that frame, and the bytes after them stay in `rx`. -/
def Obligations.FiveBytesOfAFrameAreEmitted : Prop :=
  ∀ (c p1 p2 p3 : Byte) (rest : List Byte) (s : State), s.blk.initDone = true → s.blk.frmValid = false →
    s.blk.stgCount = 0 → s.blk.rx.wf →
    s.blk.rx.contents = [c, p1, p2, p3, c ^^^ p1 ^^^ p2 ^^^ p3] ++ rest →
      ∃ t, execAll (recv 5) s = .next t ∧ t.blk.frmValid = true ∧ t.blk.stgCount = 0 ∧
        t.blk.frm = ⟨c, p1, p2, p3, c ^^^ p1 ^^^ p2 ^^^ p3⟩ ∧ t.blk.rx.contents = rest ∧ t.blk.rx.wf ∧
        t.blk.tx = s.blk.tx ∧ RestSame s t

/-- 41_frame_sync.md R133 item 3: one garbage byte before a valid frame is dropped and the frame is emitted,
unless the first window is valid by coincidence; then that window is emitted instead. -/
def Obligations.OneGarbageByteIsDropped : Prop :=
  ∀ (g f0 f1 f2 f3 : Byte) (rest : List Byte) (s : State), s.blk.initDone = true → s.blk.frmValid = false →
    s.blk.stgCount = 0 → s.blk.rx.wf →
    s.blk.rx.contents = [g, f0, f1, f2, f3, f0 ^^^ f1 ^^^ f2 ^^^ f3] ++ rest →
      (f3 ≠ g ^^^ f0 ^^^ f1 ^^^ f2 → ∃ t, execAll (recv 6) s = .next t ∧ t.blk.frmValid = true ∧
        t.blk.stgCount = 0 ∧ t.blk.frm = ⟨f0, f1, f2, f3, f0 ^^^ f1 ^^^ f2 ^^^ f3⟩ ∧ t.blk.rx.contents = rest) ∧
      (f3 = g ^^^ f0 ^^^ f1 ^^^ f2 → ∃ t, execAll (recv 5) s = .next t ∧ t.blk.frmValid = true ∧
        t.blk.stgCount = 0 ∧ t.blk.frm = ⟨g, f0, f1, f2, f3⟩ ∧
        t.blk.rx.contents = (f0 ^^^ f1 ^^^ f2 ^^^ f3) :: rest)

/-! ## Sampling -/

/-- 42_sampling_rms.md R150: a tick writes one sample of each channel, in channel order, at the window position,
advances it, latches every channel when it wraps to 0 and then sets `rmsValid`, and with `rmsValid` evaluates
every channel, in channel order, under the mode at the tick's start. -/
def Obligations.TickSamplesLatchesAndEvaluates : Prop :=
  ∀ s : State, s.blk.initDone = true →
    let x0 := s.env.drawSample
    let x1 := x0.2.drawSample
    let x2 := x1.2.drawSample
    let m := s.blk.mode
    let sampled : State := { s with
      env := x2.2
      blk := { s.blk with
        ch0 := { s.blk.ch0 with win := s.blk.ch0.win.set s.blk.pos.toNat x0.1 }
        ch1 := { s.blk.ch1 with win := s.blk.ch1.win.set s.blk.pos.toNat x1.1 }
        ch2 := { s.blk.ch2 with win := s.blk.ch2.win.set s.blk.pos.toNat x2.1 }
        pos := s.blk.pos + 1 } }
    (∀ k, encode k .tick = .word (txWord 0x20 0 0 0)) ∧
    ∃ u t, execAll (if s.blk.pos = 15 then [.rmsLatch .c0, .rmsLatch .c1, .rmsLatch .c2] else []) sampled = .next u ∧
      (let latched : State := { u with blk := { u.blk with rmsValid := u.blk.rmsValid || s.blk.pos == 15 } }
      execAll (if latched.blk.rmsValid then [.relayEval .c0 m, .relayEval .c1 m, .relayEval .c2 m] else []) latched
        = .next t) ∧
      exec .tick s = .next { t with result := .none } ∧ RestSame { s with env := x2.2 } t

/-- 42_sampling_rms.md R151, the `rmsValid` gate: before the first latch a tick evaluates no channel, so no relay
register and no counter moves. -/
def Obligations.NoRelayMovesBeforeTheFirstLatch : Prop :=
  ∀ s : State, s.blk.initDone = true → s.blk.rmsValid = false → s.blk.pos ≠ 15 →
    ∃ t, exec .tick s = .next t ∧ t.blk.rmsValid = false ∧
      (∀ c, { t.blk.chan c with win := (s.blk.chan c).win } = s.blk.chan c) ∧
      t.blk.raisesNb = s.blk.raisesNb ∧ t.blk.lowersNb = s.blk.lowersNb ∧
      t.blk.raisesDirty = s.blk.raisesDirty ∧ t.blk.lowersDirty = s.blk.lowersDirty

/-- 42_sampling_rms.md R153: RMS_LATCH writes the channel's RMS and its band verdict and nothing else, `rmsValid`
included. -/
def Obligations.RmsLatchWritesMagnitudeAndVerdict : Prop :=
  ∀ (c : Chan) (s : State), s.blk.initDone = true →
    (∀ k, encode k (.rmsLatch c) = .word (txWord 0x21 c.toSel 0 0)) ∧
    ∃ t, exec (.rmsLatch c) s = .next t ∧ t.result = .none ∧ RestSame s t ∧
      t.blk = s.blk.setChan c { s.blk.chan c with
        rms := (t.blk.chan c).rms, voltageAlarm := (t.blk.chan c).voltageAlarm } ∧
      (t.blk.chan c).rms.toInt = rmsf (s.blk.chan c).win ∧
      ((t.blk.chan c).voltageAlarm = true ↔
        ((rmsf (s.blk.chan c).win : Int) < (s.cfg.nominal : Int) - s.cfg.bandHalf ∨
          (s.cfg.nominal : Int) + s.cfg.bandHalf < (rmsf (s.blk.chan c).win : Int)))

/-- 00_scope.md R12 and 42_sampling_rms.md R152, R156: `isqrt` is the largest integer root; RMSF is the root of the
truncated mean of the sixteen squares, saturated to 32767 exactly when that root does not fit; the sum is at
most 2^34. -/
def Obligations.RmsIsTheTruncatedRoot : Prop :=
  (∀ n r : Nat, isqrt n = r ↔ r * r ≤ n ∧ n < (r + 1) * (r + 1)) ∧
  ∀ w : Vector Word16 16,
    let total := (w.toList.map fun x => (x.toInt * x.toInt).toNat).sum
    total ≤ 2 ^ 34 ∧ rmsf w ≤ 32767 ∧
    (total / 16 < 2 ^ 30 → rmsf w * rmsf w * 16 ≤ total ∧ total < (rmsf w + 1) * (rmsf w + 1) * 16) ∧
    (2 ^ 30 ≤ total / 16 → rmsf w = 32767)

/-! ## Relay -/

/-- 43_relay.md R170 to R174: the closed band and its sides, of which exactly one holds; the value the comparator
sees; the delay of each mode, in inverse mode the least tick count whose product with the deviation reaches
`INV_K`; and when a trip is allowed, which out of band is always. -/
def Obligations.BandAndDelayAreAsDefined : Prop :=
  ∀ (p : Params) (v : Int),
    let d := (v - (p.nominal : Int)).natAbs
    (inBand p v = true ↔ (p.nominal : Int) - p.bandHalf ≤ v ∧ v ≤ (p.nominal : Int) + p.bandHalf) ∧
    (below p v = true ↔ v < (p.nominal : Int) - p.bandHalf) ∧
    (above p v = true ↔ (p.nominal : Int) + p.bandHalf < v) ∧
    (inBand p v = true ∧ below p v = false ∧ above p v = false ∨
      inBand p v = false ∧ below p v = true ∧ above p v = false ∨
      inBand p v = false ∧ below p v = false ∧ above p v = true) ∧
    (∀ b c m, (p.invLive = true → m = .inverse → (b.chan c).st = .outrange →
        bandValue p b c m = rmsf (b.chan c).win) ∧
      (¬ (p.invLive = true ∧ m = .inverse ∧ (b.chan c).st = .outrange) →
        bandValue p b c m = (b.chan c).rms.toInt)) ∧
    delayFor p .definite v = p.defDelay ∧
    (d = 0 → delayFor p .inverse v = 0xFFFFFFFF) ∧
    (0 < d → (delayFor p .inverse v).toNat = (p.invK.toNat + d - 1) / d ∧
      ∀ n, p.invK.toNat ≤ n * d ↔ (delayFor p .inverse v).toNat ≤ n) ∧
    (∀ m, tripAllowed p m v = true ↔ ¬ (m = .inverse ∧ d = 0)) ∧ (d = 0 → inBand p v = true)

/-- 43_relay.md R175 to R180, R182: what one evaluation does in each state, in band and out of band, with the
count, the trip in the direction of the value, and the counter that a trip increments when it has a slot. -/
def Obligations.RelayEvaluationFollowsItsStates : Prop :=
  ∀ (c : Chan) (m : Mode) (s : State), s.blk.initDone = true →
    let p := s.cfg
    let r := s.blk.chan c
    let v := bandValue p s.blk c m
    let delay := delayFor p m v
    let count := BitVec.ofNat 32 (min (r.timerCount.toNat + 1) 0xFFFFFFFF)
    let home := s.blk.setChan c { r with
      st := .normal, raiseReq := false, lowerReq := false, timerCount := 0, timerDelay := 0 }
    let counting := { r with timerDelay := delay, timerCount := count }
    let raised := s.blk.setChan c { counting with st := .tripRaise, raiseReq := true, lowerReq := false }
    let lowered := s.blk.setChan c { counting with st := .tripLower, lowerReq := true, raiseReq := false }
    let trips := tripAllowed p m v = true ∧ delay.toNat ≤ count.toNat
    (∀ k, encode k (.relayEval c m) = .word (txWord 0x22 c.toSel (if m = .inverse then 1 else 0) 0)) ∧
    ∃ t, exec (.relayEval c m) s = .next t ∧ t.result = .none ∧ RestSame s t ∧
      (r.st = .normal → inBand p v = true → t.blk = s.blk) ∧
      (r.st = .normal → inBand p v = false →
        t.blk = s.blk.setChan c { r with st := .outrange, timerCount := 0, timerDelay := delay }) ∧
      (r.st = .outrange → inBand p v = true → t.blk = home) ∧
      (r.st = .outrange → inBand p v = false → ¬ trips → t.blk = s.blk.setChan c counting) ∧
      (r.st = .outrange → inBand p v = false → trips → below p v = true → s.blk.raisesSlot.valid = true →
        t.blk = { raised with raisesNb := s.blk.raisesNb + 1, raisesDirty := true }) ∧
      (r.st = .outrange → inBand p v = false → trips → below p v = true → s.blk.raisesSlot.valid = false →
        t.blk = raised) ∧
      (r.st = .outrange → inBand p v = false → trips → below p v = false → s.blk.lowersSlot.valid = true →
        t.blk = { lowered with lowersNb := s.blk.lowersNb + 1, lowersDirty := true }) ∧
      (r.st = .outrange → inBand p v = false → trips → below p v = false → s.blk.lowersSlot.valid = false →
        t.blk = lowered) ∧
      (r.st = .tripRaise ∨ r.st = .tripLower → inBand p v = true → t.blk = home) ∧
      (r.st = .tripRaise ∨ r.st = .tripLower → inBand p v = false → t.blk = s.blk)

/-- 43_relay.md R183 items 2 and 3: a countdown that starts at 0 on a constant value out of band counts once per
evaluation, trips on evaluation `max(delay, 1)` and not before, and increments exactly one counter, once. -/
def Obligations.CountdownTripsOnTheDelayedTick : Prop :=
  ∀ (c : Chan) (m : Mode) (s : State), s.blk.initDone = true → (s.blk.chan c).st = .outrange →
    (s.blk.chan c).timerCount = 0 → inBand s.cfg (bandValue s.cfg s.blk c m) = false →
      let v := bandValue s.cfg s.blk c m
      let n := max (delayFor s.cfg m v).toNat 1
      (∀ k, k < n → ∃ t, execAll (List.replicate k (.relayEval c m)) s = .next t ∧
        (t.blk.chan c).st = .outrange ∧ (t.blk.chan c).timerCount.toNat = k ∧
        t.blk.raisesNb = s.blk.raisesNb ∧ t.blk.lowersNb = s.blk.lowersNb) ∧
      ∃ t, execAll (List.replicate n (.relayEval c m)) s = .next t ∧
        (t.blk.chan c).st = (if v < low s.cfg then .tripRaise else .tripLower) ∧
        t.blk.raisesNb =
          (if v < low s.cfg ∧ s.blk.raisesSlot.valid = true then s.blk.raisesNb + 1 else s.blk.raisesNb) ∧
        t.blk.lowersNb =
          (if ¬ v < low s.cfg ∧ s.blk.lowersSlot.valid = true then s.blk.lowersNb + 1 else s.blk.lowersNb)

/-- 43_relay.md R183 item 3 (90_conflicts.md C4): in inverse mode a larger deviation never trips later. -/
def Obligations.InverseDelayIsMonotone : Prop :=
  ∀ (p : Params) (v1 v2 : Int), 0 < deviation p v2 → deviation p v2 < deviation p v1 →
    max (delayFor p .inverse v1).toNat 1 ≤ max (delayFor p .inverse v2).toNat 1

/-! ## Storage -/

/-- 44_nvstore.md R200: ALLOC of 1, 2 or 4 bytes takes the lowest aligned free run that fits, marks exactly its
bits and returns OK and its offset, or returns OUT_OF_SPACE when there is none; any other size returns BAD_SIZE.
Only the bitmap and `nvStatus` change. -/
def Obligations.AllocTakesTheLowestFreeAlignedRun : Prop :=
  ∀ (size : Byte) (s : State), s.blk.initDone = true → s.cfg.nvsSize ≤ 65536 →
    s.blk.fsm.length = s.cfg.nvsSize →
      let n := size.toNat
      (∀ k, encode k (.alloc size) = .word (txWord 0x30 size 0 0)) ∧
      ∃ t, exec (.alloc size) s = .next t ∧ RestSame s t ∧
        t.blk = { s.blk with fsm := t.blk.fsm, nvStatus := t.blk.nvStatus } ∧
        (¬ (n = 1 ∨ n = 2 ∨ n = 4) →
          t.result = .status .badSize ∧ t.blk.nvStatus = .badSize ∧ t.blk.fsm = s.blk.fsm) ∧
        ((n = 1 ∨ n = 2 ∨ n = 4) → ∀ a, a % n = 0 → a + n ≤ s.cfg.nvsSize → FreeAt s.blk.fsm n a →
          (∀ a' < a, a' % n = 0 → ¬ FreeAt s.blk.fsm n a') →
            t.result = .allocated (BitVec.ofNat 16 a) ∧ t.blk.nvStatus = .ok ∧
            t.blk.fsm.length = s.blk.fsm.length ∧
            ∀ i < s.cfg.nvsSize, t.blk.fsm[i]? = if a ≤ i ∧ i < a + n then some true else s.blk.fsm[i]?) ∧
        ((n = 1 ∨ n = 2 ∨ n = 4) → (∀ a, a % n = 0 → a + n ≤ s.cfg.nvsSize → ¬ FreeAt s.blk.fsm n a) →
          t.result = .status .outOfSpace ∧ t.blk.nvStatus = .outOfSpace ∧ t.blk.fsm = s.blk.fsm)

/-- 44_nvstore.md R201: an allocated offset is aligned to its size, its bits are 1, and a later allocation in a
state that has kept those bits never overlaps it. -/
def Obligations.AllocationsNeverOverlap : Prop :=
  ∀ (n1 n2 : Byte) (s t u v : State) (a1 a2 : Word16), s.blk.initDone = true → u.blk.initDone = true →
    s.cfg.nvsSize ≤ 65536 → u.cfg = s.cfg → exec (.alloc n1) s = .next t → t.result = .allocated a1 →
    (∀ i : Nat, t.blk.fsm[i]? = some true → u.blk.fsm[i]? = some true) →
    exec (.alloc n2) u = .next v → v.result = .allocated a2 →
      a1.toNat % n1.toNat = 0 ∧ a2.toNat % n2.toNat = 0 ∧
      (∀ i < n1.toNat, t.blk.fsm[a1.toNat + i]? = some true) ∧
      (a1.toNat + n1.toNat ≤ a2.toNat ∨ a2.toNat + n2.toNat ≤ a1.toNat)

/-- 44_nvstore.md R203, 60_exceptions.md R265: the checks come in the order size, alignment, range; the first that
fails is the status, and no storage byte is touched and no device call is made. -/
def Obligations.NvWriteRejectsBeforeAnyDeviceCall : Prop :=
  ∀ (width : Byte) (off : Word16) (val : Word32) (s : State), s.blk.initDone = true →
    let w := width.toNat
    let rejected (st : Status) : Prop := ∃ t, exec (.nvWrite width off val) s = .next t ∧
      t.result = .status st ∧ t.blk = { s.blk with nvStatus := st } ∧ RestSame s t
    (¬ (w = 1 ∨ w = 2 ∨ w = 4) → rejected .badSize) ∧
    ((w = 1 ∨ w = 2 ∨ w = 4) → off.toNat % w ≠ 0 → rejected .alignmentViolation) ∧
    ((w = 1 ∨ w = 2 ∨ w = 4) → off.toNat % w = 0 → s.cfg.nvsSize < off.toNat + w → rejected .badAddress)

/-- 44_nvstore.md R203 to R209 item 2 (write-merge correctness): an accepted NV_WRITE whose device calls answer ok
leaves its bytes equal to the value's little-endian bytes and every other storage byte as it was. -/
def Obligations.NvWriteMergesItsBytes : Prop :=
  ∀ (width : Byte) (off : Word16) (val : Word32) (s : State), s.blk.initDone = true → s.cfg.wf →
    WriteAccepted s.cfg width.toNat off.toNat → DeviceOk s →
      (∀ k, encode k (.nvWrite width off val) = .word (txWord 0x31 width off val)) ∧
      ∃ t, exec (.nvWrite width off val) s = .next t ∧ t.result = .status .ok ∧
        t.blk = { s.blk with nvStatus := .ok } ∧ OutsideSame s t ∧
        (∀ i < width.toNat, t.nvByte (off.toNat + i) = val.extractLsb' (8 * i) 8) ∧
        StorageSameOutside s t off.toNat width.toNat

/-- 44_nvstore.md R206, R207, R209 items 1 and 3: an accepted NV_WRITE one of whose device calls fails returns
PROGRAM_FAILURE; each byte of its unit is the `AnyByte()` drawn for it, a free value, and no other byte changes.
After a failed erase the program call is not made. -/
def Obligations.FailedNvWriteSpoilsOnlyItsUnit : Prop :=
  ∀ (width : Byte) (off : Word16) (val : Word32) (s : State), s.blk.initDone = true →
    WriteAccepted s.cfg width.toNat off.toNat → ¬ DeviceOk s →
      let e := if s.env.drawDev.1 then s.env.drawDev.2.drawDev.2 else s.env.drawDev.2
      ∃ t, exec (.nvWrite width off val) s = .next t ∧ t.result = .status .programFailure ∧
        t.blk = { s.blk with nvStatus := .programFailure } ∧ OutsideSame s t ∧
        t.env = (e.drawBytes s.cfg.eu).2 ∧
        (∀ i < s.cfg.eu, some (t.nvByte (unitBase s.cfg off.toNat + i)) = (e.drawBytes s.cfg.eu).1[i]?) ∧
        StorageSameOutside s t (unitBase s.cfg off.toNat) s.cfg.eu

/-- 44_nvstore.md R215: PERSIST holds while neither counter is dirty; otherwise it clears one dirty bit, raises
first, and writes that counter, little-endian, through its slot; the status stays in `nvStatus` and nothing is
retried. -/
def Obligations.PersistWritesOneDirtyCounter : Prop :=
  ∀ s : State, s.blk.initDone = true →
    (∀ k, encode k .persist = .word (txWord 0x32 0 0 0)) ∧
    (s.blk.raisesDirty = false → s.blk.lowersDirty = false → Holds .persist s) ∧
    (s.blk.raisesDirty = true → ∃ t, exec .persist s = .next t ∧ t.result = .none ∧ OutsideSame s t ∧
      t.blk = { s.blk with raisesDirty := false, nvStatus := t.blk.nvStatus } ∧
      (s.cfg.wf → WriteAccepted s.cfg 2 s.blk.raisesSlot.off.toNat → DeviceOk s →
        t.blk.nvStatus = .ok ∧
        t.nvByte s.blk.raisesSlot.off.toNat = s.blk.raisesNb.extractLsb' 0 8 ∧
        t.nvByte (s.blk.raisesSlot.off.toNat + 1) = s.blk.raisesNb.extractLsb' 8 8 ∧
        StorageSameOutside s t s.blk.raisesSlot.off.toNat 2) ∧
      (WriteAccepted s.cfg 2 s.blk.raisesSlot.off.toNat → ¬ DeviceOk s →
        t.blk.nvStatus = .programFailure ∧
        StorageSameOutside s t (unitBase s.cfg s.blk.raisesSlot.off.toNat) s.cfg.eu)) ∧
    (s.blk.raisesDirty = false → s.blk.lowersDirty = true →
      ∃ t, exec .persist s = .next t ∧ t.result = .none ∧ OutsideSame s t ∧
      t.blk = { s.blk with lowersDirty := false, nvStatus := t.blk.nvStatus } ∧
      (s.cfg.wf → WriteAccepted s.cfg 2 s.blk.lowersSlot.off.toNat → DeviceOk s →
        t.blk.nvStatus = .ok ∧
        t.nvByte s.blk.lowersSlot.off.toNat = s.blk.lowersNb.extractLsb' 0 8 ∧
        t.nvByte (s.blk.lowersSlot.off.toNat + 1) = s.blk.lowersNb.extractLsb' 8 8 ∧
        StorageSameOutside s t s.blk.lowersSlot.off.toNat 2) ∧
      (WriteAccepted s.cfg 2 s.blk.lowersSlot.off.toNat → ¬ DeviceOk s →
        t.blk.nvStatus = .programFailure ∧
        StorageSameOutside s t (unitBase s.cfg s.blk.lowersSlot.off.toNat) s.cfg.eu))

/-! ## Commands -/

/-- 45_commands.md R232, R233: GET_TIMING answers the mode in `r1`; SET_TIMING sets the mode `p1` names, and with
any other `p1` fails and leaves the mode; the response, if asked for, is the frame of 30_encoding.md R84. That a
command run by itself is ready only when its response fits and drops `frmValid` is 45_commands.md R230 through the
model's reading of a frame row (log 9, DEDUCED). -/
def Obligations.TimingCommandsReadAndSetTheMode : Prop :=
  ∀ (a : Bool) (p1 p2 p3 : Byte) (s : State), CommandReady a s →
    let k := s.cfg.cmdCode
    let answer (ok : Bool) (code : BitVec 7) (r1 r2 r3 : Byte) : Fifo :=
      if a then s.blk.tx.pushFrame (FiveBytes.ofFour (commandByte ok code) r1 r2 r3) else s.blk.tx
    (∃ t, exec (.getTiming a p1 p2 p3) s = .next t ∧ t.result = .none ∧ RestSame s t ∧
      t.blk = { s.blk with
        frmValid := false
        tx := answer true k.getTiming (if s.blk.mode = .inverse then 1 else 0) 0 0 }) ∧
    ∃ t, exec (.setTiming a p1 p2 p3) s = .next t ∧ t.result = .none ∧ RestSame s t ∧
      (p1 = 0 → t.blk = { s.blk with
        frmValid := false, mode := .definite, tx := answer true k.setTiming p1 p2 p3 }) ∧
      (p1 = 1 → t.blk = { s.blk with
        frmValid := false, mode := .inverse, tx := answer true k.setTiming p1 p2 p3 }) ∧
      (p1 ≠ 0 → p1 ≠ 1 → t.blk = { s.blk with
        frmValid := false, tx := answer false k.setTiming p1 p2 p3 })

/-- 45_commands.md R234, R236: GET_RAISES and GET_LOWERS answer the counter in the block, little-endian in `r1` and
`r2`; no register but `frmValid` and the response's `tx` changes. That a command run by itself drops `frmValid` and
is ready only when its response fits is 45_commands.md R230 through the model's reading of a frame row (log 9,
DEDUCED). -/
def Obligations.CounterReadsAnswerLittleEndian : Prop :=
  ∀ (a : Bool) (p1 p2 p3 : Byte) (s : State), CommandReady a s →
    let k := s.cfg.cmdCode
    let answer (code : BitVec 7) (n : Word16) : Fifo :=
      if a then s.blk.tx.pushFrame
        (FiveBytes.ofFour (commandByte true code) (n.extractLsb' 0 8) (n.extractLsb' 8 8) 0)
      else s.blk.tx
    (∃ t, exec (.getRaises a p1 p2 p3) s = .next t ∧ t.result = .none ∧ RestSame s t ∧
      t.blk = { s.blk with frmValid := false, tx := answer k.getRaises s.blk.raisesNb }) ∧
    ∃ t, exec (.getLowers a p1 p2 p3) s = .next t ∧ t.result = .none ∧ RestSame s t ∧
      t.blk = { s.blk with frmValid := false, tx := answer k.getLowers s.blk.lowersNb }

/-- 45_commands.md R235, R237: RESET_RAISES and RESET_LOWERS clear the counter and its dirty bit whatever storage
does, write 0 through the slot, and succeed exactly when there is a slot and the write returns OK. That a command
run by itself drops `frmValid` and is ready only when its response fits is 45_commands.md R230 through the model's
reading of a frame row (log 9, DEDUCED). -/
def Obligations.CounterResetsClearAndStoreZero : Prop :=
  ∀ (a : Bool) (p1 p2 p3 : Byte) (s : State), CommandReady a s →
    let k := s.cfg.cmdCode
    let answer (ok : Bool) (code : BitVec 7) : Fifo :=
      if a then s.blk.tx.pushFrame (FiveBytes.ofFour (commandByte ok code) p1 p2 p3) else s.blk.tx
    let stored (slot : Slot) (t : State) (ok : Bool) : Prop :=
      (slot.valid = false → ok = false ∧ t.blk.nvStatus = s.blk.nvStatus ∧ RestSame s t) ∧
      (slot.valid = true → (ok = true ↔ t.blk.nvStatus = .ok)) ∧
      (slot.valid = true → s.cfg.wf → WriteAccepted s.cfg 2 slot.off.toNat → DeviceOk s →
        ok = true ∧ t.nvByte slot.off.toNat = 0 ∧ t.nvByte (slot.off.toNat + 1) = 0 ∧
        StorageSameOutside s t slot.off.toNat 2) ∧
      (slot.valid = true → WriteAccepted s.cfg 2 slot.off.toNat → ¬ DeviceOk s →
        ok = false ∧ t.blk.nvStatus = .programFailure ∧
        StorageSameOutside s t (unitBase s.cfg slot.off.toNat) s.cfg.eu)
    (∃ t ok, exec (.resetRaises a p1 p2 p3) s = .next t ∧ t.result = .none ∧ OutsideSame s t ∧
      stored s.blk.raisesSlot t ok ∧
      t.blk = { s.blk with
        frmValid := false, raisesNb := 0, raisesDirty := false, nvStatus := t.blk.nvStatus
        tx := answer ok k.resetRaises }) ∧
    ∃ t ok, exec (.resetLowers a p1 p2 p3) s = .next t ∧ t.result = .none ∧ OutsideSame s t ∧
      stored s.blk.lowersSlot t ok ∧
      t.blk = { s.blk with
        frmValid := false, lowersNb := 0, lowersDirty := false, nvStatus := t.blk.nvStatus
        tx := answer ok k.resetLowers }

/-- 45_commands.md R238 to R241: the three reserved queries succeed, an unknown code fails, and all four only echo
the request's parameters. That a command run by itself drops `frmValid`, the one register it writes beside `tx`,
and is ready only when its response fits is 45_commands.md R230 through the model's reading of a frame row (log 9,
DEDUCED). -/
def Obligations.QueriesAndUnknownCodesEcho : Prop :=
  ∀ (a : Bool) (code : BitVec 7) (p1 p2 p3 : Byte) (s : State), CommandReady a s →
    let k := s.cfg.cmdCode
    let echoes (i : Instr) (ok : Bool) (c : BitVec 7) : Prop :=
      ∃ t, exec i s = .next t ∧ t.result = .none ∧ RestSame s t ∧
        t.blk = { s.blk with
          frmValid := false
          tx := if a then s.blk.tx.pushFrame (FiveBytes.ofFour (commandByte ok c) p1 p2 p3) else s.blk.tx }
    echoes (.queryFreq a p1 p2 p3) true k.queryFreq ∧
    echoes (.queryVolt a p1 p2 p3) true k.queryVolt ∧
    echoes (.querySpectrum a p1 p2 p3) true k.querySpectrum ∧
    echoes (.cmdUnknown a code p1 p2 p3) false code

/-- 45_commands.md R230 (the hold before any effect): a command that wants a response waits, with nothing done,
while `tx` has fewer than five free slots, by itself (log 9, DEDUCED) and as the frame of a DISPATCH. -/
def Obligations.CommandsWaitForResponseRoom : Prop :=
  ∀ s : State, s.blk.initDone = true → s.blk.tx.free.toNat < 5 →
    (∀ i code, commandHead s.cfg.cmdCode i = some (true, code) → Holds i s) ∧
    (s.blk.frmValid = true → ackBit s.blk.frm.b0 = true → Holds .dispatch s)

/-- 30_encoding.md R84, R85: every command runs when its response fits; it queues one valid frame that carries the
request's code when the request asked for one, and none otherwise. That a command run by itself drops `frmValid`
is 45_commands.md R230 through the model's reading of a frame row (log 9, DEDUCED). -/
def Obligations.ResponseIffAcknowledgeRequested : Prop :=
  ∀ (i : Instr) (s : State) (a : Bool) (code : BitVec 7), commandHead s.cfg.cmdCode i = some (a, code) →
    CommandReady a s → s.blk.tx.wf →
      ∃ t, exec i s = .next t ∧ t.blk.frmValid = false ∧
        (a = false → t.blk.tx = s.blk.tx) ∧
        (a = true → ∃ f : FiveBytes, t.blk.tx.contents = s.blk.tx.contents ++ frameBytes f ∧
          frameValid f = true ∧ codeField f.b0 = code)

/-! ## Boot and reset -/

/-- 70_reset_and_hazards.md R292 on the free bitmap a reset leaves: INIT binds the raise counter to offset 0 and
the lower counter to offset 2, loads both little-endian and raw, and ends initialized; without storage both slots
are invalid and both counters 0. -/
def Obligations.InitBindsSlotsAndLoadsCounters : Prop :=
  ∀ s : State, s.blk.initDone = false → s.cfg.wf → s.blk.fsm = List.replicate s.cfg.nvsSize false →
    (∀ k, encode k .init = .word (txWord 0x3F 0 0 0)) ∧
    ∃ t, exec .init s = .next t ∧ t.result = .none ∧ RestSame s t ∧
      t.blk = { s.blk with
        fsm := t.blk.fsm, nvStatus := t.blk.nvStatus, raisesSlot := t.blk.raisesSlot
        lowersSlot := t.blk.lowersSlot, raisesNb := t.blk.raisesNb, lowersNb := t.blk.lowersNb
        initDone := true } ∧
      (s.cfg.nvsSize = 0 → t.blk.raisesSlot = ⟨0, false⟩ ∧ t.blk.lowersSlot = ⟨0, false⟩ ∧
        t.blk.raisesNb = 0 ∧ t.blk.lowersNb = 0 ∧ t.blk.nvStatus = .outOfSpace) ∧
      (s.cfg.nvsSize ≠ 0 → t.blk.raisesSlot = ⟨0, true⟩ ∧ t.blk.lowersSlot = ⟨2, true⟩ ∧
        t.blk.raisesNb.toNat = (s.nvByte 0).toNat + 256 * (s.nvByte 1).toNat ∧
        t.blk.lowersNb.toNat = (s.nvByte 2).toNat + 256 * (s.nvByte 3).toNat ∧
        t.blk.nvStatus = .ok ∧ ∀ i < s.cfg.nvsSize, t.blk.fsm[i]? = some (decide (i < 4)))

/-- 60_exceptions.md R281, 70_reset_and_hazards.md R292: after a reset and INIT, at any time, the counters are what
storage holds at offsets 0 to 3, and storage is as it was. -/
def Obligations.CountersSurviveAReset : Prop :=
  ∀ (s : State) (es : List Event), s.cfg.wf → s.cfg.nvsSize ≠ 0 → s.sched = .reset :: .word initWord :: es →
    ∃ t u, step s = .next t ∧ step t = .next u ∧ u.blk.initDone = true ∧ u.sched = es ∧
      u.blk.raisesNb.toNat = (s.nvByte 0).toNat + 256 * (s.nvByte 1).toNat ∧
      u.blk.lowersNb.toNat = (s.nvByte 2).toNat + 256 * (s.nvByte 3).toNat ∧
      u.blk.raisesDirty = false ∧ u.blk.lowersDirty = false ∧ ∀ a, Memory.read u.nv a = Memory.read s.nv a

/-- 70_reset_and_hazards.md R290: a reset leaves every register for which 10_state.md gives a reset value at that
value, and storage as it was. (The contents of the FIFO arrays, `stg` and `frm` are log 7 and are not stated.) -/
def Obligations.BlockResetRestoresEveryRegister : Prop :=
  ∀ (s : State) (es : List Event), s.sched = .reset :: es →
    ∃ t, step s = .next t ∧ (∀ a, Memory.read t.nv a = Memory.read s.nv a) ∧ t.cfg = s.cfg ∧ t.sched = es ∧
      (∀ f, (t.blk.fifo f).head = 0 ∧ (t.blk.fifo f).tail = 0 ∧ (t.blk.fifo f).avail = 0 ∧
        (t.blk.fifo f).free = 256) ∧
      t.blk.rxOvf = false ∧ t.blk.stgCount = 0 ∧ t.blk.frmValid = false ∧ t.blk.pos = 0 ∧
      t.blk.rmsValid = false ∧
      (∀ c, (∀ i (h : i < 16), (t.blk.chan c).win[i] = 0) ∧ (t.blk.chan c).rms = 0 ∧
        (t.blk.chan c).voltageAlarm = false ∧ (t.blk.chan c).st = .normal ∧ (t.blk.chan c).raiseReq = false ∧
        (t.blk.chan c).lowerReq = false ∧ (t.blk.chan c).timerDelay = 0 ∧ (t.blk.chan c).timerCount = 0) ∧
      t.blk.mode = .definite ∧ t.blk.raisesSlot = ⟨0, false⟩ ∧ t.blk.lowersSlot = ⟨0, false⟩ ∧
      t.blk.raisesDirty = false ∧ t.blk.lowersDirty = false ∧
      t.blk.fsm = List.replicate s.cfg.nvsSize false ∧ t.blk.nvStatus = .ok ∧ t.blk.initDone = false

/-- 70_reset_and_hazards.md R305: a reset that falls inside an accepted storage write leaves each byte of that
erase unit any value, every other storage byte as it was, and the block reset. The event that tears a write is log
12; of the registers of `Block.reset`, the zero contents of `rx.buf`, `tx.buf`, `stg` and `frm` are log 7. Both are
the model's choices. -/
def Obligations.TornWriteSpoilsOnlyItsUnit : Prop :=
  ∀ (s : State) (w : TxWord) (es : List Event) (i : Instr) (n off : Nat), s.sched = .torn w :: es →
    decodeWord w = .ok i → admitted { s with sched := es } i = true → writeTarget s i = some (n, off) →
    WriteAccepted s.cfg n off →
      ∃ t, step s = .next t ∧ t.blk = Block.reset s.cfg ∧ t.sched = es ∧
        (∀ j < s.cfg.eu, some (t.nvByte (unitBase s.cfg off + j)) = (s.env.drawBytes s.cfg.eu).1[j]?) ∧
        StorageSameOutside s t (unitBase s.cfg off) s.cfg.eu

/-- 60_exceptions.md R272, with the conditions of R270, in the form log 11 gives it. Under FREE every word that
spells an operation runs. Under PRIORITY a DISPATCH holds while RECV is enabled and runs otherwise; a PERSIST holds
while RECV or PKT is enabled and runs otherwise; SYNC_STEP, INIT, the external events and the unit-level words
always run. (A word that runs may still hold of itself, where its own rule says so.) -/
def Obligations.PriorityAdmitsTheFirstEnabledAgent : Prop :=
  ∀ (s : State) (w : TxWord) (es : List Event) (i : Instr),
    s.sched = .word w :: es → decodeWord w = .ok i →
      let u : State := { s with sched := es }
      let recv : Prop := s.blk.initDone = true ∧ s.blk.frmValid = false ∧ s.blk.rx.avail ≠ 0
      let pkt : Prop := s.blk.initDone = true ∧ s.blk.frmValid = true ∧
        (ackBit s.blk.frm.b0 = true → 5 ≤ s.blk.tx.free.toNat)
      (s.cfg.sched = .free → step s = exec i u) ∧
      (s.cfg.sched = .priority →
        (i ≠ .dispatch → i ≠ .persist → step s = exec i u) ∧
        (i = .dispatch → recv → step s = .next { u with result := .held }) ∧
        (i = .dispatch → ¬ recv → step s = exec .dispatch u) ∧
        (i = .persist → recv ∨ pkt → step s = .next { u with result := .held }) ∧
        (i = .persist → ¬ recv → ¬ pkt → step s = exec .persist u))

/-- The sentence of 42_sampling_rms.md R154 marked as derived, that the alarm agrees with the band after every
transaction, does not hold right after INIT when `LOW` is above 0: the reset value of `rms[c]` is out of band and
`voltageAlarm[c]` is 0 (log 16). -/
def Obligations.AlarmVerdictFailsBetweenInitAndLatch : Prop :=
  ∀ s : State, s.blk = Block.reset s.cfg → 0 < low s.cfg →
    ∃ t, exec .init s = .next t ∧ t.blk.initDone = true ∧ ∀ c, ¬ alarmAgrees t.cfg (t.blk.chan c)

/-- 60_exceptions.md R282, by its list (log 20): a state is quiescent when the block is initialized, no frame waits,
no byte waits in `rx` and no counter is dirty. Then no internal agent is enabled and the transaction of each holds.
The first sentence of R282 holds in one more case only: a frame that wants a response waits for room in `tx`. -/
def Obligations.QuiescentStatesWaitForTheEnvironment : Prop :=
  ∀ s : State,
    (quiescent s.blk = true ↔ s.blk.initDone = true ∧ s.blk.frmValid = false ∧ s.blk.rx.avail = 0 ∧
      s.blk.raisesDirty = false ∧ s.blk.lowersDirty = false) ∧
    (internalIdle s.cfg s.blk = true ↔ quiescent s.blk = true ∨
      s.blk.initDone = true ∧ s.blk.frmValid = true ∧ ackBit s.blk.frm.b0 = true ∧ s.blk.tx.free.toNat < 5 ∧
        s.blk.raisesDirty = false ∧ s.blk.lowersDirty = false) ∧
    (internalIdle s.cfg s.blk = true → Holds .init s ∧ Holds .syncStep s ∧ Holds .dispatch s ∧ Holds .persist s)
end

