-- ==== Sys2Proof/Laws/State.lean ====
section
/-! SUPPORT. One lemma per field per update of the state and of the block registers. -/

namespace Sys2Proof.Machine

/-! ## Updates of the state -/

@[simp] theorem State.setBlk_cfg (s : State) (b : Block) : (s.setBlk b).cfg = s.cfg := rfl
@[simp] theorem State.setBlk_blk (s : State) (b : Block) : (s.setBlk b).blk = b := rfl
@[simp] theorem State.setBlk_nv (s : State) (b : Block) : (s.setBlk b).nv = s.nv := rfl
@[simp] theorem State.setBlk_refused (s : State) (b : Block) : (s.setBlk b).refused = s.refused := rfl
@[simp] theorem State.setBlk_wireIn (s : State) (b : Block) : (s.setBlk b).wireIn = s.wireIn := rfl
@[simp] theorem State.setBlk_wireOut (s : State) (b : Block) : (s.setBlk b).wireOut = s.wireOut := rfl
@[simp] theorem State.setBlk_env (s : State) (b : Block) : (s.setBlk b).env = s.env := rfl
@[simp] theorem State.setBlk_sched (s : State) (b : Block) : (s.setBlk b).sched = s.sched := rfl
@[simp] theorem State.setBlk_result (s : State) (b : Block) : (s.setBlk b).result = s.result := rfl

@[simp] theorem State.setEnv_cfg (s : State) (e : Env) : (s.setEnv e).cfg = s.cfg := rfl
@[simp] theorem State.setEnv_blk (s : State) (e : Env) : (s.setEnv e).blk = s.blk := rfl
@[simp] theorem State.setEnv_nv (s : State) (e : Env) : (s.setEnv e).nv = s.nv := rfl
@[simp] theorem State.setEnv_refused (s : State) (e : Env) : (s.setEnv e).refused = s.refused := rfl
@[simp] theorem State.setEnv_wireIn (s : State) (e : Env) : (s.setEnv e).wireIn = s.wireIn := rfl
@[simp] theorem State.setEnv_wireOut (s : State) (e : Env) : (s.setEnv e).wireOut = s.wireOut := rfl
@[simp] theorem State.setEnv_env (s : State) (e : Env) : (s.setEnv e).env = e := rfl
@[simp] theorem State.setEnv_sched (s : State) (e : Env) : (s.setEnv e).sched = s.sched := rfl
@[simp] theorem State.setEnv_result (s : State) (e : Env) : (s.setEnv e).result = s.result := rfl

@[simp] theorem State.setNvBytes_cfg (s : State) (off : Nat) (bs : List Byte) : (s.setNvBytes off bs).cfg = s.cfg := rfl
@[simp] theorem State.setNvBytes_blk (s : State) (off : Nat) (bs : List Byte) : (s.setNvBytes off bs).blk = s.blk := rfl
@[simp] theorem State.setNvBytes_nv (s : State) (off : Nat) (bs : List Byte) : (s.setNvBytes off bs).nv = Memory.writeList s.nv (s.cfg.nvsBase + off) bs := rfl
@[simp] theorem State.setNvBytes_refused (s : State) (off : Nat) (bs : List Byte) : (s.setNvBytes off bs).refused = s.refused := rfl
@[simp] theorem State.setNvBytes_wireIn (s : State) (off : Nat) (bs : List Byte) : (s.setNvBytes off bs).wireIn = s.wireIn := rfl
@[simp] theorem State.setNvBytes_wireOut (s : State) (off : Nat) (bs : List Byte) : (s.setNvBytes off bs).wireOut = s.wireOut := rfl
@[simp] theorem State.setNvBytes_env (s : State) (off : Nat) (bs : List Byte) : (s.setNvBytes off bs).env = s.env := rfl
@[simp] theorem State.setNvBytes_sched (s : State) (off : Nat) (bs : List Byte) : (s.setNvBytes off bs).sched = s.sched := rfl
@[simp] theorem State.setNvBytes_result (s : State) (off : Nat) (bs : List Byte) : (s.setNvBytes off bs).result = s.result := rfl

@[simp] theorem State.putByte_cfg (s : State) (f : FifoSel) (b : Byte) : (s.putByte f b).cfg = s.cfg := rfl
@[simp] theorem State.putByte_blk (s : State) (f : FifoSel) (b : Byte) : (s.putByte f b).blk = s.blk.setFifo f ((s.blk.fifo f).push b) := rfl
@[simp] theorem State.putByte_nv (s : State) (f : FifoSel) (b : Byte) : (s.putByte f b).nv = s.nv := rfl
@[simp] theorem State.putByte_refused (s : State) (f : FifoSel) (b : Byte) : (s.putByte f b).refused = s.refused := rfl
@[simp] theorem State.putByte_wireIn (s : State) (f : FifoSel) (b : Byte) : (s.putByte f b).wireIn = s.wireIn := rfl
@[simp] theorem State.putByte_wireOut (s : State) (f : FifoSel) (b : Byte) : (s.putByte f b).wireOut = s.wireOut := rfl
@[simp] theorem State.putByte_env (s : State) (f : FifoSel) (b : Byte) : (s.putByte f b).env = s.env := rfl
@[simp] theorem State.putByte_sched (s : State) (f : FifoSel) (b : Byte) : (s.putByte f b).sched = s.sched := rfl
@[simp] theorem State.putByte_result (s : State) (f : FifoSel) (b : Byte) : (s.putByte f b).result = s.result := rfl

@[simp] theorem State.takeByte_cfg (s : State) (f : FifoSel) : (s.takeByte f).cfg = s.cfg := rfl
@[simp] theorem State.takeByte_blk (s : State) (f : FifoSel) : (s.takeByte f).blk = s.blk.setFifo f (s.blk.fifo f).pop := rfl
@[simp] theorem State.takeByte_nv (s : State) (f : FifoSel) : (s.takeByte f).nv = s.nv := rfl
@[simp] theorem State.takeByte_refused (s : State) (f : FifoSel) : (s.takeByte f).refused = s.refused := rfl
@[simp] theorem State.takeByte_wireIn (s : State) (f : FifoSel) : (s.takeByte f).wireIn = s.wireIn := rfl
@[simp] theorem State.takeByte_wireOut (s : State) (f : FifoSel) : (s.takeByte f).wireOut = s.wireOut := rfl
@[simp] theorem State.takeByte_env (s : State) (f : FifoSel) : (s.takeByte f).env = s.env := rfl
@[simp] theorem State.takeByte_sched (s : State) (f : FifoSel) : (s.takeByte f).sched = s.sched := rfl
@[simp] theorem State.takeByte_result (s : State) (f : FifoSel) : (s.takeByte f).result = s.result := rfl

@[simp] theorem State.wireReceived_cfg (s : State) (b : Byte) : (s.wireReceived b).cfg = s.cfg := rfl
@[simp] theorem State.wireReceived_blk (s : State) (b : Byte) : (s.wireReceived b).blk = s.blk := rfl
@[simp] theorem State.wireReceived_nv (s : State) (b : Byte) : (s.wireReceived b).nv = s.nv := rfl
@[simp] theorem State.wireReceived_refused (s : State) (b : Byte) : (s.wireReceived b).refused = s.refused := rfl
@[simp] theorem State.wireReceived_wireIn (s : State) (b : Byte) : (s.wireReceived b).wireIn = s.wireIn ++ [b] := rfl
@[simp] theorem State.wireReceived_wireOut (s : State) (b : Byte) : (s.wireReceived b).wireOut = s.wireOut := rfl
@[simp] theorem State.wireReceived_env (s : State) (b : Byte) : (s.wireReceived b).env = s.env := rfl
@[simp] theorem State.wireReceived_sched (s : State) (b : Byte) : (s.wireReceived b).sched = s.sched := rfl
@[simp] theorem State.wireReceived_result (s : State) (b : Byte) : (s.wireReceived b).result = s.result := rfl

@[simp] theorem State.wireSent_cfg (s : State) (b : Byte) : (s.wireSent b).cfg = s.cfg := rfl
@[simp] theorem State.wireSent_blk (s : State) (b : Byte) : (s.wireSent b).blk = s.blk := rfl
@[simp] theorem State.wireSent_nv (s : State) (b : Byte) : (s.wireSent b).nv = s.nv := rfl
@[simp] theorem State.wireSent_refused (s : State) (b : Byte) : (s.wireSent b).refused = s.refused := rfl
@[simp] theorem State.wireSent_wireIn (s : State) (b : Byte) : (s.wireSent b).wireIn = s.wireIn := rfl
@[simp] theorem State.wireSent_wireOut (s : State) (b : Byte) : (s.wireSent b).wireOut = s.wireOut ++ [b] := rfl
@[simp] theorem State.wireSent_env (s : State) (b : Byte) : (s.wireSent b).env = s.env := rfl
@[simp] theorem State.wireSent_sched (s : State) (b : Byte) : (s.wireSent b).sched = s.sched := rfl
@[simp] theorem State.wireSent_result (s : State) (b : Byte) : (s.wireSent b).result = s.result := rfl

@[simp] theorem State.sendFrame_cfg (s : State) (x : FiveBytes) : (s.sendFrame x).cfg = s.cfg := rfl
@[simp] theorem State.sendFrame_blk (s : State) (x : FiveBytes) : (s.sendFrame x).blk = { s.blk with tx := s.blk.tx.pushFrame x } := rfl
@[simp] theorem State.sendFrame_nv (s : State) (x : FiveBytes) : (s.sendFrame x).nv = s.nv := rfl
@[simp] theorem State.sendFrame_refused (s : State) (x : FiveBytes) : (s.sendFrame x).refused = s.refused := rfl
@[simp] theorem State.sendFrame_wireIn (s : State) (x : FiveBytes) : (s.sendFrame x).wireIn = s.wireIn := rfl
@[simp] theorem State.sendFrame_wireOut (s : State) (x : FiveBytes) : (s.sendFrame x).wireOut = s.wireOut := rfl
@[simp] theorem State.sendFrame_env (s : State) (x : FiveBytes) : (s.sendFrame x).env = s.env := rfl
@[simp] theorem State.sendFrame_sched (s : State) (x : FiveBytes) : (s.sendFrame x).sched = s.sched := rfl
@[simp] theorem State.sendFrame_result (s : State) (x : FiveBytes) : (s.sendFrame x).result = s.result := rfl

@[simp] theorem State.blockReset_cfg (s : State) : (s.blockReset).cfg = s.cfg := rfl
@[simp] theorem State.blockReset_blk (s : State) : (s.blockReset).blk = Block.reset s.cfg := rfl
@[simp] theorem State.blockReset_nv (s : State) : (s.blockReset).nv = s.nv := rfl
@[simp] theorem State.blockReset_refused (s : State) : (s.blockReset).refused = s.refused := rfl
@[simp] theorem State.blockReset_wireIn (s : State) : (s.blockReset).wireIn = s.wireIn := rfl
@[simp] theorem State.blockReset_wireOut (s : State) : (s.blockReset).wireOut = s.wireOut := rfl
@[simp] theorem State.blockReset_env (s : State) : (s.blockReset).env = s.env := rfl
@[simp] theorem State.blockReset_sched (s : State) : (s.blockReset).sched = s.sched := rfl
@[simp] theorem State.blockReset_result (s : State) : (s.blockReset).result = .none := rfl

@[simp] theorem State.markRefused_cfg (s : State) : (markRefused s).cfg = s.cfg := rfl
@[simp] theorem State.markRefused_blk (s : State) : (markRefused s).blk = s.blk := rfl
@[simp] theorem State.markRefused_nv (s : State) : (markRefused s).nv = s.nv := rfl
@[simp] theorem State.markRefused_refused (s : State) : (markRefused s).refused = true := rfl
@[simp] theorem State.markRefused_wireIn (s : State) : (markRefused s).wireIn = s.wireIn := rfl
@[simp] theorem State.markRefused_wireOut (s : State) : (markRefused s).wireOut = s.wireOut := rfl
@[simp] theorem State.markRefused_env (s : State) : (markRefused s).env = s.env := rfl
@[simp] theorem State.markRefused_sched (s : State) : (markRefused s).sched = s.sched := rfl
@[simp] theorem State.markRefused_result (s : State) : (markRefused s).result = .none := rfl

/-! ## Register selection -/

@[simp] theorem Block.setFifo_rxOvf (b : Block) (f : FifoSel) (x : Fifo) : (b.setFifo f x).rxOvf = b.rxOvf := by
  cases f <;> rfl
@[simp] theorem Block.setFifo_stg (b : Block) (f : FifoSel) (x : Fifo) : (b.setFifo f x).stg = b.stg := by
  cases f <;> rfl
@[simp] theorem Block.setFifo_stgCount (b : Block) (f : FifoSel) (x : Fifo) : (b.setFifo f x).stgCount = b.stgCount := by
  cases f <;> rfl
@[simp] theorem Block.setFifo_frm (b : Block) (f : FifoSel) (x : Fifo) : (b.setFifo f x).frm = b.frm := by
  cases f <;> rfl
@[simp] theorem Block.setFifo_frmValid (b : Block) (f : FifoSel) (x : Fifo) : (b.setFifo f x).frmValid = b.frmValid := by
  cases f <;> rfl
@[simp] theorem Block.setFifo_pos (b : Block) (f : FifoSel) (x : Fifo) : (b.setFifo f x).pos = b.pos := by
  cases f <;> rfl
@[simp] theorem Block.setFifo_rmsValid (b : Block) (f : FifoSel) (x : Fifo) : (b.setFifo f x).rmsValid = b.rmsValid := by
  cases f <;> rfl
@[simp] theorem Block.setFifo_ch0 (b : Block) (f : FifoSel) (x : Fifo) : (b.setFifo f x).ch0 = b.ch0 := by
  cases f <;> rfl
@[simp] theorem Block.setFifo_ch1 (b : Block) (f : FifoSel) (x : Fifo) : (b.setFifo f x).ch1 = b.ch1 := by
  cases f <;> rfl
@[simp] theorem Block.setFifo_ch2 (b : Block) (f : FifoSel) (x : Fifo) : (b.setFifo f x).ch2 = b.ch2 := by
  cases f <;> rfl
@[simp] theorem Block.setFifo_mode (b : Block) (f : FifoSel) (x : Fifo) : (b.setFifo f x).mode = b.mode := by
  cases f <;> rfl
@[simp] theorem Block.setFifo_raisesNb (b : Block) (f : FifoSel) (x : Fifo) : (b.setFifo f x).raisesNb = b.raisesNb := by
  cases f <;> rfl
@[simp] theorem Block.setFifo_lowersNb (b : Block) (f : FifoSel) (x : Fifo) : (b.setFifo f x).lowersNb = b.lowersNb := by
  cases f <;> rfl
@[simp] theorem Block.setFifo_raisesSlot (b : Block) (f : FifoSel) (x : Fifo) : (b.setFifo f x).raisesSlot = b.raisesSlot := by
  cases f <;> rfl
@[simp] theorem Block.setFifo_lowersSlot (b : Block) (f : FifoSel) (x : Fifo) : (b.setFifo f x).lowersSlot = b.lowersSlot := by
  cases f <;> rfl
@[simp] theorem Block.setFifo_raisesDirty (b : Block) (f : FifoSel) (x : Fifo) : (b.setFifo f x).raisesDirty = b.raisesDirty := by
  cases f <;> rfl
@[simp] theorem Block.setFifo_lowersDirty (b : Block) (f : FifoSel) (x : Fifo) : (b.setFifo f x).lowersDirty = b.lowersDirty := by
  cases f <;> rfl
@[simp] theorem Block.setFifo_fsm (b : Block) (f : FifoSel) (x : Fifo) : (b.setFifo f x).fsm = b.fsm := by
  cases f <;> rfl
@[simp] theorem Block.setFifo_nvStatus (b : Block) (f : FifoSel) (x : Fifo) : (b.setFifo f x).nvStatus = b.nvStatus := by
  cases f <;> rfl
@[simp] theorem Block.setFifo_initDone (b : Block) (f : FifoSel) (x : Fifo) : (b.setFifo f x).initDone = b.initDone := by
  cases f <;> rfl
@[simp] theorem Block.setChan_rx (b : Block) (c : Chan) (x : ChanRegs) : (b.setChan c x).rx = b.rx := by
  cases c <;> rfl
@[simp] theorem Block.setChan_tx (b : Block) (c : Chan) (x : ChanRegs) : (b.setChan c x).tx = b.tx := by
  cases c <;> rfl
@[simp] theorem Block.setChan_rxOvf (b : Block) (c : Chan) (x : ChanRegs) : (b.setChan c x).rxOvf = b.rxOvf := by
  cases c <;> rfl
@[simp] theorem Block.setChan_stg (b : Block) (c : Chan) (x : ChanRegs) : (b.setChan c x).stg = b.stg := by
  cases c <;> rfl
@[simp] theorem Block.setChan_stgCount (b : Block) (c : Chan) (x : ChanRegs) : (b.setChan c x).stgCount = b.stgCount := by
  cases c <;> rfl
@[simp] theorem Block.setChan_frm (b : Block) (c : Chan) (x : ChanRegs) : (b.setChan c x).frm = b.frm := by
  cases c <;> rfl
@[simp] theorem Block.setChan_frmValid (b : Block) (c : Chan) (x : ChanRegs) : (b.setChan c x).frmValid = b.frmValid := by
  cases c <;> rfl
@[simp] theorem Block.setChan_pos (b : Block) (c : Chan) (x : ChanRegs) : (b.setChan c x).pos = b.pos := by
  cases c <;> rfl
@[simp] theorem Block.setChan_rmsValid (b : Block) (c : Chan) (x : ChanRegs) : (b.setChan c x).rmsValid = b.rmsValid := by
  cases c <;> rfl
@[simp] theorem Block.setChan_mode (b : Block) (c : Chan) (x : ChanRegs) : (b.setChan c x).mode = b.mode := by
  cases c <;> rfl
@[simp] theorem Block.setChan_raisesNb (b : Block) (c : Chan) (x : ChanRegs) : (b.setChan c x).raisesNb = b.raisesNb := by
  cases c <;> rfl
@[simp] theorem Block.setChan_lowersNb (b : Block) (c : Chan) (x : ChanRegs) : (b.setChan c x).lowersNb = b.lowersNb := by
  cases c <;> rfl
@[simp] theorem Block.setChan_raisesSlot (b : Block) (c : Chan) (x : ChanRegs) : (b.setChan c x).raisesSlot = b.raisesSlot := by
  cases c <;> rfl
@[simp] theorem Block.setChan_lowersSlot (b : Block) (c : Chan) (x : ChanRegs) : (b.setChan c x).lowersSlot = b.lowersSlot := by
  cases c <;> rfl
@[simp] theorem Block.setChan_raisesDirty (b : Block) (c : Chan) (x : ChanRegs) : (b.setChan c x).raisesDirty = b.raisesDirty := by
  cases c <;> rfl
@[simp] theorem Block.setChan_lowersDirty (b : Block) (c : Chan) (x : ChanRegs) : (b.setChan c x).lowersDirty = b.lowersDirty := by
  cases c <;> rfl
@[simp] theorem Block.setChan_fsm (b : Block) (c : Chan) (x : ChanRegs) : (b.setChan c x).fsm = b.fsm := by
  cases c <;> rfl
@[simp] theorem Block.setChan_nvStatus (b : Block) (c : Chan) (x : ChanRegs) : (b.setChan c x).nvStatus = b.nvStatus := by
  cases c <;> rfl
@[simp] theorem Block.setChan_initDone (b : Block) (c : Chan) (x : ChanRegs) : (b.setChan c x).initDone = b.initDone := by
  cases c <;> rfl

@[simp] theorem Block.fifo_setFifo_same (b : Block) (f : FifoSel) (x : Fifo) : (b.setFifo f x).fifo f = x := by
  cases f <;> rfl

theorem Block.fifo_setFifo_ne (b : Block) {f g : FifoSel} (x : Fifo) (h : g ≠ f) :
    (b.setFifo f x).fifo g = b.fifo g := by
  cases f <;> cases g <;> first | rfl | exact absurd rfl h

@[simp] theorem Block.chan_setFifo (b : Block) (f : FifoSel) (x : Fifo) (c : Chan) :
    (b.setFifo f x).chan c = b.chan c := by
  cases f <;> cases c <;> rfl

@[simp] theorem Block.fifo_setChan (b : Block) (c : Chan) (x : ChanRegs) (f : FifoSel) :
    (b.setChan c x).fifo f = b.fifo f := by
  cases f <;> cases c <;> rfl

@[simp] theorem Block.chan_setChan_same (b : Block) (c : Chan) (x : ChanRegs) : (b.setChan c x).chan c = x := by
  cases c <;> rfl

theorem Block.chan_setChan_ne (b : Block) {c d : Chan} (x : ChanRegs) (h : d ≠ c) :
    (b.setChan c x).chan d = b.chan d := by
  cases c <;> cases d <;> first | rfl | exact absurd rfl h

@[simp] theorem Block.fifo_rx (b : Block) : b.fifo .rx = b.rx := rfl
@[simp] theorem Block.fifo_tx (b : Block) : b.fifo .tx = b.tx := rfl
@[simp] theorem Block.chan_c0 (b : Block) : b.chan .c0 = b.ch0 := rfl
@[simp] theorem Block.chan_c1 (b : Block) : b.chan .c1 = b.ch1 := rfl
@[simp] theorem Block.chan_c2 (b : Block) : b.chan .c2 = b.ch2 := rfl
@[simp] theorem Block.setFifo_rx_rx (b : Block) (x : Fifo) : (b.setFifo .rx x).rx = x := rfl
@[simp] theorem Block.setFifo_rx_tx (b : Block) (x : Fifo) : (b.setFifo .rx x).tx = b.tx := rfl
@[simp] theorem Block.setFifo_tx_rx (b : Block) (x : Fifo) : (b.setFifo .tx x).rx = b.rx := rfl
@[simp] theorem Block.setFifo_tx_tx (b : Block) (x : Fifo) : (b.setFifo .tx x).tx = x := rfl

/-! ## Put and get -/

@[simp] theorem Fifo.push_buf (f : Fifo) (b : Byte) : (f.push b).buf = f.buf.set f.tail.toNat b f.tail.isLt := rfl
@[simp] theorem Fifo.push_head (f : Fifo) (b : Byte) : (f.push b).head = f.head := rfl
@[simp] theorem Fifo.push_tail (f : Fifo) (b : Byte) : (f.push b).tail = f.tail + 1 := rfl
@[simp] theorem Fifo.push_avail (f : Fifo) (b : Byte) : (f.push b).avail = f.avail + 1 := rfl
@[simp] theorem Fifo.push_free (f : Fifo) (b : Byte) : (f.push b).free = f.free - 1 := rfl
@[simp] theorem Fifo.pop_buf (f : Fifo) : (f.pop).buf = f.buf := rfl
@[simp] theorem Fifo.pop_head (f : Fifo) : (f.pop).head = f.head + 1 := rfl
@[simp] theorem Fifo.pop_tail (f : Fifo) : (f.pop).tail = f.tail := rfl
@[simp] theorem Fifo.pop_avail (f : Fifo) : (f.pop).avail = f.avail - 1 := rfl
@[simp] theorem Fifo.pop_free (f : Fifo) : (f.pop).free = f.free + 1 := rfl

end Sys2Proof.Machine
end

