-- ==== Sys2Proof/Laws/Encoding.lean ====
section
/-! SUPPORT. The fields of a word and of a frame as the encoder writes them. -/

namespace Sys2Proof

@[simp] theorem opField_txWord (op sel : Byte) (addr : Word16) (data : Word32) :
    opField (txWord op sel addr data) = op := by
  apply BitVec.eq_of_getLsbD_eq
  intro i hi
  simp [opField, txWord]
  grind

@[simp] theorem selField_txWord (op sel : Byte) (addr : Word16) (data : Word32) :
    selField (txWord op sel addr data) = sel := by
  apply BitVec.eq_of_getLsbD_eq
  intro i hi
  simp [selField, txWord]
  grind

@[simp] theorem addrField_txWord (op sel : Byte) (addr : Word16) (data : Word32) :
    addrField (txWord op sel addr data) = addr := by
  apply BitVec.eq_of_getLsbD_eq
  intro i hi
  simp [addrField, txWord]
  grind

@[simp] theorem dataField_txWord (op sel : Byte) (addr : Word16) (data : Word32) :
    dataField (txWord op sel addr data) = data := by
  apply BitVec.eq_of_getLsbD_eq
  intro i hi
  simp [dataField, txWord]
  grind

@[simp] theorem byteOf_setWidth (b : Byte) : byteOf (b.setWidth 32) 0 = b := by
  apply BitVec.eq_of_getLsbD_eq
  intro i hi
  simp [byteOf, hi]
  omega

@[simp] theorem byteOnly_setWidth (b : Byte) : byteOnly (b.setWidth 32) = true := by
  simp only [byteOnly, beq_iff_eq]
  apply BitVec.eq_of_getLsbD_eq
  intro i hi
  simp

theorem byteOf_four (c p1 p2 p3 : Byte) :
    byteOf (c ++ p1 ++ p2 ++ p3) 3 = c ∧ byteOf (c ++ p1 ++ p2 ++ p3) 2 = p1 ∧
      byteOf (c ++ p1 ++ p2 ++ p3) 1 = p2 ∧ byteOf (c ++ p1 ++ p2 ++ p3) 0 = p3 := by
  refine ⟨?_, ?_, ?_, ?_⟩ <;>
    (apply BitVec.eq_of_getLsbD_eq
     intro i hi
     simp [byteOf]
     try grind)

@[simp] theorem FiveBytes.ofBits_toBits (f : FiveBytes) : FiveBytes.ofBits f.toBits = f := by
  cases f
  simp only [FiveBytes.ofBits, FiveBytes.toBits, FiveBytes.mk.injEq]
  refine ⟨?_, ?_, ?_, ?_, ?_⟩ <;>
    (apply BitVec.eq_of_getLsbD_eq
     intro i hi
     simp
     try grind)

@[simp] theorem codeField_commandByte (a : Bool) (code : BitVec 7) : codeField (commandByte a code) = code := by
  apply BitVec.eq_of_getLsbD_eq
  intro i hi
  simp [codeField, commandByte]
  grind

@[simp] theorem ackBit_commandByte (a : Bool) (code : BitVec 7) : ackBit (commandByte a code) = a := by
  show (BitVec.ofBool a ++ code).getLsbD 7 = a
  rw [BitVec.getLsbD_append]
  simp

/-- A frame built from four bytes is valid (R81). -/
@[simp] theorem Machine.frameValid_ofFour (c p1 p2 p3 : Byte) :
    Machine.frameValid (FiveBytes.ofFour c p1 p2 p3) = true := by
  simp [Machine.frameValid, FiveBytes.ofFour]

end Sys2Proof
end

