-- ==== Sys2Proof/Laws/Memory.lean ====
section
/-! SUPPORT. Storage as a list of cells: what a read gives after a write, that every write keeps the canonical
form, and what the draws and device calls can do. -/

namespace Sys2Proof.Machine

/-! ## Reads after writes -/

theorem Memory.read_filter (m : Memory) (a x : Nat) :
    Memory.read (m.filter fun c => c.1 != a) x = if x = a then unlistedByte else Memory.read m x := by
  induction m with
  | nil => simp [Memory.read]
  | cons c m ih =>
    by_cases hc : c.1 = a
    · have : (c :: m).filter (fun c => c.1 != a) = m.filter fun c => c.1 != a := by simp [hc]
      rw [this, ih]
      by_cases hx : x = a
      · simp [hx]
      · have : ¬ a = x := fun h => hx h.symm
        simp [Memory.read, hc, hx, this]
    · have : (c :: m).filter (fun c => c.1 != a) = c :: m.filter fun c => c.1 != a := by simp [hc]
      rw [this]
      simp only [Memory.read]
      rw [ih]
      by_cases hx : c.1 = x
      · have : ¬ x = a := fun h => hc (hx.trans h)
        simp [hx, this]
      · simp [hx]

theorem Memory.read_insert {m : Memory} {a : Nat} (v : Byte) (h : ∀ c ∈ m, c.1 ≠ a) (x : Nat) :
    Memory.read (Memory.insert a v m) x = if x = a then v else Memory.read m x := by
  induction m with
  | nil =>
    by_cases hx : x = a
    · simp [Memory.insert, Memory.read, hx]
    · have : ¬ a = x := fun h => hx h.symm
      simp [Memory.insert, Memory.read, hx, this]
  | cons c m ih =>
    have hc : c.1 ≠ a := h c (by simp)
    have ih := ih fun d hd => h d (by simp [hd])
    by_cases hlt : a < c.1
    · by_cases hx : x = a
      · simp [Memory.insert, hlt, Memory.read, hx]
      · have : ¬ a = x := fun h => hx h.symm
        simp [Memory.insert, hlt, Memory.read, hx, this]
    · simp only [Memory.insert, hlt, if_false, Memory.read]
      rw [ih]
      by_cases hx : c.1 = x
      · have : ¬ x = a := fun h => hc (hx.trans h)
        simp [hx, this]
      · simp [hx]

/-- A read after a write: the written byte at its address, every other byte as it was. -/
theorem Memory.read_write (m : Memory) (a : Nat) (v : Byte) (x : Nat) :
    Memory.read (Memory.write m a v) x = if x = a then v else Memory.read m x := by
  unfold Memory.write
  by_cases hv : v = unlistedByte
  · simp only [hv, if_true]
    exact Memory.read_filter m a x
  · simp only [hv, if_false]
    rw [Memory.read_insert v (by intro c hc; simpa using (List.mem_filter.mp hc).2), Memory.read_filter]
    by_cases hx : x = a <;> simp [hx]

/-- A read after writing a list of bytes. -/
theorem Memory.read_writeList (m : Memory) (a : Nat) (bs : List Byte) (x : Nat) :
    Memory.read (Memory.writeList m a bs) x =
      if a ≤ x ∧ x < a + bs.length then bs.getD (x - a) 0 else Memory.read m x := by
  induction bs generalizing m a with
  | nil => simp [Memory.writeList]
  | cons b bs ih =>
    rw [Memory.writeList, ih, Memory.read_write]
    simp only [List.length_cons]
    by_cases h1 : a + 1 ≤ x ∧ x < a + 1 + bs.length
    · have h2 : a ≤ x ∧ x < a + (bs.length + 1) := by omega
      have h3 : x - a = x - (a + 1) + 1 := by omega
      simp only [h1, h2, h3, and_self, if_true, List.getD_cons_succ]
    · by_cases h2 : x = a
      · subst h2
        have h3 : x ≤ x ∧ x < x + (bs.length + 1) := by omega
        simp [h3]
      · have h3 : ¬ (a ≤ x ∧ x < a + (bs.length + 1)) := by omega
        rw [if_neg h1, if_neg h2, if_neg h3]

/-- Bytes outside the written range read as before. -/
theorem Memory.read_writeList_outside (m : Memory) {a x : Nat} {bs : List Byte}
    (h : x < a ∨ a + bs.length ≤ x) : Memory.read (Memory.writeList m a bs) x = Memory.read m x := by
  rw [Memory.read_writeList, if_neg (by omega)]

/-- Byte `i` of the written range reads as byte `i` of the list. -/
theorem Memory.read_writeList_inside (m : Memory) (a : Nat) (bs : List Byte) {i : Nat} (h : i < bs.length) :
    Memory.read (Memory.writeList m a bs) (a + i) = bs[i] := by
  rw [Memory.read_writeList, if_pos (by omega)]
  simp [h]

/-! ## The canonical form -/

theorem Memory.mem_insert {a : Nat} {v : Byte} {m : Memory} {c : Host.Cell} :
    c ∈ Memory.insert a v m ↔ c = (a, v) ∨ c ∈ m := by
  induction m with
  | nil => simp [Memory.insert]
  | cons d m ih =>
    by_cases h : a < d.1
    · simp [Memory.insert, h]
    · simp only [Memory.insert, h, if_false, List.mem_cons, ih]
      tauto

theorem Memory.insert_sorted {a : Nat} (v : Byte) {m : Memory} (h : m.Pairwise fun x y => x.1 < y.1)
    (hn : ∀ c ∈ m, c.1 ≠ a) : (Memory.insert a v m).Pairwise fun x y => x.1 < y.1 := by
  induction m with
  | nil => simp [Memory.insert]
  | cons d m ih =>
    obtain ⟨hd, hm⟩ := List.pairwise_cons.mp h
    have hda : d.1 ≠ a := hn d (by simp)
    by_cases hlt : a < d.1
    · simp only [Memory.insert, hlt, if_true]
      refine List.pairwise_cons.mpr ⟨?_, h⟩
      intro c hc
      rcases List.mem_cons.mp hc with rfl | hc
      · exact hlt
      · exact hlt.trans (hd c hc)
    · simp only [Memory.insert, hlt, if_false]
      refine List.pairwise_cons.mpr ⟨?_, ih hm fun c hc => hn c (by simp [hc])⟩
      intro c hc
      rcases Memory.mem_insert.mp hc with rfl | hc
      · show d.1 < a
        omega
      · exact hd c hc

/-- A write keeps the canonical form. -/
theorem Memory.write_wf {m : Memory} (h : Memory.wf m) (a : Nat) (v : Byte) : Memory.wf (Memory.write m a v) := by
  obtain ⟨hs, hu⟩ := h
  have hs' : (m.filter fun c => c.1 != a).Pairwise fun x y => x.1 < y.1 := hs.sublist List.filter_sublist
  have hu' : ∀ c ∈ m.filter (fun c => c.1 != a), c.2 ≠ unlistedByte :=
    fun c hc => hu c (List.mem_filter.mp hc).1
  unfold Memory.write
  by_cases hv : v = unlistedByte
  · simp only [hv, if_true]
    exact ⟨hs', hu'⟩
  · simp only [hv, if_false]
    refine ⟨Memory.insert_sorted v hs' (by intro c hc; simpa using (List.mem_filter.mp hc).2), ?_⟩
    intro c hc
    rcases Memory.mem_insert.mp hc with rfl | hc
    · exact hv
    · exact hu' c hc

/-- Writing a list of bytes keeps the canonical form. -/
theorem Memory.writeList_wf {m : Memory} (h : Memory.wf m) (a : Nat) (bs : List Byte) :
    Memory.wf (Memory.writeList m a bs) := by
  induction bs generalizing m a with
  | nil => exact h
  | cons b bs ih => exact ih (Memory.write_wf h a b) (a + 1)

/-! ## Storage bytes by offset -/

theorem State.nvByte_setNvBytes_outside (s : State) {off x : Nat} {bs : List Byte}
    (h : x < off ∨ off + bs.length ≤ x) : (s.setNvBytes off bs).nvByte x = s.nvByte x := by
  simp only [State.nvByte, State.setNvBytes_nv, State.setNvBytes_cfg]
  exact Memory.read_writeList_outside _ (by omega)

theorem State.nvByte_setNvBytes_inside (s : State) (off : Nat) (bs : List Byte) {i : Nat} (h : i < bs.length) :
    (s.setNvBytes off bs).nvByte (off + i) = bs[i] := by
  simp only [State.nvByte, State.setNvBytes_nv, State.setNvBytes_cfg, ← Nat.add_assoc]
  exact Memory.read_writeList_inside _ _ _ h

@[simp] theorem State.nvBytes_length (s : State) (off n : Nat) : (s.nvBytes off n).length = n := by
  simp [State.nvBytes]

theorem State.nvBytes_getElem (s : State) (off n i : Nat) (h : i < (s.nvBytes off n).length) :
    (s.nvBytes off n)[i] = s.nvByte (off + i) := by
  simp [State.nvBytes]

/-! ## Draws and device calls -/

@[simp] theorem Env.drawBytes_length (e : Env) (n : Nat) : (e.drawBytes n).1.length = n := by
  induction n generalizing e with
  | zero => rfl
  | succ n ih => simp [Env.drawBytes, ih]

/-- What a step of the write sequencer leaves alone, and where storage may differ. -/
def DeviceFrame (s t : State) (base : Nat) : Prop :=
  OutsideSame s t ∧ t.blk = s.blk ∧ t.result = s.result ∧ (Memory.wf s.nv → Memory.wf t.nv) ∧
    StorageSameOutside s t base s.cfg.eu

theorem DeviceFrame.refl (s : State) (base : Nat) : DeviceFrame s s base :=
  ⟨⟨rfl, rfl, rfl, rfl, rfl⟩, rfl, rfl, id, fun _ _ => rfl⟩

theorem DeviceFrame.trans {s t u : State} {base : Nat} (h : DeviceFrame s t base) (k : DeviceFrame t u base) :
    DeviceFrame s u base := by
  obtain ⟨⟨a1, a2, a3, a4, a5⟩, b, c, d, e⟩ := h
  obtain ⟨⟨a1', a2', a3', a4', a5'⟩, b', c', d', e'⟩ := k
  refine ⟨⟨a1'.trans a1, a2'.trans a2, a3'.trans a3, a4'.trans a4, a5'.trans a5⟩, b'.trans b, c'.trans c,
    fun w => d' (d w), ?_⟩
  intro x hx
  rw [e' x (by rw [a1]; exact hx), e x hx]

/-- Writing the bytes of the unit, after draws, stays in the frame. -/
theorem DeviceFrame.ofWrite (s : State) (e : Env) (base : Nat) {bs : List Byte} (h : bs.length = s.cfg.eu) :
    DeviceFrame s ((s.setEnv e).setNvBytes base bs) base := by
  refine ⟨⟨rfl, rfl, rfl, rfl, rfl⟩, rfl, rfl, fun w => Memory.writeList_wf w _ _, ?_⟩
  intro x hx
  simp only [State.setNvBytes_nv, State.setEnv_nv, State.setEnv_cfg]
  exact Memory.read_writeList_outside _ (by omega)

theorem State.scrambleUnit_frame (s : State) (base : Nat) : DeviceFrame s (s.scrambleUnit base) base :=
  DeviceFrame.ofWrite s _ base (by simp)

/-- After a scramble, byte `i` of the unit is the `i`-th `AnyByte()` drawn. -/
theorem State.scrambleUnit_byte (s : State) (base : Nat) {i : Nat} (h : i < s.cfg.eu) :
    (s.scrambleUnit base).nvByte (base + i) = (s.env.drawBytes s.cfg.eu).1[i]'(by simpa using h) :=
  State.nvByte_setNvBytes_inside _ _ _ _

theorem DeviceFrame.ofEnv (s : State) (e : Env) (base : Nat) : DeviceFrame s (s.setEnv e) base :=
  ⟨⟨rfl, rfl, rfl, rfl, rfl⟩, rfl, rfl, id, fun _ _ => rfl⟩

/-- What `DevErase` can do (R206). -/
theorem State.devErase_spec (s : State) (base : Nat) :
    DeviceFrame s (s.devErase base).2 base ∧
      (s.devErase base).1 = s.env.drawDev.1 ∧
      (s.env.drawDev.1 = true → (s.devErase base).2.env = s.env.drawDev.2) ∧
      (s.env.drawDev.1 = false → (s.devErase base).2 = (s.setEnv s.env.drawDev.2).scrambleUnit base) := by
  by_cases h : s.env.drawDev.1 = true
  · simp only [State.devErase, h, if_true]
    exact ⟨DeviceFrame.ofWrite s _ base (by simp), trivial, fun _ => rfl, fun hf => absurd hf (by simp)⟩
  · simp only [Bool.not_eq_true] at h
    simp only [State.devErase, h]
    exact ⟨(DeviceFrame.ofEnv s _ base).trans (State.scrambleUnit_frame _ base), rfl, fun hf => absurd hf (by simp),
      fun _ => rfl⟩

/-- What `DevProgram` can do (R207). -/
theorem State.devProgram_spec (s : State) (base : Nat) {bytes : List Byte} (hl : bytes.length = s.cfg.eu) :
    DeviceFrame s (s.devProgram base bytes).2 base ∧
      (s.devProgram base bytes).1 = s.env.drawDev.1 ∧
      (s.env.drawDev.1 = true → ∀ i (h : i < bytes.length),
        (s.devProgram base bytes).2.nvByte (base + i) = bytes[i]) ∧
      (s.env.drawDev.1 = false → (s.devProgram base bytes).2 = (s.setEnv s.env.drawDev.2).scrambleUnit base) := by
  by_cases h : s.env.drawDev.1 = true
  · simp only [State.devProgram, h, if_true]
    exact ⟨DeviceFrame.ofWrite s _ base hl, trivial, fun _ i hi => State.nvByte_setNvBytes_inside _ _ _ hi,
      fun hf => absurd hf (by simp)⟩
  · simp only [Bool.not_eq_true] at h
    simp only [State.devProgram, h]
    exact ⟨(DeviceFrame.ofEnv s _ base).trans (State.scrambleUnit_frame _ base), rfl, fun hf => absurd hf (by simp),
      fun _ => rfl⟩

end Sys2Proof.Machine
end

