-- ==== Sys2Proof/Laws/Ops.lean ====
section
/-! SUPPORT. What each shared operation can do, said once: ending a transaction, the boot gate, the FIFO
operations, the write sequencer, the allocator, the command frame, the relay evaluation. -/

namespace Sys2Proof.Machine

/-! ## Ending a transaction -/

theorem hold_next {s t : State} (h : hold s = .next t) : t = { s with result := .held } := by
  simpa [hold] using h.symm

theorem finish_next {r : Result} {s t : State} (h : finish r s = .next t) : t = { s with result := r } := by
  simpa [finish] using h.symm

/-- The boot gate: either the block is not initialized and the transaction holds, or it runs. -/
theorem gated_next {k : State → Out} {s t : State} (h : gated k s = .next t) :
    (s.blk.initDone = false ∧ t = { s with result := .held }) ∨ (s.blk.initDone = true ∧ k s = .next t) := by
  by_cases hi : s.blk.initDone = true
  · exact .inr ⟨hi, by simpa [gated, hi] using h⟩
  · rw [Bool.not_eq_true] at hi
    exact .inl ⟨hi, hold_next (by simpa [gated, hi] using h)⟩

theorem gated_ready {k : State → Out} {s : State} (h : s.blk.initDone = true) : gated k s = k s := by
  simp [gated, h]

theorem gated_boot {k : State → Out} {s : State} (h : s.blk.initDone = false) :
    gated k s = .next { s with result := .held } := by
  simp [gated, h, hold]

/-! ## FIFO -/

/-- A put with a free slot keeps the FIFO invariant. -/
theorem Fifo.push_wf {f : Fifo} (h : f.wf) (hf : f.free ≠ 0) (b : Byte) : (f.push b).wf := by
  obtain ⟨h1, h2⟩ := h
  have h3 : f.free.toNat ≠ 0 := fun h => hf (BitVec.eq_of_toNat_eq (by simpa using h))
  constructor
  · simp only [Fifo.push_avail, Fifo.push_free, BitVec.toNat_add, BitVec.toNat_sub, BitVec.ofNat_eq_ofNat, BitVec.toNat_ofNat]
    omega
  · simp only [Fifo.push_avail, Fifo.push_tail, Fifo.push_head, BitVec.toNat_add, BitVec.ofNat_eq_ofNat, BitVec.toNat_ofNat]
    omega

/-- A get from a FIFO that holds a byte keeps the FIFO invariant. -/
theorem Fifo.pop_wf {f : Fifo} (h : f.wf) (hf : f.avail ≠ 0) : f.pop.wf := by
  obtain ⟨h1, h2⟩ := h
  have h3 : f.avail.toNat ≠ 0 := fun h => hf (BitVec.eq_of_toNat_eq (by simpa using h))
  constructor
  · simp only [Fifo.pop_avail, Fifo.pop_free, BitVec.toNat_add, BitVec.toNat_sub, BitVec.ofNat_eq_ofNat, BitVec.toNat_ofNat]
    omega
  · simp only [Fifo.pop_avail, Fifo.pop_tail, Fifo.pop_head, BitVec.toNat_add, BitVec.toNat_sub,
      BitVec.ofNat_eq_ofNat, BitVec.toNat_ofNat]
    omega

/-- A put takes one unit of `free` (R112). -/
theorem Fifo.push_free_toNat {f : Fifo} (h : f.free ≠ 0) (b : Byte) : (f.push b).free.toNat = f.free.toNat - 1 := by
  have h3 : f.free.toNat ≠ 0 := fun h' => h (BitVec.eq_of_toNat_eq (by simpa using h'))
  simp only [Fifo.push_free, BitVec.toNat_sub, BitVec.ofNat_eq_ofNat, BitVec.toNat_ofNat]
  omega

/-- A frame of five bytes keeps the FIFO invariant when five slots are free. -/
theorem Fifo.pushFrame_wf {f : Fifo} (h : f.wf) (hf : 5 ≤ f.free.toNat) (x : FiveBytes) : (f.pushFrame x).wf := by
  have step : ∀ (g : Fifo) (n : Nat) (b : Byte), g.wf → n + 1 ≤ g.free.toNat →
      (g.push b).wf ∧ n ≤ (g.push b).free.toNat := by
    intro g n b hg hn
    have hne : g.free ≠ 0 := fun h0 => by simp [h0] at hn
    refine ⟨Fifo.push_wf hg hne b, ?_⟩
    rw [Fifo.push_free_toNat hne]
    omega
  obtain ⟨h1, f1⟩ := step f 4 x.b0 h hf
  obtain ⟨h2, f2⟩ := step _ 3 x.b1 h1 f1
  obtain ⟨h3, f3⟩ := step _ 2 x.b2 h2 f2
  obtain ⟨h4, f4⟩ := step _ 1 x.b3 h3 f3
  exact (step _ 0 x.b4 h4 f4).1

/-! ## Write sequencer -/

@[simp] theorem mergeBytes_length (old : List Byte) (k w : Nat) (v : Word32) :
    (mergeBytes old k w v).length = old.length := by
  simp [mergeBytes]

theorem mergeBytes_getElem (old : List Byte) (k w : Nat) (v : Word32) (i : Nat)
    (h : i < (mergeBytes old k w v).length) :
    (mergeBytes old k w v)[i] = if k ≤ i ∧ i < k + w then byteOf v (i - k) else old[i]'(by simpa using h) := by
  simp [mergeBytes]

/-- What one read-merge-erase-program sequence can do (R204 to R207): it stays in its erase unit; it answers ok
exactly when both device calls do, and then the unit holds the merged bytes. -/
theorem State.nvSequence_spec (s : State) (w off : Nat) (val : Word32) :
    DeviceFrame s (s.nvSequence w off val).2 (unitBase s.cfg off) ∧
      ((s.nvSequence w off val).1 = .ok ∨ (s.nvSequence w off val).1 = .programFailure) ∧
      ((s.nvSequence w off val).1 = .ok ↔ DeviceOk s) ∧
      (DeviceOk s → ∀ i (h : i < (mergeBytes (s.nvBytes (unitBase s.cfg off) s.cfg.eu)
          (off - unitBase s.cfg off) w val).length),
        (s.nvSequence w off val).2.nvByte (unitBase s.cfg off + i) =
          (mergeBytes (s.nvBytes (unitBase s.cfg off) s.cfg.eu) (off - unitBase s.cfg off) w val)[i]) := by
  obtain ⟨e1, e2, e3, e4⟩ := State.devErase_spec s (unitBase s.cfg off)
  have hcfg : (s.devErase (unitBase s.cfg off)).2.cfg = s.cfg := e1.1.1
  obtain ⟨p1, p2, p3, p4⟩ := State.devProgram_spec (s.devErase (unitBase s.cfg off)).2 (unitBase s.cfg off)
    (bytes := mergeBytes (s.nvBytes (unitBase s.cfg off) s.cfg.eu) (off - unitBase s.cfg off) w val)
    (by simp [hcfg])
  unfold State.nvSequence DeviceOk
  simp only
  by_cases he : s.env.drawDev.1 = true
  · rw [e2, he]
    simp only [if_true, true_and]
    rw [e3 he] at p2 p3
    rw [p2]
    refine ⟨e1.trans p1, ?_, ?_, fun hp => p3 hp⟩
    · cases s.env.drawDev.2.drawDev.1 <;> simp
    · cases s.env.drawDev.2.drawDev.1 <;> simp
  · rw [Bool.not_eq_true] at he
    rw [e2, he]
    simp [e1]

/-- What NV_WRITE as an operation can do (R203, R208). -/
theorem State.nvWrite_spec (s : State) (w off : Nat) (val : Word32) :
    OutsideSame s (s.nvWrite w off val).2 ∧
      (s.nvWrite w off val).2.blk = { s.blk with nvStatus := (s.nvWrite w off val).1 } ∧
      (s.nvWrite w off val).1 ≠ .full ∧
      (Memory.wf s.nv → Memory.wf (s.nvWrite w off val).2.nv) ∧
      StorageSameOutside s (s.nvWrite w off val).2 (unitBase s.cfg off) s.cfg.eu := by
  unfold State.nvWrite
  cases hc : nvCheck s.cfg w off with
  | some st =>
    refine ⟨⟨rfl, rfl, rfl, rfl, rfl⟩, rfl, ?_, id, fun _ _ => rfl⟩
    intro hf
    simp only at hf
    subst hf
    unfold nvCheck at hc
    split at hc
    · simp at hc
    · split at hc
      · simp at hc
      · split at hc <;> simp at hc
  | none =>
    obtain ⟨⟨ho, hb, -, hw, hs⟩, hst, -, -⟩ := State.nvSequence_spec s w off val
    refine ⟨ho, ?_, ?_, hw, hs⟩
    · simp [hb]
    · intro hf
      simp only at hf
      rcases hst with h | h <;> rw [h] at hf <;> cases hf

/-! ## Allocator -/

@[simp] theorem markUsed_length (fsm : List Bool) (n a : Nat) : (markUsed fsm n a).length = fsm.length := by
  simp [markUsed]

theorem markUsed_getElem (fsm : List Bool) (n a i : Nat) (h : i < (markUsed fsm n a).length) :
    (markUsed fsm n a)[i] = (fsm[i]'(by simpa using h) || (a ≤ i && i < a + n)) := by
  simp [markUsed]

theorem freeRun_iff (fsm : List Bool) (n a : Nat) :
    freeRun fsm n a = true ↔ ∀ i < n, fsm[a + i]? = some false := by
  simp [freeRun]

/-- What the scan of R200 finds: the lowest aligned candidate that fits and is free. -/
theorem firstFit_some {p : Params} {fsm : List Bool} {size a : Nat} (h : firstFit p fsm size = some a) :
    a % size = 0 ∧ a + size ≤ p.nvsSize ∧ freeRun fsm size a = true := by
  have hp := List.find?_some h
  obtain ⟨k, hk, rfl⟩ := List.mem_map.mp (List.mem_of_find?_eq_some h)
  refine ⟨by simp, ?_, hp⟩
  have hk : k < p.nvsSize / size := List.mem_range.mp hk
  have h1 := Nat.mul_le_mul_right size (Nat.succ_le_of_lt hk)
  have h2 := Nat.div_mul_le_self p.nvsSize size
  rw [Nat.succ_mul] at h1
  omega

/-- What ALLOC can do to the block registers (R200). -/
theorem allocBlock_spec (p : Params) (size : Nat) (b : Block) :
    (∃ a, legalWidth size = true ∧ firstFit p b.fsm size = some a ∧
        allocBlock p size b =
          (.ok (BitVec.ofNat 16 a), { b with fsm := markUsed b.fsm size a, nvStatus := .ok })) ∨
      (legalWidth size = true ∧ firstFit p b.fsm size = none ∧
        allocBlock p size b = (.fail .outOfSpace, { b with nvStatus := .outOfSpace })) ∨
      (legalWidth size = false ∧ allocBlock p size b = (.fail .badSize, { b with nvStatus := .badSize })) := by
  unfold allocBlock
  by_cases hl : legalWidth size = true
  · cases hf : firstFit p b.fsm size with
    | some a => exact .inl ⟨a, hl, rfl, by simp [hl]⟩
    | none => exact .inr (.inl ⟨hl, rfl, by simp [hl]⟩)
  · rw [Bool.not_eq_true] at hl
    exact .inr (.inr ⟨hl, by simp [hl]⟩)

/-! ## Commands -/

/-- What handling a frame can do (R230): hold, or execute and answer. -/
theorem runCommand_next {a : Bool} {code : BitVec 7} {f : State → Reply × State} {s t : State}
    (h : runCommand a code f s = .next t) :
    t = { s with result := .held } ∨
      (s.blk.initDone = true ∧ (a = true → 5 ≤ s.blk.tx.free.toNat) ∧
        ∃ r u, f (s.setBlk { s.blk with frmValid := false }) = (r, u) ∧
          t = { (if a then u.sendFrame (FiveBytes.ofFour (commandByte r.ok code) r.r1 r.r2 r.r3) else u) with
            result := .none }) := by
  rcases gated_next h with ⟨-, rfl⟩ | ⟨hi, h⟩
  · exact .inl rfl
  · by_cases hr : (a && txNoRoom s.blk) = true
    · exact .inl (hold_next (by simpa [hr] using h))
    · refine .inr ⟨hi, ?_, (f (s.setBlk { s.blk with frmValid := false })).1,
        (f (s.setBlk { s.blk with frmValid := false })).2, rfl, ?_⟩
      · intro ha
        simpa [ha, txNoRoom] using hr
      · exact finish_next (by simpa only [if_neg hr] using h)

/-- Handling a frame when the command is ready (R230). -/
theorem runCommand_ready {a : Bool} {code : BitVec 7} {f : State → Reply × State} {s : State}
    (h : CommandReady a s) :
    runCommand a code f s = finish .none
      (if a then (f (s.setBlk { s.blk with frmValid := false })).2.sendFrame
          (FiveBytes.ofFour (commandByte (f (s.setBlk { s.blk with frmValid := false })).1.ok code)
            (f (s.setBlk { s.blk with frmValid := false })).1.r1
            (f (s.setBlk { s.blk with frmValid := false })).1.r2
            (f (s.setBlk { s.blk with frmValid := false })).1.r3)
        else (f (s.setBlk { s.blk with frmValid := false })).2) := by
  have hr : ¬ (a && txNoRoom s.blk) = true := by
    intro hr
    rw [Bool.and_eq_true] at hr
    have := h.2 hr.1
    have := hr.2
    simp only [txNoRoom, decide_eq_true_eq] at this
    omega
  unfold runCommand
  rw [gated_ready h.1, if_neg hr]

/-- What the storage part of a counter reset can do (R235). -/
theorem State.storeZero_spec (s : State) (slot : Slot) :
    OutsideSame s (s.storeZero slot).2 ∧
      (∃ st, st ≠ .full ∧ (s.storeZero slot).2.blk = { s.blk with nvStatus := st } ∨
        (s.storeZero slot).2.blk = s.blk) ∧
      (Memory.wf s.nv → Memory.wf (s.storeZero slot).2.nv) ∧
      StorageSameOutside s (s.storeZero slot).2 (unitBase s.cfg slot.off.toNat) s.cfg.eu := by
  unfold State.storeZero
  by_cases hv : slot.valid = true
  · obtain ⟨h1, h2, h3, h4, h5⟩ := State.nvWrite_spec s 2 slot.off.toNat 0
    simp only [hv, if_true]
    exact ⟨h1, ⟨_, .inl ⟨h3, h2⟩⟩, h4, h5⟩
  · simp only [hv]
    exact ⟨⟨rfl, rfl, rfl, rfl, rfl⟩, ⟨.ok, .inr rfl⟩, id, fun _ _ => rfl⟩

/-! ## Agents -/

/-- When RECV is enabled (R270). -/
theorem agentEnabled_recv (p : Params) (b : Block) :
    agentEnabled p b .recv = true ↔ b.initDone = true ∧ b.frmValid = false ∧ b.rx.avail ≠ 0 := by
  simp [agentEnabled, and_assoc]

/-- When PKT is enabled (R270). -/
theorem agentEnabled_pkt (p : Params) (b : Block) :
    agentEnabled p b .pkt = true ↔
      b.initDone = true ∧ b.frmValid = true ∧ (ackBit b.frm.b0 = true → 5 ≤ b.tx.free.toNat) := by
  simp only [agentEnabled, txNoRoom, Bool.and_eq_true, Bool.not_eq_true', Bool.and_eq_false_iff, and_assoc]
  cases ackBit b.frm.b0 <;> simp

/-- When SIGOUT is enabled (R270). -/
theorem agentEnabled_sigout (p : Params) (b : Block) :
    agentEnabled p b .sigout = true ↔ b.initDone = true ∧ (b.raisesDirty = true ∨ b.lowersDirty = true) := by
  simp [agentEnabled]

/-! ## Relay -/

/-- The registers of channel `c` that RELAY_EVAL does not write, and the other channels, stay (R175). -/
structure RelayFrame (c : Chan) (b b' : Block) : Prop where
  other : ∀ d, d ≠ c → b'.chan d = b.chan d
  win : (b'.chan c).win = (b.chan c).win
  rms : (b'.chan c).rms = (b.chan c).rms
  alarm : (b'.chan c).voltageAlarm = (b.chan c).voltageAlarm
  rest : ∃ rn ln rd ld, { b' with ch0 := b.ch0, ch1 := b.ch1, ch2 := b.ch2 } =
    { b with raisesNb := rn, lowersNb := ln, raisesDirty := rd, lowersDirty := ld }
  raises : (b'.raisesNb = b.raisesNb ∧ b'.raisesDirty = b.raisesDirty) ∨
    (b.raisesSlot.valid = true ∧ b'.raisesNb = b.raisesNb + 1 ∧ b'.raisesDirty = true)
  lowers : (b'.lowersNb = b.lowersNb ∧ b'.lowersDirty = b.lowersDirty) ∨
    (b.lowersSlot.valid = true ∧ b'.lowersNb = b.lowersNb + 1 ∧ b'.lowersDirty = true)

theorem RelayFrame.refl (c : Chan) (b : Block) : RelayFrame c b b :=
  ⟨fun _ _ => rfl, rfl, rfl, rfl, ⟨_, _, _, _, rfl⟩, .inl ⟨rfl, rfl⟩, .inl ⟨rfl, rfl⟩⟩

theorem RelayFrame.setChan (c : Chan) (b : Block) {x : ChanRegs} (h1 : x.win = (b.chan c).win)
    (h2 : x.rms = (b.chan c).rms) (h3 : x.voltageAlarm = (b.chan c).voltageAlarm) :
    RelayFrame c b (b.setChan c x) := by
  refine ⟨fun d hd => b.chan_setChan_ne x hd, by simpa using h1, by simpa using h2, by simpa using h3, ?_,
    .inl ⟨by simp, by simp⟩, .inl ⟨by simp, by simp⟩⟩
  exact ⟨b.raisesNb, b.lowersNb, b.raisesDirty, b.lowersDirty, by cases c <;> rfl⟩

theorem RelayFrame.setChan_countTrip (c : Chan) (b : Block) (d : TripDir) {x : ChanRegs}
    (h1 : x.win = (b.chan c).win) (h2 : x.rms = (b.chan c).rms)
    (h3 : x.voltageAlarm = (b.chan c).voltageAlarm) : RelayFrame c b (countTrip d (b.setChan c x)) := by
  have h := RelayFrame.setChan c b h1 h2 h3
  cases d with
  | raise =>
    unfold countTrip
    by_cases hv : b.raisesSlot.valid = true
    · simp only [Block.setChan_raisesSlot, hv, if_true]
      refine ⟨fun d hd => ?_, ?_, ?_, ?_, ?_, .inr ⟨hv, by simp, rfl⟩, .inl ⟨by simp, by simp⟩⟩
      · rw [← h.other d hd]
        cases d <;> rfl
      · rw [← h.win]
        cases c <;> rfl
      · rw [← h.rms]
        cases c <;> rfl
      · rw [← h.alarm]
        cases c <;> rfl
      · exact ⟨b.raisesNb + 1, b.lowersNb, true, b.lowersDirty, by cases c <;> rfl⟩
    · simpa [hv] using h
  | lower =>
    unfold countTrip
    by_cases hv : b.lowersSlot.valid = true
    · simp only [Block.setChan_lowersSlot, hv, if_true]
      refine ⟨fun d hd => ?_, ?_, ?_, ?_, ?_, .inl ⟨by simp, by simp⟩, .inr ⟨hv, by simp, rfl⟩⟩
      · rw [← h.other d hd]
        cases d <;> rfl
      · rw [← h.win]
        cases c <;> rfl
      · rw [← h.rms]
        cases c <;> rfl
      · rw [← h.alarm]
        cases c <;> rfl
      · exact ⟨b.raisesNb, b.lowersNb + 1, b.raisesDirty, true, by cases c <;> rfl⟩
    · simpa [hv] using h

/-- The cases of one evaluation (R175 to R180), each with the block it leaves. -/
theorem relayEval_cases (p : Params) (c : Chan) (m : Mode) (b : Block) :
    (relayEval p c m b = b ∧ (b.chan c).st ≠ .outrange) ∨
      ((b.chan c).st = .normal ∧ inBand p (bandValue p b c m) = false ∧
        relayEval p c m b = b.setChan c { b.chan c with
          st := .outrange, timerCount := 0, timerDelay := delayFor p m (bandValue p b c m) }) ∨
      ((b.chan c).st ≠ .normal ∧ inBand p (bandValue p b c m) = true ∧ relayEval p c m b = relayReturn c b) ∨
      ((b.chan c).st = .outrange ∧ inBand p (bandValue p b c m) = false ∧
        relayEval p c m b = relayCount p c m (bandValue p b c m) b) := by
  cases hst : (b.chan c).st <;> cases hv : inBand p (bandValue p b c m) <;>
    simp [relayEval, hst, hv, relayNormal]

/-- What RELAY_EVAL leaves alone, whatever it does. -/
theorem relayEval_frame (p : Params) (c : Chan) (m : Mode) (b : Block) : RelayFrame c b (relayEval p c m b) := by
  rcases relayEval_cases p c m b with ⟨h, -⟩ | ⟨-, -, h⟩ | ⟨-, -, h⟩ | ⟨-, -, h⟩ <;> rw [h]
  · exact RelayFrame.refl c b
  · exact RelayFrame.setChan c b rfl rfl rfl
  · exact RelayFrame.setChan c b rfl rfl rfl
  · unfold relayCount
    simp only
    split
    · have hset : ∀ x y : ChanRegs, (b.setChan c x).setChan c y = b.setChan c y := by
        intro x y
        cases c <;> rfl
      unfold relayTrip
      split
      · rw [hset]
        exact RelayFrame.setChan_countTrip c b _ (by simp) (by simp) (by simp)
      · rw [hset]
        exact RelayFrame.setChan_countTrip c b _ (by simp) (by simp) (by simp)
    · exact RelayFrame.setChan c b rfl rfl rfl

/-- The relay invariant of the channel is kept (R183). -/
theorem relayEval_chan_wf {p : Params} {c : Chan} {m : Mode} {b : Block} (h : (b.chan c).wf) :
    ((relayEval p c m b).chan c).wf := by
  obtain ⟨h1, h2, h3, h4⟩ := h
  rcases relayEval_cases p c m b with ⟨h, -⟩ | ⟨hs, -, h⟩ | ⟨-, -, h⟩ | ⟨hs, -, h⟩ <;> rw [h]
  · exact ⟨h1, h2, h3, h4⟩
  · rw [hs] at h1 h2
    simpa [ChanRegs.wf, h4] using ⟨by simpa using h1, by simpa using h2⟩
  · simp [ChanRegs.wf, relayReturn, h4]
  · rw [hs] at h1 h2
    have ht : ∀ d (b' : Block), (countTrip d b').chan c = b'.chan c := by
      intro d b'
      unfold countTrip
      cases d <;> simp only <;> split <;> cases c <;> rfl
    unfold relayCount
    simp only
    split
    · unfold relayTrip
      split <;> simp [ht, ChanRegs.wf, h4]
    · simpa [ChanRegs.wf, hs, h4] using ⟨by simpa using h1, by simpa using h2⟩

end Sys2Proof.Machine
end

