-- ==== Sys2Proof/Laws/PerInstr.lean ====
section
/-! SUPPORT. The family of statements made once per instruction: the encoding carries the fixed part of the
instruction's row in spec/opcode_table.json (OP of a word; acknowledge bit, code and checksum of a frame). -/

namespace Sys2Proof.Laws.EncodedHead

open Sys2Proof Sys2Proof.Machine

/-- The OP value of a transaction (spec/30_encoding.md R91); a frame command has none. -/
def opcode : Instr → Byte
  | .put _ _ => 0x01
  | .tryput _ _ => 0x02
  | .get _ => 0x03
  | .rxByte _ => 0x10
  | .txReady => 0x11
  | .syncStep => 0x12
  | .dispatch => 0x13
  | .encodeFrame _ _ _ _ => 0x14
  | .tick => 0x20
  | .rmsLatch _ => 0x21
  | .relayEval _ _ => 0x22
  | .alloc _ => 0x30
  | .nvWrite _ _ _ => 0x31
  | .persist => 0x32
  | .init => 0x3F
  | .getTiming _ _ _ _ | .setTiming _ _ _ _ | .getRaises _ _ _ _ | .resetRaises _ _ _ _
  | .getLowers _ _ _ _ | .resetLowers _ _ _ _ | .queryFreq _ _ _ _ | .queryVolt _ _ _ _
  | .querySpectrum _ _ _ _ | .cmdUnknown _ _ _ _ _ => 0

/-- A transaction's word carries its OP; a command's frame carries its acknowledge bit and its code and is
valid. -/
def Statement (i : Instr) : Prop :=
  ∀ k : CmdCodes,
    match commandHead k i with
    | none => ∃ w, encode k i = .word w ∧ opField w = opcode i
    | some (a, code) =>
      ∃ w, encode k i = .frame w ∧ ackBit (FiveBytes.ofBits w).b0 = a ∧
        codeField (FiveBytes.ofBits w).b0 = code ∧ frameValid (FiveBytes.ofBits w) = true

/-- What the encoder writes for a request. -/
theorem requestFrame_head (a : Bool) (code : BitVec 7) (p1 p2 p3 : Byte) :
    ∃ w, requestFrame a code p1 p2 p3 = .frame w ∧ ackBit (FiveBytes.ofBits w).b0 = a ∧
      codeField (FiveBytes.ofBits w).b0 = code ∧ frameValid (FiveBytes.ofBits w) = true :=
  ⟨_, rfl, by simp [FiveBytes.ofFour], by simp [FiveBytes.ofFour], by simp⟩

theorem put (f : FifoSel) (b : Byte) : Statement (.put f b) := fun _ => ⟨_, rfl, opField_txWord _ _ _ _⟩
theorem tryput (f : FifoSel) (b : Byte) : Statement (.tryput f b) := fun _ => ⟨_, rfl, opField_txWord _ _ _ _⟩
theorem get (f : FifoSel) : Statement (.get f) := fun _ => ⟨_, rfl, opField_txWord _ _ _ _⟩
theorem rxByte (b : Byte) : Statement (.rxByte b) := fun _ => ⟨_, rfl, opField_txWord _ _ _ _⟩
theorem txReady : Statement (.txReady) := fun _ => ⟨_, rfl, opField_txWord _ _ _ _⟩
theorem syncStep : Statement (.syncStep) := fun _ => ⟨_, rfl, opField_txWord _ _ _ _⟩
theorem dispatch : Statement (.dispatch) := fun _ => ⟨_, rfl, opField_txWord _ _ _ _⟩
theorem encodeFrame (c : Byte) (p1 : Byte) (p2 : Byte) (p3 : Byte) : Statement (.encodeFrame c p1 p2 p3) := fun _ => ⟨_, rfl, opField_txWord _ _ _ _⟩
theorem tick : Statement (.tick) := fun _ => ⟨_, rfl, opField_txWord _ _ _ _⟩
theorem rmsLatch (c : Chan) : Statement (.rmsLatch c) := fun _ => ⟨_, rfl, opField_txWord _ _ _ _⟩
theorem relayEval (c : Chan) (m : Mode) : Statement (.relayEval c m) := fun _ => ⟨_, rfl, opField_txWord _ _ _ _⟩
theorem alloc (size : Byte) : Statement (.alloc size) := fun _ => ⟨_, rfl, opField_txWord _ _ _ _⟩
theorem nvWrite (w : Byte) (off : Word16) (v : Word32) : Statement (.nvWrite w off v) := fun _ => ⟨_, rfl, opField_txWord _ _ _ _⟩
theorem persist : Statement (.persist) := fun _ => ⟨_, rfl, opField_txWord _ _ _ _⟩
theorem init : Statement (.init) := fun _ => ⟨_, rfl, opField_txWord _ _ _ _⟩
theorem getTiming (a : Bool) (p1 p2 p3 : Byte) : Statement (.getTiming a p1 p2 p3) := fun _ => requestFrame_head _ _ _ _ _
theorem setTiming (a : Bool) (p1 p2 p3 : Byte) : Statement (.setTiming a p1 p2 p3) := fun _ => requestFrame_head _ _ _ _ _
theorem getRaises (a : Bool) (p1 p2 p3 : Byte) : Statement (.getRaises a p1 p2 p3) := fun _ => requestFrame_head _ _ _ _ _
theorem resetRaises (a : Bool) (p1 p2 p3 : Byte) : Statement (.resetRaises a p1 p2 p3) := fun _ => requestFrame_head _ _ _ _ _
theorem getLowers (a : Bool) (p1 p2 p3 : Byte) : Statement (.getLowers a p1 p2 p3) := fun _ => requestFrame_head _ _ _ _ _
theorem resetLowers (a : Bool) (p1 p2 p3 : Byte) : Statement (.resetLowers a p1 p2 p3) := fun _ => requestFrame_head _ _ _ _ _
theorem queryFreq (a : Bool) (p1 p2 p3 : Byte) : Statement (.queryFreq a p1 p2 p3) := fun _ => requestFrame_head _ _ _ _ _
theorem queryVolt (a : Bool) (p1 p2 p3 : Byte) : Statement (.queryVolt a p1 p2 p3) := fun _ => requestFrame_head _ _ _ _ _
theorem querySpectrum (a : Bool) (p1 p2 p3 : Byte) : Statement (.querySpectrum a p1 p2 p3) := fun _ => requestFrame_head _ _ _ _ _
theorem cmdUnknown (a : Bool) (code : BitVec 7) (p1 p2 p3 : Byte) : Statement (.cmdUnknown a code p1 p2 p3) :=
  fun _ => requestFrame_head _ _ _ _ _

end Sys2Proof.Laws.EncodedHead
end

