-- ==== Sys2Proof/Tests/Slice0.lean ====
section
/-! SUPPORT. The model's own tests: ill-formed terms that the checks refuse; every constructor's decoding, on words
written out from spec/30_encoding.md; one-step tests with the results of spec/95_test_vectors.md; and for each
obligation that has hypotheses, a state and operands that meet them. -/

namespace Sys2Proof.Tests

open Sys2Proof Sys2Proof.Machine

set_option Elab.async false

/-! ## Ill-formed terms -/

theorem test_illformed_width1_value : Instr.wellFormed .default (.nvWrite 1 4 0x1AB) = false := by decide
theorem test_illformed_width2_value : Instr.wellFormed .default (.nvWrite 2 4 0x10000) = false := by decide
theorem test_illformed_known_code_as_unknown : Instr.wellFormed .default (.cmdUnknown true 0x05 0 0 0) = false := by
  decide
theorem test_wellformed_width3_value : Instr.wellFormed .default (.nvWrite 3 0 0xFFFFFFFF) = true := by decide
theorem test_illformed_codes : ¬ { CmdCodes.default with setTiming := 0x01 }.wf := by decide
theorem test_illformed_eu_small : ¬ { Params.standard with eu := 2 }.wf := by decide
theorem test_illformed_eu_not_power : ¬ { Params.standard with eu := 6, nvsSize := 12 }.wf := by decide
theorem test_illformed_size_not_units : ¬ { Params.standard with nvsSize := 12 }.wf := by decide
theorem test_illformed_size_large : ¬ { Params.standard with nvsSize := 65544 }.wf := by decide
theorem test_illformed_base : ¬ { Params.standard with nvsBase := 4 }.wf := by decide
theorem test_illformed_nominal : ¬ { Params.standard with nominal := 32768 }.wf := by decide
theorem test_standard_wf : Params.standard.wf := by decide

/-! ## Decoding: every constructor, words of 95_test_vectors.md section 2.1 and 3, frames of section 2.9 -/

theorem test_dec_put : decodeTableWord 64 0x0101000000000041 = some (.put .tx 0x41) := by decide
theorem test_dec_tryput : decodeTableWord 64 0x0200000000000055 = some (.tryput .rx 0x55) := by decide
theorem test_dec_get : decodeTableWord 64 0x0300000000000000 = some (.get .rx) := by decide
theorem test_dec_rxByte : decodeTableWord 64 0x1000000000000083 = some (.rxByte 0x83) := by decide
theorem test_dec_txReady : decodeTableWord 64 0x1100000000000000 = some .txReady := by decide
theorem test_dec_syncStep : decodeTableWord 64 0x1200000000000000 = some .syncStep := by decide
theorem test_dec_dispatch : decodeTableWord 64 0x1300000000000000 = some .dispatch := by decide
theorem test_dec_encode : decodeTableWord 64 0x1400000083020100 = some (.encodeFrame 0x83 0x02 0x01 0x00) := by decide
theorem test_dec_tick : decodeTableWord 64 0x2000000000000000 = some .tick := by decide
theorem test_dec_rmsLatch : decodeTableWord 64 0x2102000000000000 = some (.rmsLatch .c2) := by decide
theorem test_dec_relayEval : decodeTableWord 64 0x2202000100000000 = some (.relayEval .c2 .inverse) := by decide
theorem test_dec_relayEval_definite : decodeTableWord 64 0x2201000000000000 = some (.relayEval .c1 .definite) := by
  decide
theorem test_dec_alloc : decodeTableWord 64 0x3008000000000000 = some (.alloc 8) := by decide
theorem test_dec_nvWrite : decodeTableWord 64 0x310200020000BEEF = some (.nvWrite 2 2 0xBEEF) := by decide
theorem test_dec_nvWrite_width3 : decodeTableWord 64 0x31030000FFFFFFFF = some (.nvWrite 3 0 0xFFFFFFFF) := by decide
theorem test_dec_persist : decodeTableWord 64 0x3200000000000000 = some .persist := by decide
theorem test_dec_init : decodeTableWord 64 0x3F00000000000000 = some .init := by decide
theorem test_dec_getTiming : decodeTableWord 40 0x8100000081 = some (.getTiming true 0 0 0) := by decide
theorem test_dec_setTiming : decodeTableWord 40 0x0201000003 = some (.setTiming false 1 0 0) := by decide
theorem test_dec_getRaises : decodeTableWord 40 0x8300000083 = some (.getRaises true 0 0 0) := by decide
theorem test_dec_resetRaises : decodeTableWord 40 0x8400000084 = some (.resetRaises true 0 0 0) := by decide
theorem test_dec_getLowers : decodeTableWord 40 0x8500000085 = some (.getLowers true 0 0 0) := by decide
theorem test_dec_resetLowers : decodeTableWord 40 0x8600000086 = some (.resetLowers true 0 0 0) := by decide
theorem test_dec_queryFreq : decodeTableWord 40 0x8711223387 = some (.queryFreq true 0x11 0x22 0x33) := by decide
theorem test_dec_queryVolt : decodeTableWord 40 0x8800000088 = some (.queryVolt true 0 0 0) := by decide
theorem test_dec_querySpectrum : decodeTableWord 40 0x89AB000022 = some (.querySpectrum true 0xAB 0 0) := by decide
theorem test_dec_cmdUnknown : decodeTableWord 40 0x0A1122330A = some (.cmdUnknown false 0x0A 0x11 0x22 0x33) := by
  decide

/-- V-DEC-8 to V-DEC-15: the reason each word is rejected. -/
theorem test_dec_rejected :
    decodeWord 0x0102000000000041 = .error (.badFifo 2) ∧ decodeWord 0x0100000000000141 = .error .reservedBits ∧
    decodeWord 0x2103000000000000 = .error (.badChannel 3) ∧ decodeWord 0x2200000200000000 = .error .reservedBits ∧
    decodeWord 0x31010004000001AB = .error .reservedBits ∧ decodeWord 0 = .error (.unknownOp 0) ∧
    decodeWord 0x4000000000000000 = .error (.unknownOp 0x40) ∧ decodeWord 0x2000000000000001 = .error .reservedBits := by
  refine ⟨?_, ?_, ?_, ?_, ?_, ?_, ?_, ?_⟩ <;> rfl

/-! ## Helpers -/

/-- The next state of an outcome, `d` where there is none. -/
def nextOr (d : State) : Out → State
  | .next t => t
  | .fault _ => d
  | .refused _ => d

/-- The outcome is a next state. -/
def isNext : Out → Bool
  | .next _ => true
  | .fault _ => false
  | .refused _ => false

/-- The state after one instruction. -/
def after (i : Instr) (s : State) : State := nextOr s (exec i s)

theorem exec_after {i : Instr} {s : State} (h : isNext (exec i s) = true) : exec i s = .next (after i s) := by
  unfold after
  cases he : exec i s <;> simp_all [isNext, nextOr]

theorem step_after {s : State} (h : isNext (step s) = true) : step s = .next (nextOr s (step s)) := by
  cases he : step s <;> simp_all [isNext, nextOr]

/-- After INIT on an erased device. -/
def booted : State := after .init State.reset

/-- `booted` with other block registers. -/
def withBlk (f : Block → Block) : State := { booted with blk := f booted.blk }

/-- A FIFO that holds the bytes, first at slot 0. -/
def fifoOf (bs : List Byte) : Fifo := bs.foldl Fifo.push Fifo.reset

/-- A full FIFO of zeros (the counts of V-FIFO-2). -/
def fullFifo : Fifo := { Fifo.reset with avail := 256, free := 0 }

/-- A FIFO of zeros with `n` free slots, head 0. -/
def roomFifo (n : Nat) : Fifo :=
  { Fifo.reset with tail := BitVec.ofNat 8 (256 - n), avail := BitVec.ofNat 9 (256 - n), free := BitVec.ofNat 9 n }

/-- Channel 0 in relay state `st`, its count and delay, a latched RMS and a constant window. -/
def relayState (st : RelayState) (tc td : Word32) (rms x : Word16) : State :=
  withBlk fun b => { b with ch0 := { b.ch0 with
    st := st, timerCount := tc, timerDelay := td, rms := rms, win := Vector.replicate 16 x
    raiseReq := st == .tripRaise, lowerReq := st == .tripLower } }

/-- The storage of 95_test_vectors.md section 2.8, with the given device answers. -/
def stored (dev : List Bool) : State :=
  { booted with
    nv := Memory.writeList [] 0 [0x11, 0x22, 0x33, 0x44, 0x55, 0x66, 0x77, 0x88, 0x99, 0x99, 0x99, 0x99, 0x99, 0x99, 0x99, 0x99]
    env := { booted.env with devResults := dev, anyBytes := [1, 2, 3, 4, 5, 6, 7, 8] } }

/-- The start of 95_test_vectors.md section 2.9, with a frame in the handoff register. -/
def requested (f : FiveBytes) (dev : List Bool) : State :=
  { withBlk fun b => { b with raisesNb := 0x0102, lowersNb := 7, frm := f, frmValid := true } with
    env := { booted.env with devResults := dev, anyBytes := [1, 2, 3, 4, 5, 6, 7, 8] } }

/-- The bytes waiting in the transmit FIFO. -/
def response (s : State) : List Byte := s.blk.tx.contents

/-! ## One step of each instruction -/

/-- V-INIT-3, and the next step from reset is INIT. -/
theorem test_init : (nextOr State.reset (step State.reset)).blk.raisesNb = 0xFFFF ∧
    (nextOr State.reset (step State.reset)).blk.lowersSlot = ⟨2, true⟩ := by decide +kernel

/-- V-INIT-2. -/
theorem test_init_loads :
    (after .init { State.reset with nv := Memory.writeList [] 0 [0x34, 0x12, 0x78, 0x56] }).blk.lowersNb = 0x5678 := by
  decide +kernel

/-- V-FIFO-1. -/
theorem test_put : (after (.put .tx 0x41) booted).blk.tx.buf[0] = 0x41 ∧
    (after (.put .tx 0x41) booted).blk.tx.free = 255 := by decide +kernel

/-- V-FIFO-6: the tail wraps. -/
theorem test_put_wraps :
    (after (.put .tx 0x10) (withBlk fun b => { b with tx := { b.tx with head := 255, tail := 255 } })).blk.tx.tail = 0 := by
  decide +kernel

/-- V-FIFO-3. -/
theorem test_tryput_full :
    (after (.tryput .rx 0x55) (withBlk fun b => { b with rx := fullFifo })).result = .status .full := by decide +kernel

/-- R111: OK with room. -/
theorem test_tryput_ok : (after (.tryput .tx 0x55) booted).result = .status .ok := by decide +kernel

/-- V-FIFO-4. -/
theorem test_get_holds : (after (.get .rx) booted).result = .held := by decide +kernel

/-- R113: the oldest byte first. -/
theorem test_get : (after (.get .rx) (withBlk fun b => { b with rx := fifoOf [0x10, 0x20] })).result = .byte 0x10 := by
  decide +kernel

/-- V-FIFO-7. -/
theorem test_rxByte_drops :
    (after (.rxByte 0x99) (withBlk fun b => { b with rx := fullFifo })).blk.rxOvf = true ∧
    (after (.rxByte 0x99) (withBlk fun b => { b with rx := fullFifo })).blk.rx.tail = 0 := by decide +kernel

/-- V-FIFO-8. -/
theorem test_rxByte_stuck :
    (after (.rxByte 0x99) { withBlk fun b => { b with rx := fullFifo } with
      cfg := { Params.standard with rxFullPolicy := .stuck } }).result = .held := by decide +kernel

/-- V-FIFO-9. -/
theorem test_txReady_holds : (after .txReady booted).result = .held := by decide +kernel

/-- V-FIFO-10, the first byte. -/
theorem test_txReady :
    (after .txReady (withBlk fun b => { b with tx := fifoOf [0x83, 0x02, 0x01, 0x00, 0x80] })).wireOut = [0x83] := by
  decide +kernel

/-- V-SYNC-1, the fifth byte. -/
theorem test_syncStep_emits :
    (after .syncStep (withBlk fun b => { b with rx := fifoOf [0x81], stg := ⟨0x81, 0, 0, 0, 0⟩, stgCount := 4 })).blk.frm =
      ⟨0x81, 0, 0, 0, 0x81⟩ := by decide +kernel

/-- V-SYNC-2, the fifth byte: one byte is dropped. -/
theorem test_syncStep_slides :
    (after .syncStep (withBlk fun b => { b with rx := fifoOf [0], stg := ⟨0x55, 0x81, 0, 0, 0⟩, stgCount := 4 })).blk.stg =
      ⟨0x81, 0, 0, 0, 0⟩ := by decide +kernel

/-- V-CMD-2, through DISPATCH. -/
theorem test_dispatch :
    (after .dispatch (requested ⟨0x82, 1, 0, 0, 0x83⟩ [])).blk.mode = .inverse ∧
    response (after .dispatch (requested ⟨0x82, 1, 0, 0, 0x83⟩ [])) = [0x82, 1, 0, 0, 0x83] := by decide +kernel

/-- V-CMD-17. -/
theorem test_dispatch_holds :
    (after .dispatch { requested ⟨0x83, 0, 0, 0, 0x83⟩ [] with
      blk := { (requested ⟨0x83, 0, 0, 0, 0x83⟩ []).blk with tx := roomFifo 4 } }).result = .held := by decide +kernel

/-- V-ENC-3, the checksum. -/
theorem test_encode : response (after (.encodeFrame 0x12 0x34 0x56 0x78) booted) = [0x12, 0x34, 0x56, 0x78, 0x08] := by
  decide +kernel

/-- V-ENC-2. -/
theorem test_encode_holds :
    (after (.encodeFrame 0x81 0 0 0) (withBlk fun b => { b with tx := roomFifo 4 })).result = .held := by decide +kernel

/-- V-TICK-2 on channel 1, from fifteen samples of 800. -/
theorem test_tick_latches :
    let s : State := { withBlk fun b => { b with pos := 15, ch1 := { b.ch1 with win := Vector.replicate 16 800 } } with
      env := { booted.env with samples := [800, 800, 800] } }
    (after .tick s).blk.ch1.rms = 800 ∧ (after .tick s).blk.ch1.timerDelay = 3 := by decide +kernel

/-- V-TICK-1: the samples go to the channels in order. -/
theorem test_tick_samples :
    (after .tick { booted with env := { booted.env with samples := [5, 6, 7] } }).blk.ch2.win[0] = 7 := by decide +kernel

/-- V-TICK-4 and V-RMS-2. -/
theorem test_rmsLatch :
    let s := withBlk fun b => { b with ch0 := { b.ch0 with win := #v[0, 1, 2, 3, 4, 5, 6, 7, 8, 9, 10, 11, 12, 13, 14, 15] } }
    (after (.rmsLatch .c0) s).blk.ch0.rms = 8 ∧ (after (.rmsLatch .c0) s).blk.ch0.voltageAlarm = true := by decide +kernel

/-- V-RMS-3: saturation. -/
theorem test_rmsLatch_saturates :
    (after (.rmsLatch .c2) (withBlk fun b => { b with ch2 := { b.ch2 with win := Vector.replicate 16 0x8000 } })).blk.ch2.rms =
      32767 := by decide +kernel

/-- V-RELAY-8. -/
theorem test_relayEval_trips :
    (after (.relayEval .c0 .definite) (relayState .outrange 2 3 800 800)).blk.ch0.st = .tripRaise ∧
    (after (.relayEval .c0 .definite) (relayState .outrange 2 3 800 800)).blk.raisesNb = booted.blk.raisesNb + 1 := by
  decide +kernel

/-- V-RELAY-14: the live RMS decides. -/
theorem test_relayEval_live :
    (after (.relayEval .c0 .inverse) (relayState .outrange 0 2 850 700)).blk.ch0.timerDelay = 1 := by decide +kernel

/-- Program P3, step 18. -/
theorem test_alloc : (after (.alloc 1) booted).result = .allocated 4 := by decide +kernel

/-- V-DEC-7. -/
theorem test_alloc_badSize : (after (.alloc 8) booted).blk.nvStatus = .badSize := by decide +kernel

/-- V-NVW-2. -/
theorem test_nvWrite :
    (after (.nvWrite 2 2 0xBEEF) (stored [true, true])).nvBytes 0 6 = [0x11, 0x22, 0xEF, 0xBE, 0x55, 0x66] := by
  decide +kernel

/-- V-NVW-7. -/
theorem test_nvWrite_fails :
    (after (.nvWrite 1 5 0xAA) (stored [true, false])).result = .status .programFailure ∧
    (after (.nvWrite 1 5 0xAA) (stored [true, false])).nvBytes 8 8 = List.replicate 8 0x99 := by decide +kernel

/-- V-PER-1. -/
theorem test_persist :
    (after .persist { stored [true, true] with blk := { booted.blk with raisesNb := 1, raisesDirty := true } }).nvBytes 0 2 =
      [1, 0] := by decide +kernel

/-- V-PER-3. -/
theorem test_persist_holds : (after .persist booted).result = .held := by decide +kernel

/-- V-CMD-1. -/
theorem test_getTiming : response (after (.getTiming true 0 0 0) booted) = [0x81, 0, 0, 0, 0x81] := by decide +kernel

/-- V-CMD-4. -/
theorem test_setTiming_fails :
    (after (.setTiming true 2 0 0) booted).blk.mode = .definite ∧
    response (after (.setTiming true 2 0 0) booted) = [0x02, 2, 0, 0, 0] := by decide +kernel

/-- V-CMD-6. -/
theorem test_getRaises :
    response (after (.getRaises true 0 0 0) (requested ⟨0, 0, 0, 0, 0⟩ [])) = [0x83, 0x02, 0x01, 0x00, 0x80] := by
  decide +kernel

/-- V-CMD-7. -/
theorem test_resetRaises :
    let t := after (.resetRaises true 0 0 0) (requested ⟨0, 0, 0, 0, 0⟩ [true, true])
    t.nvBytes 0 2 = [0, 0] ∧ response t = [0x84, 0, 0, 0, 0x84] := by decide +kernel

/-- V-CMD-12. -/
theorem test_getLowers :
    response (after (.getLowers true 0 0 0) (requested ⟨0, 0, 0, 0, 0⟩ [])) = [0x85, 0x07, 0x00, 0x00, 0x82] := by
  decide +kernel

/-- V-CMD-9. -/
theorem test_resetLowers_fails :
    let t := after (.resetLowers true 0 0 0) (requested ⟨0, 0, 0, 0, 0⟩ [false])
    t.blk.lowersNb = 0 ∧ response t = [0x06, 0, 0, 0, 0x06] := by decide +kernel

/-- V-CMD-13. -/
theorem test_queryFreq : response (after (.queryFreq true 0x11 0x22 0x33) booted) = [0x87, 0x11, 0x22, 0x33, 0x87] := by
  decide +kernel

/-- V-CMD-14. -/
theorem test_queryVolt : response (after (.queryVolt true 0 0 0) booted) = [0x88, 0, 0, 0, 0x88] := by decide +kernel

/-- V-CMD-15. -/
theorem test_querySpectrum : response (after (.querySpectrum true 0xAB 0 0) booted) = [0x89, 0xAB, 0, 0, 0x22] := by
  decide +kernel

/-- V-CMD-10. -/
theorem test_cmdUnknown : response (after (.cmdUnknown true 0x7F 0 0 0) booted) = [0x7F, 0, 0, 0, 0x7F] := by
  decide +kernel

/-- V-CMD-11: dropped silently. -/
theorem test_cmdUnknown_silent : response (after (.cmdUnknown false 0x0A 0x11 0x22 0x33) booted) = [] := by
  decide +kernel

/-- R260, R31: the codes. -/
theorem test_codes : Status.full.code = 6 ∧ Status.badAddress.code = 5 ∧ RelayState.tripLower.code = 3 := by decide

/-- R96: assembler lines of 95_test_vectors.md section 3. -/
theorem test_asm : Instr.asm (.relayEval .c2 .inverse) = some "RELAY_EVAL 2, INVERSE" ∧
    Instr.asm (.nvWrite 4 16 7) = some "NV_WRITE 4, 16, 7" := by decide +kernel

/-- The rows of the opcode table run as the first instruction after reset. -/
theorem test_withFetchWord :
    (nextOr State.reset (step (State.reset.withFetchWord 64 0x0101000000000041))).blk.tx.avail = 1 ∧
    response (nextOr State.reset (step (State.reset.withFetchWord 40 0x8711223387))) = [0x87, 0x11, 0x22, 0x33, 0x87] := by
  decide +kernel

/-! ## Witnesses: a state and operands that meet every hypothesis of an obligation together -/

/-- `booted` under other parameters. -/
def bootedWith (p : Params) : State := after .init { State.reset with cfg := p, blk := Block.reset p }

/-- `Params.standard` under the PRIORITY policy. -/
def priorityParams : Params := { Params.standard with sched := .priority }

/-- A state with a word as its next event. -/
def offered (s : State) (w : TxWord) : State := { s with sched := [.word w] }

/-- StepRunsTheNextWord: an admitted word, a word PRIORITY holds back, the first step from reset. -/
theorem test_witness_step :
    (offered booted 0x2000000000000000).sched = .word 0x2000000000000000 :: [] ∧
    decodeWord 0x2000000000000000 = .ok .tick ∧ admitted { booted with sched := [] } .tick = true ∧
    decodeWord 0x1300000000000000 = .ok .dispatch ∧
    admitted { bootedWith priorityParams with
      blk := { (bootedWith priorityParams).blk with rx := fifoOf [0x55] } } .dispatch = false ∧
    State.reset.sched = [] ∧ State.reset.blk.initDone = false := by
  refine ⟨rfl, rfl, ?_, rfl, ?_, rfl, rfl⟩ <;> decide +kernel

/-- DispatchRunsTheFrameItHolds: no frame; a frame that wants a response with exactly five slots free. -/
theorem test_witness_dispatch :
    (booted.blk.initDone = true ∧ booted.blk.frmValid = false) ∧
    let s : State := { requested ⟨0x83, 0, 0, 0, 0x83⟩ [] with
      blk := { (requested ⟨0x83, 0, 0, 0, 0x83⟩ []).blk with tx := roomFifo 5 } }
    s.blk.frmValid = true ∧ ackBit s.blk.frm.b0 = true ∧ CommandReady (ackBit s.blk.frm.b0) s := by
  unfold CommandReady
  decide +kernel

/-- WordsThatSpellNothingOnlySetTheMark. -/
theorem test_witness_refused_word :
    (offered booted 0x2000000000000001).sched = .word 0x2000000000000001 :: [] ∧
    decodeWord 0x2000000000000001 = .error .reservedBits ∧
    exec .tick booted = .next (after .tick booted) :=
  ⟨rfl, rfl, exec_after (by decide +kernel)⟩

/-- NothingRunsBeforeInitAndInitRunsOnce. -/
theorem test_witness_boot :
    (State.reset.blk.initDone = false ∧ Instr.tick ≠ .init) ∧ booted.blk.initDone = true ∧
    exec .tick booted = .next (after .tick booted) :=
  ⟨by decide +kernel, by decide +kernel, exec_after (by decide +kernel)⟩

/-- DecodeOfEncodeIsTheInstruction: the widest value of width 1, a code outside the table. -/
theorem test_witness_decode_encode : CmdCodes.default.wf ∧
    Instr.wellFormed .default (.nvWrite 1 15 0xFF) = true ∧
    Instr.wellFormed .default (.nvWrite 2 65535 0xFFFF) = true ∧
    Instr.wellFormed .default (.cmdUnknown true 0x7F 1 2 3) = true := by decide

/-- EncodeOfDecodeIsTheWord. -/
theorem test_witness_encode_decode : decodeWord 0x2202000100000000 = .ok (.relayEval .c2 .inverse) ∧
    frameValid ⟨0x89, 0xAB, 0, 0, 0x22⟩ = true := ⟨rfl, by decide⟩

/-- The state after INIT meets the invariant. -/
theorem booted_inv : BlockInv booted where
  params := by decide +kernel
  memory := by decide +kernel
  rx := by unfold Fifo.wf; decide +kernel
  tx := by unfold Fifo.wf; decide +kernel
  staging := by decide +kernel
  frame := by decide +kernel
  chan := by intro c; unfold ChanRegs.wf; cases c <;> decide +kernel
  alarm := fun h => absurd h (by decide +kernel)
  bitmap := by decide +kernel
  status := by decide +kernel
  raisesDirty := by decide +kernel
  lowersDirty := by decide +kernel
  boot := fun h => absurd h (by decide +kernel)
  slots := by intro _; unfold slotsBound; decide +kernel

/-- EveryStepKeepsTheInvariant, MachineUnderInvariantNeverStops, ParametersNeverChange. -/
theorem test_witness_invariant : BlockInv (offered booted 0x1000000000000055) ∧
    step (offered booted 0x1000000000000055) = .next (nextOr booted (step (offered booted 0x1000000000000055))) :=
  ⟨⟨booted_inv.1, booted_inv.2, booted_inv.3, booted_inv.4, booted_inv.5, booted_inv.6, booted_inv.7, booted_inv.8,
    booted_inv.9, booted_inv.10, booted_inv.11, booted_inv.12, booted_inv.13, booted_inv.14⟩, by
    have h : isNext (step (offered booted 0x1000000000000055)) = true := by decide +kernel
    cases he : step (offered booted 0x1000000000000055) <;> simp_all [isNext, nextOr]⟩

/-- ModeHasOneWriter: SET_TIMING by itself and as the frame of a DISPATCH. -/
theorem test_witness_mode :
    (exec (.setTiming true 1 0 0) booted = .next (after (.setTiming true 1 0 0) booted) ∧
      (after (.setTiming true 1 0 0) booted).blk.mode ≠ booted.blk.mode) ∧
    exec .dispatch (requested ⟨0x02, 1, 0, 0, 3⟩ []) = .next (after .dispatch (requested ⟨0x02, 1, 0, 0, 3⟩ [])) ∧
    (after .dispatch (requested ⟨0x02, 1, 0, 0, 3⟩ [])).blk.mode ≠ (requested ⟨0x02, 1, 0, 0, 3⟩ []).blk.mode :=
  ⟨⟨exec_after (by decide +kernel), by decide +kernel⟩, exec_after (by decide +kernel), by decide +kernel⟩

/-- OverflowFlagIsSticky: the flag already up, and the flag going up on a full FIFO. -/
theorem test_witness_overflow :
    let up := withBlk fun b => { b with rxOvf := true }
    let full := withBlk fun b => { b with rx := fullFifo }
    (exec .tick up = .next (after .tick up) ∧ up.blk.rxOvf = true) ∧
    (exec (.rxByte 0x99) full = .next (after (.rxByte 0x99) full) ∧ full.blk.rxOvf = false ∧
      (after (.rxByte 0x99) full).blk.rxOvf = true) ∧
    full.blk.initDone = true ∧ full.blk.rx.free = 0 ∧ full.cfg.rxFullPolicy = .drop :=
  ⟨⟨exec_after (by decide +kernel), by decide +kernel⟩,
    ⟨exec_after (by decide +kernel), by decide +kernel, by decide +kernel⟩, by decide +kernel⟩

/-- BitmapBitsAreNeverCleared: bit 0 is set, and ALLOC and INIT move the bitmap. -/
theorem test_witness_bitmap :
    (exec (.alloc 4) booted = .next (after (.alloc 4) booted) ∧ booted.blk.fsm[0]? = some true ∧
      (after (.alloc 4) booted).blk.fsm ≠ booted.blk.fsm) ∧
    exec .init State.reset = .next booted ∧ booted.blk.fsm ≠ State.reset.blk.fsm :=
  ⟨⟨exec_after (by decide +kernel), by decide +kernel, by decide +kernel⟩, rfl, by decide +kernel⟩

/-- StorageChangesOnlyInsideOneCheckedWrite: the last byte of the last unit. -/
theorem test_witness_storage :
    exec (.nvWrite 1 15 0x5A) (stored [true, true]) = .next (after (.nvWrite 1 15 0x5A) (stored [true, true])) ∧
    Memory.read (after (.nvWrite 1 15 0x5A) (stored [true, true])).nv 15 ≠ Memory.read (stored [true, true]).nv 15 :=
  ⟨exec_after (by decide +kernel), by decide +kernel⟩

/-- SlotsAreBoundOnlyByInit, WindowsMoveOnlyOnTick, RelayRegistersMoveOnlyOnEvaluation and
CountersMoveOnlyByTheirWriters: a RESET_RAISES that clears a counter. -/
theorem test_witness_writers :
    let s := requested ⟨0x04, 0, 0, 0, 4⟩ [true, true]
    exec (.resetRaises false 0 0 0) s = .next (after (.resetRaises false 0 0 0) s) ∧
    Instr.resetRaises false 0 0 0 ≠ .init ∧ Instr.resetRaises false 0 0 0 ≠ .tick ∧
    (∀ c m, Instr.resetRaises false 0 0 0 ≠ .relayEval c m) ∧
    (∀ c, Instr.resetRaises false 0 0 0 ≠ .rmsLatch c) ∧
    (after (.resetRaises false 0 0 0) s).blk.raisesNb ≠ s.blk.raisesNb :=
  ⟨exec_after (by decide +kernel), by decide, by decide, by simp, by simp, by decide +kernel⟩

/-- PutStoresOneByteOrHolds, TryputReturnsOkOrFull, RxByteFollowsTheFullPolicy: no slot, one slot, all slots. -/
theorem test_witness_free :
    let s (n : Nat) : State := withBlk fun b => { b with rx := roomFifo n, tx := roomFifo n }
    let stuck : State := { s 0 with cfg := { Params.standard with rxFullPolicy := .stuck } }
    (∀ f, (s 0).blk.initDone = true ∧ ((s 0).blk.fifo f).free = 0 ∧ ((s 1).blk.fifo f).free ≠ 0 ∧
      ((s 256).blk.fifo f).free ≠ 0) ∧
    (s 0).cfg.rxFullPolicy = .drop ∧ stuck.blk.initDone = true ∧ stuck.blk.rx.free = 0 ∧
    stuck.cfg.rxFullPolicy = .stuck := by
  refine ⟨?_, by decide +kernel⟩
  intro f
  cases f <;> decide +kernel

/-- GetReturnsTheOldestByteOrHolds, TxReadySendsTheOldestByteOrHolds: empty, one byte, full. -/
theorem test_witness_avail :
    let s (n : Nat) : State := withBlk fun b => { b with rx := roomFifo n, tx := roomFifo n }
    ∀ f, (s 256).blk.initDone = true ∧ ((s 256).blk.fifo f).avail = 0 ∧ ((s 255).blk.fifo f).avail ≠ 0 ∧
      ((s 0).blk.fifo f).avail ≠ 0 := by
  intro s f
  cases f <;> decide +kernel

/-- FifoIsAQueue: 255 bytes, 256 bytes, no byte. -/
theorem test_witness_queue :
    let s (n : Nat) : State := withBlk fun b => { b with tx := roomFifo n }
    (∀ n ∈ [0, 1, 256], ((s n).blk.fifo .tx).wf) ∧ (s 1).blk.initDone = true ∧
    ((s 1).blk.fifo .tx).contents.length = 255 ∧ ((s 0).blk.fifo .tx).contents.length = 256 ∧
    ((s 255).blk.fifo .tx).contents = 0 :: [] ∧ ((s 256).blk.fifo .tx).contents = [] := by
  refine ⟨?_, by decide +kernel⟩
  unfold Fifo.wf
  decide +kernel

/-- A synchronizer with `n` bytes of `81 00 00 00` staged and byte `x` waiting. -/
def staged (n : BitVec 3) (x : Byte) : State :=
  withBlk fun b => { b with rx := fifoOf [x], stg := ⟨0x81, 0, 0, 0, 0⟩, stgCount := n }

/-- SyncStepAppendsEmitsOrSlides and SyncStepStopsOnAnImpossibleCount: every fill count, a valid and an invalid
fifth byte, a waiting frame, an empty FIFO. -/
theorem test_witness_sync :
    ((requested ⟨0, 0, 0, 0, 0⟩ []).blk.initDone = true ∧ (requested ⟨0, 0, 0, 0, 0⟩ []).blk.frmValid = true) ∧
    (booted.blk.frmValid = false ∧ booted.blk.rx.avail = 0) ∧
    (∀ n ∈ [0, 1, 2, 3, 4, 5], (staged n 0x81).blk.initDone = true ∧ (staged n 0x81).blk.frmValid = false ∧
      (staged n 0x81).blk.rx.avail ≠ 0 ∧ (staged n 0x81).blk.stgCount = n) ∧
    (0x81 : Byte) = 0x81 ^^^ 0 ^^^ 0 ^^^ 0 ∧ (0x80 : Byte) ≠ 0x81 ^^^ 0 ^^^ 0 ^^^ 0 ∧
    5 ≤ (staged 5 0x81).blk.stgCount.toNat := by
  decide +kernel

/-- EncodeQueuesAValidFrameOrHolds: four and five free slots. -/
theorem test_witness_encode :
    let s (n : Nat) : State := withBlk fun b => { b with tx := roomFifo n }
    (s 4).blk.initDone = true ∧ (s 4).blk.tx.free.toNat < 5 ∧ 5 ≤ (s 5).blk.tx.free.toNat ∧ (s 5).blk.tx.wf := by
  unfold Fifo.wf
  decide +kernel

/-- FiveBytesOfAFrameAreEmitted and both clauses of OneGarbageByteIsDropped (V-SYNC-2, V-SYNC-3). -/
theorem test_witness_frames :
    let s (bs : List Byte) : State := withBlk fun b => { b with rx := fifoOf bs }
    let a := s [0x12, 0x34, 0x56, 0x78, 0x08, 0x99]
    let g := s [0x55, 0x81, 0, 0, 0, 0x81]
    let f := s [0x83, 0x83, 0, 0, 0, 0x83]
    (a.blk.initDone = true ∧ a.blk.frmValid = false ∧ a.blk.stgCount = 0 ∧ a.blk.rx.wf ∧
      a.blk.rx.contents = [0x12, 0x34, 0x56, 0x78, 0x12 ^^^ 0x34 ^^^ 0x56 ^^^ 0x78] ++ [0x99]) ∧
    (g.blk.initDone = true ∧ g.blk.frmValid = false ∧ g.blk.stgCount = 0 ∧ g.blk.rx.wf ∧
      g.blk.rx.contents = [0x55, 0x81, 0, 0, 0, 0x81 ^^^ 0 ^^^ 0 ^^^ 0] ++ [] ∧
      (0 : Byte) ≠ 0x55 ^^^ 0x81 ^^^ 0 ^^^ 0) ∧
    f.blk.rx.wf ∧ f.blk.rx.contents = [0x83, 0x83, 0, 0, 0, 0x83 ^^^ 0 ^^^ 0 ^^^ 0] ++ [] ∧
    (0 : Byte) = 0x83 ^^^ 0x83 ^^^ 0 ^^^ 0 := by
  unfold Fifo.wf
  decide +kernel

/-- TickSamplesLatchesAndEvaluates, NoRelayMovesBeforeTheFirstLatch, RmsLatchWritesMagnitudeAndVerdict: the
positions on both sides of the wrap. -/
theorem test_witness_tick :
    let s (n : BitVec 4) : State := withBlk fun b => { b with pos := n }
    (s 14).blk.initDone = true ∧ (s 14).blk.rmsValid = false ∧ (s 14).blk.pos ≠ 15 ∧ (s 15).blk.pos = 15 := by
  decide +kernel

/-- RmsIsTheTruncatedRoot: the largest mean below 2^30 and the mean 2^30 (V-RMS-4, V-RMS-3). -/
theorem test_witness_rms :
    let total (x : Word16) := ((List.replicate 16 x).map fun x => (x.toInt * x.toInt).toNat).sum
    total 32767 / 16 < 2 ^ 30 ∧ 2 ^ 30 ≤ total 0x8000 / 16 := by decide +kernel

/-- BandAndDelayAreAsDefined: the live and the latched comparator value, no deviation and the least. -/
theorem test_witness_delay :
    Params.standard.invLive = true ∧ ((relayState .outrange 0 2 850 700).blk.chan .c0).st = .outrange ∧
    ((relayState .normal 0 0 850 700).blk.chan .c0).st ≠ .outrange ∧
    ((1000 : Int) - (Params.standard.nominal : Int)).natAbs = 0 ∧
    0 < ((1001 : Int) - (Params.standard.nominal : Int)).natAbs := by decide +kernel

/-- The hypotheses of one clause of RelayEvaluationFollowsItsStates on channel 0 in definite mode. -/
def relayClause (s : State) (st : RelayState) (inside trips under : Bool) : Bool :=
  let v := bandValue s.cfg s.blk .c0 .definite
  s.blk.initDone && (s.blk.chan .c0).st == st && inBand s.cfg v == inside && below s.cfg v == under &&
    decide (tripAllowed s.cfg .definite v = true ∧ (delayFor s.cfg .definite v).toNat ≤
      (BitVec.ofNat 32 (min ((s.blk.chan .c0).timerCount.toNat + 1) 0xFFFFFFFF)).toNat) == trips

/-- RelayEvaluationFollowsItsStates: the edges of the band, the last evaluation before the trip and the trip, on
each side, with and without a slot. -/
theorem test_witness_relay :
    let noSlot (s : State) : State :=
      { s with blk := { s.blk with raisesSlot := ⟨0, false⟩, lowersSlot := ⟨0, false⟩ } }
    relayClause (relayState .normal 0 0 900 0) .normal true false false = true ∧
    relayClause (relayState .normal 0 0 899 0) .normal false false true = true ∧
    relayClause (relayState .outrange 0 3 1100 0) .outrange true false false = true ∧
    relayClause (relayState .outrange 1 3 899 0) .outrange false false true = true ∧
    relayClause (relayState .outrange 2 3 899 0) .outrange false true true = true ∧
    relayClause (relayState .outrange 2 3 1101 0) .outrange false true false = true ∧
    relayClause (noSlot (relayState .outrange 2 3 899 0)) .outrange false true true = true ∧
    relayClause (noSlot (relayState .outrange 2 3 1101 0)) .outrange false true false = true ∧
    (relayState .outrange 2 3 899 0).blk.raisesSlot.valid = true ∧
    (relayState .outrange 2 3 1101 0).blk.lowersSlot.valid = true ∧
    relayClause (relayState .tripRaise 3 3 1000 0) .tripRaise true true false = true ∧
    relayClause (relayState .tripLower 3 3 1100 0) .tripLower true true false = true ∧
    relayClause (relayState .tripRaise 3 3 1200 0) .tripRaise false true false = true := by decide +kernel

/-- CountdownTripsOnTheDelayedTick, with `k = 2` below the delay of 3, and InverseDelayIsMonotone. -/
theorem test_witness_countdown :
    let s := relayState .outrange 0 3 800 0
    (s.blk.initDone = true ∧ (s.blk.chan .c0).st = .outrange ∧ (s.blk.chan .c0).timerCount = 0 ∧
      inBand s.cfg (bandValue s.cfg s.blk .c0 .definite) = false ∧
      2 < max (delayFor s.cfg .definite (bandValue s.cfg s.blk .c0 .definite)).toNat 1) ∧
    0 < deviation Params.standard 1101 ∧ deviation Params.standard 1101 < deviation Params.standard 800 := by
  decide +kernel

/-- AllocTakesTheLowestFreeAlignedRun: a size that is not served, the run at 4, no run at all. -/
theorem test_witness_alloc :
    let full : State := withBlk fun b => { b with fsm := List.replicate 16 true }
    (booted.blk.initDone = true ∧ booted.cfg.nvsSize ≤ 65536 ∧ booted.blk.fsm.length = booted.cfg.nvsSize) ∧
    ¬ ((3 : Byte).toNat = 1 ∨ (3 : Byte).toNat = 2 ∨ (3 : Byte).toNat = 4) ∧
    (4 % 4 = 0 ∧ 4 + 4 ≤ booted.cfg.nvsSize ∧ FreeAt booted.blk.fsm 4 4 ∧
      ∀ a' < 4, a' % 4 = 0 → ¬ FreeAt booted.blk.fsm 4 a') ∧
    (full.blk.initDone = true ∧ full.blk.fsm.length = full.cfg.nvsSize) ∧
    ∀ a, a % 1 = 0 → a + 1 ≤ full.cfg.nvsSize → ¬ FreeAt full.blk.fsm 1 a := by
  refine ⟨by decide +kernel, by decide +kernel, ?_, by decide +kernel, ?_⟩
  · unfold FreeAt
    decide +kernel
  · intro a _ _ hf
    have h0 : (List.replicate 16 true)[a]? = some false := hf 0 (by decide)
    exact absurd (List.eq_of_mem_replicate (List.mem_of_getElem? h0)) (by decide)

/-- AllocationsNeverOverlap: two allocations one after the other. -/
theorem test_witness_overlap :
    let t := after (.alloc 4) booted
    booted.blk.initDone = true ∧ t.blk.initDone = true ∧ booted.cfg.nvsSize ≤ 65536 ∧ t.cfg = booted.cfg ∧
    exec (.alloc 4) booted = .next t ∧ t.result = .allocated 4 ∧
    (∀ i : Nat, t.blk.fsm[i]? = some true → t.blk.fsm[i]? = some true) ∧
    exec (.alloc 2) t = .next (after (.alloc 2) t) ∧ (after (.alloc 2) t).result = .allocated 8 :=
  ⟨by decide +kernel, by decide +kernel, by decide +kernel, by decide +kernel, exec_after (by decide +kernel),
    by decide +kernel, fun _ h => h, exec_after (by decide +kernel), by decide +kernel⟩

/-- NvWriteRejectsBeforeAnyDeviceCall (V-NVW-13, V-NVW-10, V-NVW-11). -/
theorem test_witness_rejects :
    (stored []).blk.initDone = true ∧ ¬ ((3 : Byte).toNat = 1 ∨ (3 : Byte).toNat = 2 ∨ (3 : Byte).toNat = 4) ∧
    (14 : Word16).toNat % 4 ≠ 0 ∧
    ((16 : Word16).toNat % 2 = 0 ∧ (stored []).cfg.nvsSize < (16 : Word16).toNat + 2) := by decide +kernel

/-- NvWriteMergesItsBytes at the last byte; FailedNvWriteSpoilsOnlyItsUnit with either call failing;
StorageChanges... and TornWriteSpoilsOnlyItsUnit on the same write. -/
theorem test_witness_write :
    let t : State := { stored [] with sched := [.torn 0x310200000000000A] }
    ((stored [true, true]).blk.initDone = true ∧ (stored [true, true]).cfg.wf ∧
      WriteAccepted (stored [true, true]).cfg 1 15 ∧ DeviceOk (stored [true, true])) ∧
    (WriteAccepted (stored [false]).cfg 4 12 ∧ ¬ DeviceOk (stored [false]) ∧ ¬ DeviceOk (stored [true, false])) ∧
    t.sched = .torn 0x310200000000000A :: [] ∧ decodeWord 0x310200000000000A = .ok (.nvWrite 2 0 10) ∧
    admitted { t with sched := [] } (.nvWrite 2 0 10) = true ∧ writeTarget t (.nvWrite 2 0 10) = some (2, 0) ∧
    WriteAccepted t.cfg 2 0 := by
  unfold WriteAccepted DeviceOk
  refine ⟨by decide +kernel, by decide +kernel, rfl, rfl, by decide +kernel, by decide +kernel, by decide +kernel⟩

/-- `stored` with chosen dirty bits. -/
def dirty (r l : Bool) (dev : List Bool) : State :=
  { stored dev with blk := { (stored dev).blk with raisesNb := 2, lowersNb := 9, raisesDirty := r, lowersDirty := l } }

/-- PersistWritesOneDirtyCounter: each clause, with the device answering ok and failing. -/
theorem test_witness_persist :
    ((dirty false false []).blk.initDone = true ∧ (dirty false false []).blk.raisesDirty = false ∧
      (dirty false false []).blk.lowersDirty = false) ∧
    ((dirty true true [true, true]).blk.raisesDirty = true ∧ (dirty true true [true, true]).cfg.wf ∧
      WriteAccepted (dirty true true [true, true]).cfg 2 (dirty true true [true, true]).blk.raisesSlot.off.toNat ∧
      DeviceOk (dirty true true [true, true]) ∧ ¬ DeviceOk (dirty true true [false])) ∧
    (dirty false true []).blk.raisesDirty = false ∧ (dirty false true []).blk.lowersDirty = true ∧
    WriteAccepted (dirty false true []).cfg 2 (dirty false true []).blk.lowersSlot.off.toNat := by
  unfold WriteAccepted DeviceOk
  decide +kernel

/-- The command statements: ready with exactly five slots free, ready with none when no response is wanted, and
waiting with four. A reset command has a slot, or none. -/
theorem test_witness_commands :
    let s (n : Nat) : State := withBlk fun b => { b with tx := roomFifo n }
    let noSlot : State := withBlk fun b => { b with raisesSlot := ⟨0, false⟩, lowersSlot := ⟨0, false⟩ }
    CommandReady true (s 5) ∧ (s 5).blk.tx.wf ∧ CommandReady false (s 0) ∧ (s 0).blk.tx.wf ∧
    ((s 4).blk.initDone = true ∧ (s 4).blk.tx.free.toNat < 5) ∧
    commandHead .default (.getTiming true 0 0 0) = some (true, 1) ∧
    ((2 : Byte) ≠ 0 ∧ (2 : Byte) ≠ 1) ∧
    (CommandReady true noSlot ∧ noSlot.blk.raisesSlot.valid = false ∧ noSlot.blk.lowersSlot.valid = false) ∧
    ((stored [true, true]).blk.raisesSlot.valid = true ∧ (stored [true, true]).blk.lowersSlot.valid = true ∧
      (stored [true, true]).cfg.wf ∧
      WriteAccepted (stored [true, true]).cfg 2 (stored [true, true]).blk.raisesSlot.off.toNat ∧
      WriteAccepted (stored [true, true]).cfg 2 (stored [true, true]).blk.lowersSlot.off.toNat ∧
      DeviceOk (stored [true, true]) ∧ ¬ DeviceOk (stored [false])) := by
  unfold CommandReady WriteAccepted DeviceOk Fifo.wf
  decide +kernel

/-- CommandsWaitForResponseRoom, the DISPATCH clause. -/
theorem test_witness_commands_wait :
    let s : State := { requested ⟨0x83, 0, 0, 0, 0x83⟩ [] with
      blk := { (requested ⟨0x83, 0, 0, 0, 0x83⟩ []).blk with tx := roomFifo 4 } }
    s.blk.initDone = true ∧ s.blk.tx.free.toNat < 5 ∧ s.blk.frmValid = true ∧ ackBit s.blk.frm.b0 = true := by
  decide +kernel

/-- InitBindsSlotsAndLoadsCounters with and without storage; CountersSurviveAReset;
BlockResetRestoresEveryRegister; AlarmVerdictFailsBetweenInitAndLatch. -/
theorem test_witness_init :
    let none : State := { State.reset with
      cfg := { Params.standard with nvsSize := 0 }, blk := Block.reset { Params.standard with nvsSize := 0 } }
    let again : State := { stored [] with sched := [.reset, .word initWord] }
    (State.reset.blk.initDone = false ∧ State.reset.cfg.wf ∧
      State.reset.blk.fsm = List.replicate State.reset.cfg.nvsSize false ∧ State.reset.cfg.nvsSize ≠ 0) ∧
    (none.blk.initDone = false ∧ none.cfg.wf ∧ none.blk.fsm = List.replicate none.cfg.nvsSize false ∧
      none.cfg.nvsSize = 0) ∧
    (again.cfg.wf ∧ again.cfg.nvsSize ≠ 0 ∧ again.sched = .reset :: .word initWord :: []) ∧
    State.reset.blk = Block.reset State.reset.cfg ∧ 0 < low State.reset.cfg := by
  refine ⟨by decide +kernel, by decide +kernel, ⟨by decide +kernel, by decide +kernel, rfl⟩, rfl, by decide +kernel⟩

/-- An initialized block under PRIORITY: `n` bytes in `rx`, perhaps a frame whose command byte is `c`, `room` free
slots in `tx`. -/
def priorityState (n : Nat) (frame : Bool) (c : Byte) (room : Nat) : State :=
  { bootedWith priorityParams with
    blk := { (bootedWith priorityParams).blk with
      rx := fifoOf (List.replicate n 0x55), frm := ⟨c, 0, 0, 0, c⟩, frmValid := frame, tx := roomFifo room } }

/-- PriorityAdmitsTheFirstEnabledAgent: the words of DISPATCH, PERSIST and SYNC_STEP under each policy; RECV enabled
by one byte; PKT enabled without a response and with exactly five slots free; neither enabled, by four free slots
and by an empty block. -/
theorem test_witness_priority :
    (∀ s : State, (offered s dispatchWord).sched = .word dispatchWord :: []) ∧
    decodeWord dispatchWord = .ok .dispatch ∧ decodeWord (txWord 0x32 0 0 0) = .ok .persist ∧
    decodeWord (txWord 0x12 0 0 0) = .ok .syncStep ∧
    (Instr.syncStep ≠ .dispatch ∧ Instr.syncStep ≠ .persist) ∧ booted.cfg.sched = .free ∧
    (let s := priorityState 1 false 0x83 256;
      s.cfg.sched = .priority ∧ s.blk.initDone = true ∧ s.blk.frmValid = false ∧ s.blk.rx.avail ≠ 0) ∧
    (let s := priorityState 1 true 0x02 0;
      s.cfg.sched = .priority ∧ s.blk.initDone = true ∧ s.blk.frmValid = true ∧ ackBit s.blk.frm.b0 = false) ∧
    (let s := priorityState 1 true 0x83 5;
      s.cfg.sched = .priority ∧ s.blk.initDone = true ∧ s.blk.frmValid = true ∧ ackBit s.blk.frm.b0 = true ∧
        5 ≤ s.blk.tx.free.toNat) ∧
    (let s := priorityState 1 true 0x83 4;
      s.cfg.sched = .priority ∧ s.blk.frmValid ≠ false ∧ ackBit s.blk.frm.b0 = true ∧ ¬ 5 ≤ s.blk.tx.free.toNat) ∧
    (let s := priorityState 0 false 0x83 256;
      s.cfg.sched = .priority ∧ ¬ s.blk.rx.avail ≠ 0 ∧ s.blk.frmValid ≠ true) := by
  refine ⟨fun _ => rfl, rfl, rfl, rfl, ?_⟩
  decide +kernel

/-- QuiescentStatesWaitForTheEnvironment: quiescent right after INIT, and idle but not quiescent with a frame that
waits for the fifth free slot. -/
theorem test_witness_quiescent :
    quiescent booted.blk = true ∧ internalIdle booted.cfg booted.blk = true ∧
    quiescent (priorityState 1 true 0x83 4).blk = false ∧
    internalIdle (priorityState 1 true 0x83 4).cfg (priorityState 1 true 0x83 4).blk = true ∧
    internalIdle (priorityState 1 true 0x83 5).cfg (priorityState 1 true 0x83 5).blk = false := by decide +kernel

end Sys2Proof.Tests
end

/-! # 00_scope.md: the arithmetic of R12, R152 and R156 -/

namespace Sys2Proof.Machine

/-! ## The integer root (R12) -/

/-- What the bit-by-bit search keeps: while the root lies in `r .. r + 2 ^ k - 1`, deciding bit `k` halves the
range. -/
theorem isqrtBits_bracket {n : Nat} : ∀ (k r : Nat), r * r ≤ n → n < (r + 2 ^ k) * (r + 2 ^ k) →
    isqrtBits n k r * isqrtBits n k r ≤ n ∧ n < (isqrtBits n k r + 1) * (isqrtBits n k r + 1)
  | 0, _, hlo, hhi => ⟨hlo, hhi⟩
  | k + 1, r, hlo, hhi => by
    have hsplit : r + 2 ^ (k + 1) = r + 2 ^ k + 2 ^ k := by rw [pow_succ]; omega
    by_cases hc : (r + 2 ^ k) * (r + 2 ^ k) ≤ n
    · simpa [isqrtBits, hc] using isqrtBits_bracket k (r + 2 ^ k) hc (hsplit ▸ hhi)
    · simpa [isqrtBits, hc] using isqrtBits_bracket k r hlo (Nat.lt_of_not_le hc)

/-- The search starts with enough bits: `n` is below the square of `2 ^ (log2 n / 2 + 1)`. -/
theorem lt_two_pow_half_log2_sq (n : Nat) : n < 2 ^ (n.log2 / 2 + 1) * 2 ^ (n.log2 / 2 + 1) :=
  calc n < 2 ^ (n.log2 + 1) := Nat.lt_log2_self
    _ ≤ 2 ^ (n.log2 / 2 + 1 + (n.log2 / 2 + 1)) := Nat.pow_le_pow_right (by decide) (by omega)
    _ = 2 ^ (n.log2 / 2 + 1) * 2 ^ (n.log2 / 2 + 1) := pow_add _ _ _

theorem isqrt_eq_sqrt (n : Nat) : isqrt n = Nat.sqrt n :=
  Nat.eq_sqrt.mpr (isqrtBits_bracket _ 0 (by simp) (by simpa using lt_two_pow_half_log2_sq n))

/-! ## The mean square (R152, R156) -/

theorem sumSquares_eq (w : List Word16) : sumSquares w = (w.map fun x => (x.toInt * x.toInt).toNat).sum := by
  have hsq : ∀ x : Word16, x.toInt.natAbs * x.toInt.natAbs = (x.toInt * x.toInt).toNat := fun x => by
    rw [← Int.natAbs_mul_self, Int.toNat_natCast]
  simp only [sumSquares, hsq]

/-- A signed sample is at most `2 ^ 15` in magnitude, so its square is at most `2 ^ 30`. -/
theorem sample_sq_le (x : Word16) : x.toInt.natAbs * x.toInt.natAbs ≤ 2 ^ 30 := by
  have hlo := x.le_toInt
  have hhi := x.toInt_lt
  have habs : x.toInt.natAbs ≤ 2 ^ 15 := by omega
  calc x.toInt.natAbs * x.toInt.natAbs ≤ 2 ^ 15 * 2 ^ 15 := Nat.mul_le_mul habs habs
    _ = 2 ^ 30 := by norm_num

theorem sumSquares_le (w : Vector Word16 16) : sumSquares w.toList ≤ 2 ^ 34 := by
  have h := List.sum_le_card_nsmul (w.toList.map fun x => x.toInt.natAbs * x.toInt.natAbs) (2 ^ 30)
    (List.forall_mem_map.mpr fun x _ => sample_sq_le x)
  simpa [sumSquares] using h

/-! ## RMSF (R152) -/

theorem rmsf_eq_min_sqrt (w : Vector Word16 16) : rmsf w = min 32767 (Nat.sqrt (sumSquares w.toList / 16)) := by
  rw [rmsf, isqrt_eq_sqrt]

theorem rmsf_le (w : Vector Word16 16) : rmsf w ≤ 32767 := Nat.min_le_left _ _

/-- Below a mean of `2 ^ 30` the root fits and is not saturated. -/
theorem rmsf_of_mean_lt {w : Vector Word16 16} (h : sumSquares w.toList / 16 < 2 ^ 30) :
    rmsf w = Nat.sqrt (sumSquares w.toList / 16) := by
  have hfit : Nat.sqrt (sumSquares w.toList / 16) < 32768 := Nat.sqrt_lt.mpr (by omega)
  rw [rmsf_eq_min_sqrt]
  omega

/-- From a mean of `2 ^ 30` on the root is 32768 or more and saturates. -/
theorem rmsf_of_le_mean {w : Vector Word16 16} (h : 2 ^ 30 ≤ sumSquares w.toList / 16) : rmsf w = 32767 := by
  have hbig : 32768 ≤ Nat.sqrt (sumSquares w.toList / 16) := Nat.le_sqrt.mpr (by omega)
  rw [rmsf_eq_min_sqrt]
  omega

/-- Settles O34: the bit search finds `Nat.sqrt`, and the root of the mean fits exactly below a mean of `2 ^ 30`. -/
theorem rmsIsTheTruncatedRoot : Obligations.RmsIsTheTruncatedRoot := by
  refine ⟨fun n r => ?_, fun w => ?_⟩
  · rw [isqrt_eq_sqrt, eq_comm]
    exact Nat.eq_sqrt
  · rw [← sumSquares_eq]
    refine ⟨sumSquares_le w, rmsf_le w, fun hfit => ?_, rmsf_of_le_mean⟩
    rw [rmsf_of_mean_lt hfit]
    exact ⟨(Nat.le_div_iff_mul_le (by decide)).mp (Nat.sqrt_le _),
      (Nat.div_lt_iff_lt_mul (by decide)).mp (Nat.lt_succ_sqrt _)⟩

end Sys2Proof.Machine

/-! # 00_scope.md R6: what no transaction and no step writes -/

namespace Sys2Proof.Machine

/-- The parameters, the mark `refused` and the coming events are as they were: no transaction writes them. -/
def ConstSame (s t : State) : Prop := t.cfg = s.cfg ∧ t.refused = s.refused ∧ t.sched = s.sched

theorem ConstSame.refl (s : State) : ConstSame s s := ⟨rfl, rfl, rfl⟩

theorem OutsideSame.constSame {s t : State} (h : OutsideSame s t) : ConstSame s t := by
  obtain ⟨hcfg, hrefused, -, -, hsched⟩ := h
  exact ⟨hcfg, hrefused, hsched⟩

/-- Whatever next state the outcome answers, it has the parameters, the mark and the events of `s`. -/
def KeepsConst (s : State) (o : Out) : Prop := ∀ t, o = .next t → ConstSame s t

/-! ## Outcomes -/

theorem keepsConst_hold (s : State) : KeepsConst s (hold s) := fun t h => by
  rw [hold_next h]
  exact ⟨rfl, rfl, rfl⟩

theorem keepsConst_finish {s u : State} (r : Result) (h : ConstSame s u) : KeepsConst s (finish r u) :=
  fun t ht => by
    rw [finish_next ht]
    exact h

theorem keepsConst_gated {k : State → Out} {s : State} (h : KeepsConst s (k s)) : KeepsConst s (gated k s) :=
  fun t ht => by
    obtain ⟨-, rfl⟩ | ⟨-, hk⟩ := gated_next ht
    · exact ⟨rfl, rfl, rfl⟩
    · exact h t hk

/-- A frame command keeps the constants when its execution does (R230). -/
theorem keepsConst_runCommand {a : Bool} {code : BitVec 7} {f : State → Reply × State} {s : State}
    (h : ∀ u, ConstSame u (f u).2) : KeepsConst s (runCommand a code f s) := fun t ht => by
  obtain rfl | ⟨-, -, r, u, hf, rfl⟩ := runCommand_next ht
  · exact ⟨rfl, rfl, rfl⟩
  · have hu : ConstSame s u := by simpa [hf, ConstSame] using h (s.setBlk { s.blk with frmValid := false })
    cases a <;> exact hu

/-! ## The transactions that write storage -/

theorem State.nvWrite_constSame (s : State) (w off : Nat) (val : Word32) : ConstSame s (s.nvWrite w off val).2 :=
  (State.nvWrite_spec s w off val).1.constSame

theorem State.storeZero_constSame (s : State) (slot : Slot) : ConstSame s (s.storeZero slot).2 :=
  (State.storeZero_spec s slot).1.constSame

theorem execNvWrite_keepsConst (width : Byte) (off : Word16) (val : Word32) (s : State) :
    KeepsConst s (execNvWrite width off val s) :=
  keepsConst_gated (keepsConst_finish _ (State.nvWrite_constSame s _ _ _))

theorem execPersist_keepsConst (s : State) : KeepsConst s (execPersist s) := by
  refine keepsConst_gated ?_
  split
  · exact keepsConst_finish _ (State.nvWrite_constSame (s.setBlk _) _ _ _)
  · split
    · exact keepsConst_finish _ (State.nvWrite_constSame (s.setBlk _) _ _ _)
    · exact keepsConst_hold s

/-! ## The frame commands -/

theorem execGetTiming_keepsConst (a : Bool) (p1 p2 p3 : Byte) (s : State) :
    KeepsConst s (execGetTiming a p1 p2 p3 s) := keepsConst_runCommand ConstSame.refl

theorem execSetTiming_keepsConst (a : Bool) (p1 p2 p3 : Byte) (s : State) :
    KeepsConst s (execSetTiming a p1 p2 p3 s) := keepsConst_runCommand fun u => by
  split
  · exact ⟨rfl, rfl, rfl⟩
  · split <;> exact ⟨rfl, rfl, rfl⟩

theorem execGetRaises_keepsConst (a : Bool) (p1 p2 p3 : Byte) (s : State) :
    KeepsConst s (execGetRaises a p1 p2 p3 s) := keepsConst_runCommand ConstSame.refl

theorem execResetRaises_keepsConst (a : Bool) (p1 p2 p3 : Byte) (s : State) :
    KeepsConst s (execResetRaises a p1 p2 p3 s) :=
  keepsConst_runCommand fun u => State.storeZero_constSame (u.setBlk _) _

theorem execGetLowers_keepsConst (a : Bool) (p1 p2 p3 : Byte) (s : State) :
    KeepsConst s (execGetLowers a p1 p2 p3 s) := keepsConst_runCommand ConstSame.refl

theorem execResetLowers_keepsConst (a : Bool) (p1 p2 p3 : Byte) (s : State) :
    KeepsConst s (execResetLowers a p1 p2 p3 s) :=
  keepsConst_runCommand fun u => State.storeZero_constSame (u.setBlk _) _

/-- The commands that only echo their parameters (R238 to R241). -/
theorem keepsConst_echo (a ok : Bool) (code : BitVec 7) (p1 p2 p3 : Byte) (s : State) :
    KeepsConst s (runCommand a code (echo ok p1 p2 p3) s) := keepsConst_runCommand ConstSame.refl

/-- DISPATCH holds or runs one of the ten commands (R230). -/
theorem execDispatch_keepsConst (s : State) : KeepsConst s (execDispatch s) := by
  refine keepsConst_gated ?_
  split
  · dsimp only
    split
    · exact execGetTiming_keepsConst _ _ _ _ s
    · exact execSetTiming_keepsConst _ _ _ _ s
    · exact execGetRaises_keepsConst _ _ _ _ s
    · exact execResetRaises_keepsConst _ _ _ _ s
    · exact execGetLowers_keepsConst _ _ _ _ s
    · exact execResetLowers_keepsConst _ _ _ _ s
    · exact keepsConst_echo _ _ _ _ _ _ s
    · exact keepsConst_echo _ _ _ _ _ _ s
    · exact keepsConst_echo _ _ _ _ _ _ s
    · exact keepsConst_echo _ _ _ _ _ _ s
  · exact keepsConst_hold s

/-! ## Every instruction -/

/-- A transaction that waits for `p` to fail, and is then done, keeps the constants when its writes do. -/
theorem keepsConst_waits {p : State → Prop} [DecidablePred p] {r : State → Result} {f : State → State} {s : State}
    (h : ConstSame s (f s)) :
    KeepsConst s (gated (fun s => if p s then hold s else finish (r s) (f s)) s) := by
  refine keepsConst_gated ?_
  split
  · exact keepsConst_hold s
  · exact keepsConst_finish _ h

theorem execPut_keepsConst (f : FifoSel) (b : Byte) (s : State) : KeepsConst s (execPut f b s) :=
  keepsConst_waits ⟨rfl, rfl, rfl⟩

theorem execGet_keepsConst (f : FifoSel) (s : State) : KeepsConst s (execGet f s) :=
  keepsConst_waits ⟨rfl, rfl, rfl⟩

theorem execTxReady_keepsConst (s : State) : KeepsConst s (execTxReady s) :=
  keepsConst_waits ⟨rfl, rfl, rfl⟩

theorem execEncodeFrame_keepsConst (c p1 p2 p3 : Byte) (s : State) :
    KeepsConst s (execEncodeFrame c p1 p2 p3 s) :=
  keepsConst_waits ⟨rfl, rfl, rfl⟩

theorem execTryput_keepsConst (f : FifoSel) (b : Byte) (s : State) : KeepsConst s (execTryput f b s) := by
  refine keepsConst_gated ?_
  split <;> exact keepsConst_finish _ ⟨rfl, rfl, rfl⟩

theorem execRxByte_keepsConst (b : Byte) (s : State) : KeepsConst s (execRxByte b s) := by
  refine keepsConst_gated ?_
  split
  · split
    · exact keepsConst_finish _ ⟨rfl, rfl, rfl⟩
    · exact keepsConst_hold s
  · exact keepsConst_finish _ ⟨rfl, rfl, rfl⟩

/-- SYNC_STEP holds, stops at an impossible fill count (log 14), or takes its byte. -/
theorem execSyncStep_keepsConst (s : State) : KeepsConst s (execSyncStep s) := by
  refine keepsConst_gated ?_
  split
  · exact keepsConst_hold s
  · split
    · exact keepsConst_hold s
    · split
      · intro t h
        cases h
      · exact keepsConst_finish _ ⟨rfl, rfl, rfl⟩

theorem execTick_keepsConst (s : State) : KeepsConst s (execTick s) :=
  keepsConst_gated (keepsConst_finish _ ⟨rfl, rfl, rfl⟩)

theorem execRmsLatch_keepsConst (c : Chan) (s : State) : KeepsConst s (execRmsLatch c s) :=
  keepsConst_gated (keepsConst_finish _ ⟨rfl, rfl, rfl⟩)

theorem execRelayEval_keepsConst (c : Chan) (m : Mode) (s : State) : KeepsConst s (execRelayEval c m s) :=
  keepsConst_gated (keepsConst_finish _ ⟨rfl, rfl, rfl⟩)

theorem execAlloc_keepsConst (size : Byte) (s : State) : KeepsConst s (execAlloc size s) :=
  keepsConst_gated (keepsConst_finish _ ⟨rfl, rfl, rfl⟩)

theorem execInit_keepsConst (s : State) : KeepsConst s (execInit s) := by
  unfold execInit
  split
  · exact keepsConst_hold s
  · exact keepsConst_finish _ ⟨rfl, rfl, rfl⟩

/-- No transaction writes the parameters, the mark or the coming events. -/
theorem exec_keepsConst (i : Instr) (s : State) : KeepsConst s (exec i s) := by
  cases i with
  | put f b => exact execPut_keepsConst f b s
  | tryput f b => exact execTryput_keepsConst f b s
  | get f => exact execGet_keepsConst f s
  | rxByte b => exact execRxByte_keepsConst b s
  | txReady => exact execTxReady_keepsConst s
  | syncStep => exact execSyncStep_keepsConst s
  | dispatch => exact execDispatch_keepsConst s
  | encodeFrame c p1 p2 p3 => exact execEncodeFrame_keepsConst c p1 p2 p3 s
  | tick => exact execTick_keepsConst s
  | rmsLatch c => exact execRmsLatch_keepsConst c s
  | relayEval c m => exact execRelayEval_keepsConst c m s
  | alloc size => exact execAlloc_keepsConst size s
  | nvWrite w off v => exact execNvWrite_keepsConst w off v s
  | persist => exact execPersist_keepsConst s
  | init => exact execInit_keepsConst s
  | getTiming a p1 p2 p3 => exact execGetTiming_keepsConst a p1 p2 p3 s
  | setTiming a p1 p2 p3 => exact execSetTiming_keepsConst a p1 p2 p3 s
  | getRaises a p1 p2 p3 => exact execGetRaises_keepsConst a p1 p2 p3 s
  | resetRaises a p1 p2 p3 => exact execResetRaises_keepsConst a p1 p2 p3 s
  | getLowers a p1 p2 p3 => exact execGetLowers_keepsConst a p1 p2 p3 s
  | resetLowers a p1 p2 p3 => exact execResetLowers_keepsConst a p1 p2 p3 s
  | queryFreq a p1 p2 p3 => exact keepsConst_echo _ _ _ _ _ _ s
  | queryVolt a p1 p2 p3 => exact keepsConst_echo _ _ _ _ _ _ s
  | querySpectrum a p1 p2 p3 => exact keepsConst_echo _ _ _ _ _ _ s
  | cmdUnknown a code p1 p2 p3 => exact keepsConst_echo _ _ _ _ _ _ s

/-! ## One step -/

@[simp] theorem fetch_cfg (s : State) : (fetch s).2.cfg = s.cfg := by
  unfold fetch
  split
  · rfl
  · split <;> rfl

/-- A torn write spoils its unit before the reset, or there was none and the block only resets (R305). -/
theorem State.tornReset_cases (s : State) (i : Instr) :
    (∃ w off, writeTarget s i = some (w, off) ∧ nvCheck s.cfg w off = none ∧
        s.tornReset i = (s.scrambleUnit (unitBase s.cfg off)).blockReset) ∨
      s.tornReset i = s.blockReset := by
  unfold State.tornReset
  split
  · next w off htarget =>
    by_cases hcheck : nvCheck s.cfg w off = none
    · exact .inl ⟨w, off, htarget, hcheck, if_pos hcheck⟩
    · exact .inr (if_neg hcheck)
  · exact .inr rfl

@[simp] theorem State.tornReset_cfg (s : State) (i : Instr) : (s.tornReset i).cfg = s.cfg := by
  obtain ⟨w, off, -, -, h⟩ | h := s.tornReset_cases i
  · rw [h]
    rfl
  · rw [h, State.blockReset_cfg]

/-- What one step can do with the event `e` that comes next, from the state `u` that has taken it off the events
(R99, R272, R290, R305). -/
inductive StepCase (e : Event) (u t : State) : Prop where
  | runs (w : TxWord) (i : Instr) (event : e = .word w) (decoded : decodeWord w = .ok i)
      (admits : admitted u i = true) (executed : exec i u = .next t)
  | notAdmitted (w : TxWord) (i : Instr) (event : e = .word w) (decoded : decodeWord w = .ok i)
      (admits : admitted u i = false) (after : t = { u with result := .held })
  | noOperation (w : TxWord) (err : DecodeError) (event : e = .word w) (decoded : decodeWord w = .error err)
      (after : t = markRefused u)
  | resets (event : e = .reset ∨ ∃ w, e = .torn w) (after : t = u.blockReset)
  | tears (w : TxWord) (i : Instr) (event : e = .torn w) (decoded : decodeWord w = .ok i)
      (admits : admitted u i = true) (after : t = u.tornReset i)

theorem step_cases {s t : State} (h : step s = .next t) : StepCase (fetch s).1 (fetch s).2 t := by
  unfold step at h
  cases he : (fetch s).1 with
  | word w =>
    cases hd : decodeWord w with
    | ok i =>
      cases ha : admitted (fetch s).2 i with
      | true => exact .runs w i rfl hd ha (by simpa [he, hd, ha] using h)
      | false => exact .notAdmitted w i rfl hd ha (hold_next (by simpa [he, hd, ha] using h))
    | error err => exact .noOperation w err rfl hd (by simpa [he, hd] using h.symm)
  | reset => exact .resets (.inl rfl) (by simpa [he] using h.symm)
  | torn w =>
    cases hd : decodeWord w with
    | ok i =>
      cases ha : admitted (fetch s).2 i with
      | true => exact .tears w i rfl hd ha (by simpa [he, hd, ha] using h.symm)
      | false => exact .resets (.inr ⟨w, rfl⟩) (by simpa [he, hd, ha] using h.symm)
    | error err => exact .resets (.inr ⟨w, rfl⟩) (by simpa [he, hd] using h.symm)

/-- Settles O11, by the cases of a step: a transaction keeps the parameters, and so do a hold, a refusal and
both resets. -/
theorem parametersNeverChange : Obligations.ParametersNeverChange := by
  intro s t h
  rw [← fetch_cfg s]
  cases step_cases h with
  | runs w i event decoded admits executed => exact (exec_keepsConst i _ t executed).1
  | notAdmitted w i event decoded admits after => rw [after]
  | noOperation w err event decoded after => rw [after, State.markRefused_cfg]
  | resets event after => rw [after, State.blockReset_cfg]
  | tears w i event decoded admits after => rw [after, State.tornReset_cfg]

end Sys2Proof.Machine

/-! # 10_state.md: what a transaction writes

A transaction is a sequence of single writes, each to one group of registers, together with at most one accepted
NV_WRITE. `exec_effect` says so once for every instruction; who writes what (R24 to R39) and the invariant follow by
looking at each kind of write. -/

namespace Sys2Proof.Machine

/-! ## The single register writes -/

/-- One register write that instruction `i` can make under the parameters `p`. A constructor whose write is confined
to certain instructions names them in `who`. -/
inductive RegWrite (p : Params) (i : Instr) (b : Block) : Block → Prop where
  /-- R22: one byte is put on a FIFO with room. -/
  | push (f : FifoSel) (x : Byte) (room : (b.fifo f).free ≠ 0) :
      RegWrite p i b (b.setFifo f ((b.fifo f).push x))
  /-- R22: one byte is taken from a FIFO that holds one. -/
  | pop (f : FifoSel) (holds : (b.fifo f).avail ≠ 0) : RegWrite p i b (b.setFifo f (b.fifo f).pop)
  /-- 41_frame_sync.md R134: a frame is put on a transmit FIFO with room for it. -/
  | respond (x : FiveBytes) (room : 5 ≤ b.tx.free.toNat) : RegWrite p i b { b with tx := b.tx.pushFrame x }
  /-- R24. -/
  | overflow (x : Byte) (who : i = .rxByte x) : RegWrite p i b { b with rxOvf := true }
  /-- R25. -/
  | stage (x : FiveBytes) (n : BitVec 3) (fits : n.toNat ≤ 4) : RegWrite p i b { b with stg := x, stgCount := n }
  /-- R26: the synchronizer hands a valid frame on. -/
  | emit (x : FiveBytes) (valid : frameValid x = true) : RegWrite p i b { b with frm := x, frmValid := true }
  /-- R26: the dispatcher takes the frame. -/
  | dropFrame : RegWrite p i b { b with frmValid := false }
  /-- R27. -/
  | sample (c : Chan) (w : Vector Word16 16) (who : i = .tick) :
      RegWrite p i b (b.setChan c { b.chan c with win := w })
  /-- R28. -/
  | advance (who : i = .tick) : RegWrite p i b { b with pos := b.pos + 1 }
  /-- R29, R30: an RMS is latched with its verdict. -/
  | latch (c : Chan) (x : Word16) (who : i = .tick ∨ i = .rmsLatch c) (bound : x.toNat ≤ 32767) :
      RegWrite p i b (b.setChan c { b.chan c with rms := x, voltageAlarm := alarmVerdict p x })
  /-- R29: every channel has been latched. -/
  | validate (who : i = .tick) (latched : ∀ c, alarmAgrees p (b.chan c)) : RegWrite p i b { b with rmsValid := true }
  /-- R31 to R33: the relay registers of a channel are evaluated; `x` is what the channel then holds. -/
  | evaluate (c : Chan) (x : ChanRegs) (who : i = .tick ∨ ∃ m, i = .relayEval c m) (win : x.win = (b.chan c).win)
      (rms : x.rms = (b.chan c).rms) (alarm : x.voltageAlarm = (b.chan c).voltageAlarm)
      (wf : (b.chan c).wf → x.wf) : RegWrite p i b (b.setChan c x)
  /-- R35, R37: a raise trip is counted. -/
  | countRaise (who : i = .tick ∨ ∃ c m, i = .relayEval c m) (slot : b.raisesSlot.valid = true) :
      RegWrite p i b { b with raisesNb := b.raisesNb + 1, raisesDirty := true }
  /-- R35, R37: a lower trip is counted. -/
  | countLower (who : i = .tick ∨ ∃ c m, i = .relayEval c m) (slot : b.lowersSlot.valid = true) :
      RegWrite p i b { b with lowersNb := b.lowersNb + 1, lowersDirty := true }
  /-- R34: SET_TIMING names the mode in its `p1`. -/
  | setMode (m : Mode) (a : Bool) (p1 p2 p3 : Byte) (who : i = .setTiming a p1 p2 p3)
      (named : p1 = if m = .definite then 0 else 1) : RegWrite p i b { b with mode := m }
  /-- R35, R37: RESET_RAISES. -/
  | zeroRaises (who : ∃ a p1 p2 p3, i = .resetRaises a p1 p2 p3) :
      RegWrite p i b { b with raisesNb := 0, raisesDirty := false }
  /-- R35, R37: RESET_LOWERS. -/
  | zeroLowers (who : ∃ a p1 p2 p3, i = .resetLowers a p1 p2 p3) :
      RegWrite p i b { b with lowersNb := 0, lowersDirty := false }
  /-- R37: PERSIST. -/
  | cleanRaises : RegWrite p i b { b with raisesDirty := false }
  /-- R37: PERSIST. -/
  | cleanLowers : RegWrite p i b { b with lowersDirty := false }
  /-- R38: an allocation takes the bytes of its run. -/
  | mark (n a : Nat) (who : (∃ size, i = .alloc size) ∨ i = .init) :
      RegWrite p i b { b with fsm := markUsed b.fsm n a }
  /-- R40. -/
  | status (st : Status) (notFull : st ≠ .full) : RegWrite p i b { b with nvStatus := st }
  /-- R35, R36, R41: INIT binds the slots and loads the counters. -/
  | bind (rs ls : Slot) (rn ln : Word16) (who : i = .init) : RegWrite p i b
      { b with raisesSlot := rs, lowersSlot := ls, raisesNb := rn, lowersNb := ln, initDone := true }

/-- Register writes one after another. -/
abbrev RegWrites (p : Params) (i : Instr) : Block → Block → Prop := Relation.ReflTransGen (RegWrite p i)

theorem RegWrite.once {p : Params} {i : Instr} {b b' : Block} (h : RegWrite p i b b') : RegWrites p i b b' :=
  .single h

/-- What no single write changes, the writes together do not change. -/
theorem RegWrites.keeps {α : Type} {p : Params} {i : Instr} {b b' : Block} (f : Block → α)
    (h : ∀ {b b'}, RegWrite p i b b' → f b' = f b) (hw : RegWrites p i b b') : f b' = f b := by
  induction hw with
  | refl => rfl
  | tail _ last ih => exact (h last).trans ih

/-- A pass over channels is a sequence of writes when it is one on each channel. -/
theorem RegWrites.foldl {p : Params} {i : Instr} {f : Block → Chan → Block} (h : ∀ c b, RegWrites p i b (f b c))
    (cs : List Chan) (b : Block) : RegWrites p i b (cs.foldl f b) := by
  induction cs generalizing b with
  | nil => exact .refl
  | cons c cs ih => exact (h c b).trans (ih (f b c))

/-! ## The operations as register writes -/

theorem syncByte_regWrites (p : Params) (i : Instr) (b : Block) (x : Byte) : RegWrites p i b (syncByte b x) := by
  unfold syncByte
  dsimp only
  split
  · next hn =>
    refine (RegWrite.stage _ _ ?_).once
    rw [BitVec.toNat_ofNat]
    omega
  · split
    · next hv => exact (RegWrite.stage _ 0 (by decide)).once.tail (.emit _ hv)
    · exact (RegWrite.stage _ 4 (by decide)).once

@[simp] theorem countTrip_chan (d : TripDir) (b : Block) (c : Chan) : (countTrip d b).chan c = b.chan c := by
  unfold countTrip
  cases d <;> dsimp only <;> split <;> cases c <;> rfl

@[simp] theorem Block.setChan_setChan (b : Block) (c : Chan) (x y : ChanRegs) :
    (b.setChan c x).setChan c y = b.setChan c y := by
  cases c <;> rfl

theorem countTrip_regWrites (p : Params) {i : Instr} (d : TripDir) (b : Block)
    (who : i = .tick ∨ ∃ c m, i = .relayEval c m) : RegWrites p i b (countTrip d b) := by
  unfold countTrip
  cases d with
  | raise =>
    dsimp only
    split
    · next slot => exact (RegWrite.countRaise who slot).once
    · exact .refl
  | lower =>
    dsimp only
    split
    · next slot => exact (RegWrite.countLower who slot).once
    · exact .refl

/-- One evaluation rewrites its channel's registers and counts a trip, if there was one (R175, R179, R182). -/
theorem relayEval_eq (p : Params) (c : Chan) (m : Mode) (b : Block) :
    ∃ x, relayEval p c m b = b.setChan c x ∨ ∃ d, relayEval p c m b = countTrip d (b.setChan c x) := by
  obtain ⟨h, -⟩ | ⟨-, -, h⟩ | ⟨-, -, h⟩ | ⟨-, -, h⟩ := relayEval_cases p c m b <;> rw [h]
  · exact ⟨b.chan c, .inl (by cases c <;> rfl)⟩
  · exact ⟨_, .inl rfl⟩
  · exact ⟨_, .inl rfl⟩
  · unfold relayCount
    dsimp only
    split
    · unfold relayTrip
      split <;> exact ⟨_, .inr ⟨_, by rw [Block.setChan_setChan]⟩⟩
    · exact ⟨_, .inl rfl⟩

theorem relayEval_regWrites (p : Params) {i : Instr} {c : Chan} (m : Mode) (b : Block)
    (who : i = .tick ∨ ∃ m, i = .relayEval c m) : RegWrites p i b (relayEval p c m b) := by
  obtain ⟨x, hx⟩ := relayEval_eq p c m b
  have hchan : (relayEval p c m b).chan c = x := by
    obtain h | ⟨d, h⟩ := hx <;> simp [h]
  have hframe := relayEval_frame p c m b
  have hwrite : RegWrites p i b (b.setChan c x) :=
    (RegWrite.evaluate c x who (hchan ▸ hframe.win) (hchan ▸ hframe.rms) (hchan ▸ hframe.alarm)
      (hchan ▸ relayEval_chan_wf)).once
  obtain h | ⟨d, h⟩ := hx <;> rw [h]
  · exact hwrite
  · exact hwrite.trans (countTrip_regWrites p d _ (who.imp_right fun ⟨m, hm⟩ => ⟨c, m, hm⟩))

theorem rmsLatch_regWrites (p : Params) {i : Instr} {c : Chan} (b : Block) (who : i = .tick ∨ i = .rmsLatch c) :
    RegWrites p i b (rmsLatch p c b) := by
  refine (RegWrite.latch c _ who ?_).once
  have hle := rmsf_le (b.chan c).win
  rw [BitVec.toNat_ofNat]
  omega

theorem rmsLatch_alarmAgrees (p : Params) (c : Chan) (b : Block) : alarmAgrees p ((rmsLatch p c b).chan c) := by
  simp [alarmAgrees, rmsLatch, alarmVerdict]

theorem rmsLatch_chan_ne (p : Params) {c d : Chan} (b : Block) (h : d ≠ c) : (rmsLatch p c b).chan d = b.chan d :=
  Block.chan_setChan_ne b _ h

/-- Once all channels have been latched, every alarm agrees with its latched RMS (R154). -/
theorem latchAll_alarmAgrees (p : Params) (b : Block) (c : Chan) :
    alarmAgrees p ((Chan.all.foldl (fun b c => rmsLatch p c b) b).chan c) := by
  simp only [Chan.all, List.foldl_cons, List.foldl_nil]
  cases c with
  | c0 =>
    rw [rmsLatch_chan_ne p _ (by decide), rmsLatch_chan_ne p _ (by decide)]
    exact rmsLatch_alarmAgrees p .c0 b
  | c1 =>
    rw [rmsLatch_chan_ne p _ (by decide)]
    exact rmsLatch_alarmAgrees p .c1 _
  | c2 => exact rmsLatch_alarmAgrees p .c2 _

theorem tickBlock_regWrites (p : Params) (m : Mode) (b : Block) : RegWrites p .tick b (tickBlock p m b) := by
  have hpos : RegWrites p .tick b { b with pos := b.pos + 1 } := (RegWrite.advance rfl).once
  have hlatch : ∀ b, RegWrites p .tick b { Chan.all.foldl (fun b c => rmsLatch p c b) b with rmsValid := true } :=
    fun b => (RegWrites.foldl (fun _ b => rmsLatch_regWrites p b (.inl rfl)) _ b).tail
      (.validate rfl (latchAll_alarmAgrees p b))
  have heval : ∀ b, RegWrites p .tick b (Chan.all.foldl (fun b c => relayEval p c m b) b) :=
    RegWrites.foldl (fun c b => relayEval_regWrites p m b (.inl rfl)) _
  unfold tickBlock
  dsimp only
  split
  · exact hpos.trans ((hlatch _).trans (heval _))
  · split
    · exact hpos.trans (heval _)
    · exact hpos

/-! ## The effect of a transaction -/

theorem nvCheck_eq_none_iff (p : Params) (w off : Nat) : nvCheck p w off = none ↔ WriteAccepted p w off := by
  have hw : legalWidth w = true ↔ w = 1 ∨ w = 2 ∨ w = 4 := by simp [legalWidth, or_assoc]
  rw [WriteAccepted, ← hw, nvCheck]
  cases legalWidth w with
  | false => simp
  | true => by_cases ha : off % w = 0 <;> simp [ha]

/-- What a transaction does to storage: nothing, or the one NV_WRITE that it makes, which passes its checks. -/
inductive StorageEffect (i : Instr) (s t : State) : Prop where
  | kept (same : t.nv = s.nv)
  | written (w off : Nat) (target : writeTarget s i = some (w, off)) (accepted : WriteAccepted s.cfg w off)
      (wf : Memory.wf s.nv → Memory.wf t.nv) (outside : StorageSameOutside s t (unitBase s.cfg off) s.cfg.eu)

/-- What instruction `i` does to the block registers and to storage. -/
structure Effect (i : Instr) (s t : State) : Prop where
  regs : RegWrites s.cfg i s.blk t.blk
  storage : StorageEffect i s t

/-- An effect on registers alone. -/
theorem Effect.ofRegs {i : Instr} {s t : State} (hw : RegWrites s.cfg i s.blk t.blk) (hnv : t.nv = s.nv) :
    Effect i s t :=
  ⟨hw, .kept hnv⟩

/-- More register writes after an effect. -/
theorem Effect.andRegs {i : Instr} {s t u : State} (h : Effect i s t) (hw : RegWrites s.cfg i t.blk u.blk)
    (hnv : u.nv = t.nv) : Effect i s u := by
  refine ⟨h.regs.trans hw, ?_⟩
  cases h.storage with
  | kept same => exact .kept (hnv.trans same)
  | written w off target accepted wf outside =>
    exact .written w off target accepted (fun h => hnv ▸ wf h) (fun a ha => hnv ▸ outside a ha)

/-- The NV_WRITE that a transaction makes, after register writes of its own. -/
theorem Effect.ofNvWrite {i : Instr} {s : State} {b : Block} {w off : Nat} (val : Word32)
    (hw : RegWrites s.cfg i s.blk b) (target : writeTarget s i = some (w, off)) :
    Effect i s ((s.setBlk b).nvWrite w off val).2 := by
  obtain ⟨-, hblk, hfull, hwf, houtside⟩ := State.nvWrite_spec (s.setBlk b) w off val
  refine ⟨?_, ?_⟩
  · rw [hblk]
    exact hw.tail (.status _ hfull)
  · cases hc : nvCheck s.cfg w off with
    | some st => exact .kept (by simp [State.nvWrite, hc])
    | none => exact .written w off target ((nvCheck_eq_none_iff _ _ _).mp hc) hwf houtside

/-- Whatever next state the outcome answers, it satisfies `P`. -/
def Answers (P : State → Prop) (o : Out) : Prop := ∀ t, o = .next t → P t

theorem effect_hold (i : Instr) (s : State) : Answers (Effect i s) (hold s) := fun t h => by
  rw [hold_next h]
  exact .ofRegs .refl rfl

theorem effect_finish {i : Instr} {s u : State} (r : Result) (h : Effect i s u) :
    Answers (Effect i s) (finish r u) := fun t ht => by
  rw [finish_next ht]
  exact h.andRegs .refl rfl

theorem effect_gated {i : Instr} {k : State → Out} {s : State}
    (h : s.blk.initDone = true → Answers (Effect i s) (k s)) : Answers (Effect i s) (gated k s) := fun t ht => by
  obtain ⟨-, rfl⟩ | ⟨hi, hk⟩ := gated_next ht
  · exact .ofRegs .refl rfl
  · exact h hi t hk

/-- A transaction that waits for `p` to fail and then only writes registers. -/
theorem effect_waits {i : Instr} {p : State → Prop} [DecidablePred p] {r : State → Result} {f : State → State}
    {s : State} (hw : ¬ p s → RegWrites s.cfg i s.blk (f s).blk) (hnv : (f s).nv = s.nv) :
    Answers (Effect i s) (gated (fun s => if p s then hold s else finish (r s) (f s)) s) :=
  effect_gated fun _ => by
    split
    · exact effect_hold i s
    · next hp => exact effect_finish _ (.ofRegs (hw hp) hnv)

/-! ## FIFO, synchronizer, sampling, relay -/

theorem execPut_effect (f : FifoSel) (x : Byte) (s : State) : Answers (Effect (.put f x) s) (execPut f x s) :=
  effect_waits (fun room => (RegWrite.push f x room).once) rfl

theorem execTryput_effect (f : FifoSel) (x : Byte) (s : State) :
    Answers (Effect (.tryput f x) s) (execTryput f x s) := effect_gated fun _ => by
  split
  · exact effect_finish _ (.ofRegs .refl rfl)
  · next room => exact effect_finish _ (.ofRegs (RegWrite.push f x room).once rfl)

theorem execGet_effect (f : FifoSel) (s : State) : Answers (Effect (.get f) s) (execGet f s) :=
  effect_waits (fun holds => (RegWrite.pop f holds).once) rfl

theorem execRxByte_effect (x : Byte) (s : State) : Answers (Effect (.rxByte x) s) (execRxByte x s) :=
  effect_gated fun _ => by
    split
    · split
      · exact effect_finish _ (.ofRegs (RegWrite.overflow x rfl).once rfl)
      · exact effect_hold _ s
    · next room => exact effect_finish _ (.ofRegs (RegWrite.push .rx x room).once rfl)

theorem execTxReady_effect (s : State) : Answers (Effect .txReady s) (execTxReady s) :=
  effect_waits (fun holds => (RegWrite.pop .tx holds).once) rfl

theorem execSyncStep_effect (s : State) : Answers (Effect .syncStep s) (execSyncStep s) := effect_gated fun _ => by
  split
  · exact effect_hold _ s
  · split
    · exact effect_hold _ s
    · next holds =>
      split
      · intro t h
        cases h
      · exact effect_finish _
          (.ofRegs ((RegWrite.pop .rx holds).once.trans (syncByte_regWrites _ _ _ _)) rfl)

/-- Room for a frame (R134, R135). -/
theorem txNoRoom_eq_false_iff (b : Block) : txNoRoom b = false ↔ 5 ≤ b.tx.free.toNat := by
  simp [txNoRoom]

theorem execEncodeFrame_effect (c p1 p2 p3 : Byte) (s : State) :
    Answers (Effect (.encodeFrame c p1 p2 p3) s) (execEncodeFrame c p1 p2 p3 s) :=
  effect_waits
    (fun room => (RegWrite.respond _ ((txNoRoom_eq_false_iff _).mp ((Bool.not_eq_true _).mp room))).once) rfl

/-- The samples of a tick, channel by channel (R150). -/
theorem sampleChans_effect (cs : List Chan) (s : State) : Effect .tick s (cs.foldl State.sampleChan s) := by
  have h : RegWrites s.cfg .tick s.blk (cs.foldl State.sampleChan s).blk ∧
      (cs.foldl State.sampleChan s).nv = s.nv := by
    induction cs generalizing s with
    | nil => exact ⟨.refl, rfl⟩
    | cons c cs ih =>
      obtain ⟨hw, hnv⟩ := ih (s.sampleChan c)
      exact ⟨(RegWrite.sample c _ rfl).once.trans hw, hnv⟩
  exact .ofRegs h.1 h.2

theorem execTick_effect (s : State) : Answers (Effect .tick s) (execTick s) := effect_gated fun _ =>
  effect_finish _ ((sampleChans_effect Chan.all s).andRegs (tickBlock_regWrites _ _ _) rfl)

theorem execRmsLatch_effect (c : Chan) (s : State) : Answers (Effect (.rmsLatch c) s) (execRmsLatch c s) :=
  effect_gated fun _ => effect_finish _ (.ofRegs (rmsLatch_regWrites _ _ (.inr rfl)) rfl)

theorem execRelayEval_effect (c : Chan) (m : Mode) (s : State) :
    Answers (Effect (.relayEval c m) s) (execRelayEval c m s) :=
  effect_gated fun _ => effect_finish _ (.ofRegs (relayEval_regWrites _ m _ (.inr ⟨m, rfl⟩)) rfl)

/-! ## Storage and boot -/

theorem allocBlock_regWrites (p : Params) {i : Instr} (size : Nat) (b : Block)
    (who : (∃ size, i = .alloc size) ∨ i = .init) : RegWrites p i b (allocBlock p size b).2 := by
  obtain ⟨a, -, -, h⟩ | ⟨-, -, h⟩ | ⟨-, h⟩ := allocBlock_spec p size b <;> rw [h]
  · exact (RegWrite.mark size a who).once.tail (.status .ok (by decide))
  · exact (RegWrite.status .outOfSpace (by decide)).once
  · exact (RegWrite.status .badSize (by decide)).once

theorem execAlloc_effect (size : Byte) (s : State) : Answers (Effect (.alloc size) s) (execAlloc size s) :=
  effect_gated fun _ => effect_finish _ (.ofRegs (allocBlock_regWrites _ _ _ (.inl ⟨size, rfl⟩)) rfl)

theorem execNvWrite_effect (w : Byte) (off : Word16) (val : Word32) (s : State) :
    Answers (Effect (.nvWrite w off val) s) (execNvWrite w off val s) := effect_gated fun hi =>
  effect_finish _ (.ofNvWrite val (b := s.blk) .refl (by simp [writeTarget, hi]))

theorem execPersist_effect (s : State) : Answers (Effect .persist s) (execPersist s) := effect_gated fun hi => by
  split
  · next hr => exact effect_finish _ (.ofNvWrite _ RegWrite.cleanRaises.once (by simp [writeTarget, hi, hr]))
  · next hr =>
    split
    · next hl =>
      exact effect_finish _ (.ofNvWrite _ RegWrite.cleanLowers.once (by simp [writeTarget, hi, hr, hl]))
    · exact effect_hold _ s

theorem execInit_effect (s : State) : Answers (Effect .init s) (execInit s) := by
  unfold execInit
  split
  · exact effect_hold _ s
  · have halloc : ∀ b, RegWrites s.cfg .init b (allocBlock s.cfg 2 b).2 :=
      fun b => allocBlock_regWrites s.cfg 2 b (.inr rfl)
    exact effect_finish _ (.ofRegs (((halloc _).trans (halloc _)).tail (.bind _ _ _ _ rfl)) rfl)

/-! ## Frame commands -/

/-- A frame command has the effect of its execution, then perhaps puts a response on `tx` (R230). -/
theorem effect_runCommand {i : Instr} {a : Bool} {code : BitVec 7} {f : State → Reply × State} {s : State}
    (hf : s.blk.initDone = true → (a && txNoRoom s.blk) = false →
      Effect i s (f (s.setBlk { s.blk with frmValid := false })).2)
    (htx : (f (s.setBlk { s.blk with frmValid := false })).2.blk.tx = s.blk.tx) :
    Answers (Effect i s) (runCommand a code f s) := fun t ht => by
  obtain rfl | ⟨hi, hroom, r, u, hu, rfl⟩ := runCommand_next ht
  · exact .ofRegs .refl rfl
  · have hfits : (a && txNoRoom s.blk) = false := by
      rw [Bool.and_eq_false_imp]
      exact fun ha => (txNoRoom_eq_false_iff _).mpr (hroom ha)
    rw [hu] at hf htx
    cases a with
    | false => exact (hf hi hfits).andRegs .refl rfl
    | true => exact (hf hi hfits).andRegs (RegWrite.respond _ (htx ▸ hroom rfl)).once rfl

/-- A frame command whose execution writes no register (R232, R234, R236, R238 to R241). -/
theorem effect_runCommand_silent (i : Instr) {a : Bool} {code : BitVec 7} {f : State → Reply × State} (s : State)
    (hf : ∀ u, (f u).2 = u) : Answers (Effect i s) (runCommand a code f s) := by
  refine effect_runCommand (fun _ _ => ?_) ?_ <;> rw [hf]
  · exact .ofRegs RegWrite.dropFrame.once rfl
  · rfl

theorem execGetTiming_effect (a : Bool) (p1 p2 p3 : Byte) (s : State) :
    Answers (Effect (.getTiming a p1 p2 p3) s) (execGetTiming a p1 p2 p3 s) :=
  effect_runCommand_silent _ s fun _ => rfl

theorem execGetRaises_effect (a : Bool) (p1 p2 p3 : Byte) (s : State) :
    Answers (Effect (.getRaises a p1 p2 p3) s) (execGetRaises a p1 p2 p3 s) :=
  effect_runCommand_silent _ s fun _ => rfl

theorem execGetLowers_effect (a : Bool) (p1 p2 p3 : Byte) (s : State) :
    Answers (Effect (.getLowers a p1 p2 p3) s) (execGetLowers a p1 p2 p3 s) :=
  effect_runCommand_silent _ s fun _ => rfl

theorem execSetTiming_effect (a : Bool) (p1 p2 p3 : Byte) (s : State) :
    Answers (Effect (.setTiming a p1 p2 p3) s) (execSetTiming a p1 p2 p3 s) := by
  have hdrop := (RegWrite.dropFrame (p := s.cfg) (i := .setTiming a p1 p2 p3) (b := s.blk)).once
  refine effect_runCommand (fun _ _ => ?_) ?_ <;> dsimp only
  · split
    · next h => exact .ofRegs (hdrop.tail (.setMode .definite a p1 p2 p3 rfl h)) rfl
    · split
      · next h => exact .ofRegs (hdrop.tail (.setMode .inverse a p1 p2 p3 rfl h)) rfl
      · exact .ofRegs hdrop rfl
  · split
    · rfl
    · split <;> rfl

/-- The storage part of a counter reset, after register writes (R235, R237). -/
theorem Effect.ofStoreZero {i : Instr} {s : State} {b : Block} {slot : Slot} (hw : RegWrites s.cfg i s.blk b)
    (target : slot.valid = true → writeTarget s i = some (2, slot.off.toNat)) :
    Effect i s ((s.setBlk b).storeZero slot).2 := by
  unfold State.storeZero
  split
  · next hv => exact .ofNvWrite 0 hw (target hv)
  · exact .ofRegs hw rfl

theorem State.storeZero_tx (s : State) (slot : Slot) : (s.storeZero slot).2.blk.tx = s.blk.tx := by
  obtain ⟨-, ⟨st, ⟨-, hblk⟩ | hblk⟩, -, -⟩ := State.storeZero_spec s slot <;> rw [hblk]

theorem execResetRaises_effect (a : Bool) (p1 p2 p3 : Byte) (s : State) :
    Answers (Effect (.resetRaises a p1 p2 p3) s) (execResetRaises a p1 p2 p3 s) :=
  effect_runCommand
    (fun hi hfits => .ofStoreZero (RegWrite.dropFrame.once.tail (.zeroRaises ⟨a, p1, p2, p3, rfl⟩))
      fun hv => by simpa [writeTarget, hi, resetTarget, hfits] using hv)
    (State.storeZero_tx _ _)

theorem execResetLowers_effect (a : Bool) (p1 p2 p3 : Byte) (s : State) :
    Answers (Effect (.resetLowers a p1 p2 p3) s) (execResetLowers a p1 p2 p3 s) :=
  effect_runCommand
    (fun hi hfits => .ofStoreZero (RegWrite.dropFrame.once.tail (.zeroLowers ⟨a, p1, p2, p3, rfl⟩))
      fun hv => by simpa [writeTarget, hi, resetTarget, hfits] using hv)
    (State.storeZero_tx _ _)

/-! ## Every instruction -/

theorem runCommand_boot {a : Bool} {code : BitVec 7} {f : State → Reply × State} {s : State}
    (hs : s.blk.initDone = false) : runCommand a code f s = .next { s with result := .held } :=
  gated_boot hs

/-- Until INIT has run, every other transaction holds (R271). -/
theorem holds_of_not_initDone {i : Instr} {s : State} (hs : s.blk.initDone = false) (hi : i ≠ .init) :
    Holds i s := by
  unfold Holds exec
  cases i with
  | init => exact absurd rfl hi
  | getTiming | setTiming | getRaises | resetRaises | getLowers | resetLowers | queryFreq | queryVolt | querySpectrum
  | cmdUnknown => exact runCommand_boot hs
  | _ => exact gated_boot hs

/-- What a frame spells is a frame command. -/
theorem decodeFrame_ne {k : CmdCodes} {f : FiveBytes} {j : Instr} (hj : commandHead k j = none) :
    decodeFrame k f ≠ j := by
  rintro rfl
  revert hj
  unfold decodeFrame
  dsimp only
  split <;> exact Option.some_ne_none _

theorem exec_dispatch_of_not_frmValid {s : State} (h : s.blk.frmValid = false) : exec .dispatch s = hold s := by
  have hrun : exec .dispatch s = execDispatch s := rfl
  simp [hrun, execDispatch, gated, h]

/-- DISPATCH with a frame waiting is the command the frame spells (R230). -/
theorem exec_dispatch_of_frmValid {s : State} (h : s.blk.frmValid = true) :
    exec .dispatch s = exec (decodeFrame s.cfg.cmdCode s.blk.frm) s := by
  cases hs : s.blk.initDone with
  | false =>
    have hdispatch : Holds .dispatch s := holds_of_not_initDone hs Instr.noConfusion
    have hcommand : Holds (decodeFrame s.cfg.cmdCode s.blk.frm) s := holds_of_not_initDone hs (decodeFrame_ne rfl)
    exact hdispatch.trans hcommand.symm
  | true =>
    have hrun : exec .dispatch s = execDispatch s := rfl
    rw [hrun, execDispatch, gated_ready hs, if_pos h, decodeFrame]
    dsimp only
    cases s.cfg.cmdCode.lookup (codeField s.blk.frm.b0) with
    | none => rfl
    | some name => cases name <;> rfl

/-- The instruction a transaction comes down to: for DISPATCH with a frame waiting, the command it spells. -/
def effective (s : State) : Instr → Instr
  | .dispatch => if s.blk.frmValid then decodeFrame s.cfg.cmdCode s.blk.frm else .dispatch
  | i => i

theorem effective_of_ne {i : Instr} (s : State) (h : i ≠ .dispatch) : effective s i = i := by
  cases i with
  | dispatch => exact absurd rfl h
  | _ => rfl

theorem effective_cases (s : State) (i : Instr) :
    effective s i = i ∨
      i = .dispatch ∧ s.blk.frmValid = true ∧ effective s i = decodeFrame s.cfg.cmdCode s.blk.frm := by
  by_cases hi : i = .dispatch
  · subst hi
    by_cases hv : s.blk.frmValid = true
    · exact .inr ⟨rfl, hv, if_pos hv⟩
    · exact .inl (if_neg hv)
  · exact .inl (effective_of_ne s hi)

/-- Where a transaction comes down to no frame command, it is that instruction itself. -/
theorem eq_of_effective_eq {s : State} {i j : Instr} (hj : commandHead s.cfg.cmdCode j = none)
    (h : effective s i = j) : i = j := by
  obtain he | ⟨-, -, he⟩ := effective_cases s i
  · exact he.symm.trans h
  · exact absurd (he.symm.trans h) (decodeFrame_ne hj)

theorem effective_idem (s : State) (i : Instr) : effective s (effective s i) = effective s i := by
  obtain he | ⟨-, -, he⟩ := effective_cases s i <;> rw [he]
  · exact he
  · exact effective_of_ne s (decodeFrame_ne rfl)

theorem exec_effective (s : State) (i : Instr) : exec (effective s i) s = exec i s := by
  obtain he | ⟨rfl, hv, he⟩ := effective_cases s i <;> rw [he]
  exact (exec_dispatch_of_frmValid hv).symm

theorem writeTarget_effective (s : State) (i : Instr) : writeTarget s (effective s i) = writeTarget s i := by
  obtain he | ⟨rfl, hv, he⟩ := effective_cases s i <;> rw [he]
  cases hs : s.blk.initDone with
  | false => simp [writeTarget, hs]
  | true =>
    simp only [writeTarget, hs, hv, Bool.not_true, Bool.false_eq_true, if_false, if_true, decodeFrame]
    cases s.cfg.cmdCode.lookup (codeField s.blk.frm.b0) with
    | none => rfl
    | some name => cases name <;> rfl

/-- What an instruction does that is no DISPATCH of a waiting frame. -/
theorem exec_effect_self {i : Instr} {s : State} (h : effective s i = i) : Answers (Effect i s) (exec i s) := by
  cases i with
  | put f x => exact execPut_effect f x s
  | tryput f x => exact execTryput_effect f x s
  | get f => exact execGet_effect f s
  | rxByte x => exact execRxByte_effect x s
  | txReady => exact execTxReady_effect s
  | syncStep => exact execSyncStep_effect s
  | dispatch =>
    have hv : s.blk.frmValid = false := by
      rw [← Bool.not_eq_true]
      exact fun hv => decodeFrame_ne rfl ((if_pos hv).symm.trans h)
    rw [exec_dispatch_of_not_frmValid hv]
    exact effect_hold _ s
  | encodeFrame c p1 p2 p3 => exact execEncodeFrame_effect c p1 p2 p3 s
  | tick => exact execTick_effect s
  | rmsLatch c => exact execRmsLatch_effect c s
  | relayEval c m => exact execRelayEval_effect c m s
  | alloc size => exact execAlloc_effect size s
  | nvWrite w off v => exact execNvWrite_effect w off v s
  | persist => exact execPersist_effect s
  | init => exact execInit_effect s
  | getTiming a p1 p2 p3 => exact execGetTiming_effect a p1 p2 p3 s
  | getRaises a p1 p2 p3 => exact execGetRaises_effect a p1 p2 p3 s
  | getLowers a p1 p2 p3 => exact execGetLowers_effect a p1 p2 p3 s
  | setTiming a p1 p2 p3 => exact execSetTiming_effect a p1 p2 p3 s
  | resetRaises a p1 p2 p3 => exact execResetRaises_effect a p1 p2 p3 s
  | resetLowers a p1 p2 p3 => exact execResetLowers_effect a p1 p2 p3 s
  | queryFreq | queryVolt | querySpectrum | cmdUnknown => exact effect_runCommand_silent _ s fun _ => rfl

/-- What every transaction does: the register writes and the storage write of the instruction it comes down to. -/
theorem exec_effect {i : Instr} {s t : State} (h : exec i s = .next t) : Effect (effective s i) s t :=
  exec_effect_self (effective_idem s i) t ((exec_effective s i).trans h)

/-! ## Who writes a register (R24, R27 to R38) -/

theorem Block.chan_setChan (b : Block) (c d : Chan) (x : ChanRegs) :
    (b.setChan c x).chan d = if d = c then x else b.chan d := by
  split
  · next h => rw [h, Block.chan_setChan_same]
  · next h => exact Block.chan_setChan_ne b x h

theorem RegWrites.mode {p : Params} {i : Instr} {b b' : Block} (h : RegWrites p i b b') :
    b'.mode = b.mode ∨
      ∃ a p1 p2 p3, i = .setTiming a p1 p2 p3 ∧ p1 = if b'.mode = .definite then 0 else 1 := by
  induction h with
  | refl => exact .inl rfl
  | tail _ last ih =>
    cases last with
    | setMode m a p1 p2 p3 who named => exact .inr ⟨a, p1, p2, p3, who, named⟩
    | push | pop | sample | latch | evaluate => simpa using ih
    | _ => exact ih

theorem RegWrites.rxOvf {p : Params} {i : Instr} {b b' : Block} (h : RegWrites p i b b') :
    b'.rxOvf = b.rxOvf ∨ b'.rxOvf = true ∧ ∃ x, i = .rxByte x := by
  induction h with
  | refl => exact .inl rfl
  | tail _ last ih =>
    cases last with
    | overflow x who => exact .inr ⟨rfl, x, who⟩
    | push | pop | sample | latch | evaluate => simpa using ih
    | _ => exact ih

theorem RegWrites.fsm {p : Params} {i : Instr} {b b' : Block} (h : RegWrites p i b b') :
    b'.fsm.length = b.fsm.length ∧ (∀ n : Nat, b.fsm[n]? = some true → b'.fsm[n]? = some true) ∧
      (b'.fsm = b.fsm ∨ (∃ size, i = .alloc size) ∨ i = .init) := by
  induction h with
  | refl => exact ⟨rfl, fun _ h => h, .inl rfl⟩
  | tail _ last ih =>
    cases last with
    | mark n a who =>
      obtain ⟨hlen, hset, -⟩ := ih
      refine ⟨by simpa using hlen, fun k hk => ?_, .inr who⟩
      simp [markUsed, hset k hk]
    | push | pop | sample | latch | evaluate => simpa using ih
    | _ => exact ih

theorem RegWrites.slots {p : Params} {i : Instr} {b b' : Block} (hi : i ≠ .init) (h : RegWrites p i b b') :
    b'.raisesSlot = b.raisesSlot ∧ b'.lowersSlot = b.lowersSlot := by
  refine Prod.ext_iff.mp (h.keeps (fun b => (b.raisesSlot, b.lowersSlot)) fun last => ?_)
  cases last with
  | bind _ _ _ _ who => exact absurd who hi
  | push | pop | sample | latch | evaluate => simp
  | _ => rfl

theorem RegWrites.initDone {p : Params} {i : Instr} {b b' : Block} (hi : i ≠ .init) (h : RegWrites p i b b') :
    b'.initDone = b.initDone := by
  refine h.keeps Block.initDone fun last => ?_
  cases last with
  | bind _ _ _ _ who => exact absurd who hi
  | push | pop | sample | latch | evaluate => simp
  | _ => rfl

theorem RegWrites.position {p : Params} {i : Instr} {b b' : Block} (hi : i ≠ .tick) (h : RegWrites p i b b') :
    b'.pos = b.pos ∧ b'.rmsValid = b.rmsValid := by
  refine Prod.ext_iff.mp (h.keeps (fun b => (b.pos, b.rmsValid)) fun last => ?_)
  cases last with
  | advance who => exact absurd who hi
  | validate who => exact absurd who hi
  | push | pop | sample | latch | evaluate => simp
  | _ => rfl

/-- What of a channel's registers sampling, latching and evaluating do not change, no register write changes; `hi`
gives the cases that instruction `i` can be in. -/
theorem RegWrites.chan_keeps {α : Type} {p : Params} {i : Instr} {b b' : Block} {c : Chan} (g : ChanRegs → α)
    (sample : i = .tick → ∀ r w, g { r with win := w } = g r)
    (latch : i = .tick ∨ i = .rmsLatch c → ∀ r x v, g { r with rms := x, voltageAlarm := v } = g r)
    (evaluate : (i = .tick ∨ ∃ m, i = .relayEval c m) → ∀ r x : ChanRegs, x.win = r.win → x.rms = r.rms →
      x.voltageAlarm = r.voltageAlarm → g x = g r)
    (h : RegWrites p i b b') : g (b'.chan c) = g (b.chan c) := by
  refine h.keeps (fun b => g (b.chan c)) fun {b _} last => ?_
  have hset : ∀ d x, (d = c → g x = g (b.chan c)) → g ((b.setChan d x).chan c) = g (b.chan c) := fun d x hx => by
    rw [Block.chan_setChan]
    split
    · next h => exact hx h.symm
    · rfl
  cases last with
  | push | pop => rw [Block.chan_setFifo]
  | sample d w who => exact hset d _ fun hd => hd ▸ sample who _ w
  | latch d x who => exact hset d _ fun hd => by subst hd; exact latch who _ x _
  | evaluate d x who win rms alarm => exact hset d x fun hd => by subst hd; exact evaluate who _ x win rms alarm
  | _ => cases c <;> rfl

/-- The registers of a channel that RELAY_EVAL writes (R31 to R33). -/
def ChanRegs.relay (r : ChanRegs) : RelayState × Bool × Bool × Word32 × Word32 :=
  (r.st, r.raiseReq, r.lowerReq, r.timerCount, r.timerDelay)

theorem RegWrites.raisesNb {p : Params} {i : Instr} {b b' : Block} (htick : i ≠ .tick)
    (heval : ∀ c m, i ≠ .relayEval c m) (hinit : i ≠ .init) (h : RegWrites p i b b') :
    b'.raisesNb = b.raisesNb ∨ b'.raisesNb = 0 ∧ ∃ a p1 p2 p3, i = .resetRaises a p1 p2 p3 := by
  induction h with
  | refl => exact .inl rfl
  | tail _ last ih =>
    cases last with
    | countRaise who => exact absurd who (by simp [htick, heval])
    | zeroRaises who => exact .inr ⟨rfl, who⟩
    | bind _ _ _ _ who => exact absurd who hinit
    | push | pop | sample | latch | evaluate => simpa using ih
    | _ => exact ih

theorem RegWrites.lowersNb {p : Params} {i : Instr} {b b' : Block} (htick : i ≠ .tick)
    (heval : ∀ c m, i ≠ .relayEval c m) (hinit : i ≠ .init) (h : RegWrites p i b b') :
    b'.lowersNb = b.lowersNb ∨ b'.lowersNb = 0 ∧ ∃ a p1 p2 p3, i = .resetLowers a p1 p2 p3 := by
  induction h with
  | refl => exact .inl rfl
  | tail _ last ih =>
    cases last with
    | countLower who => exact absurd who (by simp [htick, heval])
    | zeroLowers who => exact .inr ⟨rfl, who⟩
    | bind _ _ _ _ who => exact absurd who hinit
    | push | pop | sample | latch | evaluate => simpa using ih
    | _ => exact ih

theorem effective_ne {s : State} {i j : Instr} (hj : commandHead s.cfg.cmdCode j = none) (h : i ≠ j) :
    effective s i ≠ j :=
  fun he => h (eq_of_effective_eq hj he)

/-- Settles O12: of the register writes only SET_TIMING's changes the mode, and DISPATCH comes down to the command
its frame spells. -/
theorem modeHasOneWriter : Obligations.ModeHasOneWriter := by
  intro i s t h hne
  obtain hsame | ⟨a, p1, p2, p3, hwho, hnamed⟩ := (exec_effect h).regs.mode
  · exact absurd hsame hne
  · obtain he | ⟨hi, hv, he⟩ := effective_cases s i
    · exact .inl ⟨a, p1, p2, p3, he.symm.trans hwho, hnamed⟩
    · exact .inr ⟨hi, hv, a, p1, p2, p3, he.symm.trans hwho, hnamed⟩

/-- RX_BYTE on an initialized block whose receive FIFO is full, under DROP (R115). -/
theorem exec_rxByte_drop {s : State} (x : Byte) (hi : s.blk.initDone = true) (hfull : s.blk.rx.free = 0)
    (hdrop : s.cfg.rxFullPolicy = .drop) :
    exec (.rxByte x) s = finish .none ((s.setBlk { s.blk with rxOvf := true }).wireReceived x) := by
  have hrun : exec (.rxByte x) s = execRxByte x s := rfl
  rw [hrun, execRxByte, gated_ready hi, if_pos hfull, hdrop]

/-- RX_BYTE changes the overflow flag only when it discards its byte (R24, R115). -/
theorem exec_rxByte_rxOvf {s t : State} {x : Byte} (h : exec (.rxByte x) s = .next t)
    (hne : t.blk.rxOvf ≠ s.blk.rxOvf) :
    s.blk.initDone = true ∧ s.blk.rx.free = 0 ∧ s.cfg.rxFullPolicy = .drop := by
  have hrun : execRxByte x s = .next t := h
  obtain ⟨-, rfl⟩ | ⟨hi, hk⟩ := gated_next hrun
  · exact absurd rfl hne
  · split at hk
    · next hfull =>
      split at hk
      · next hdrop => exact ⟨hi, hfull, hdrop⟩
      · rw [hold_next hk] at hne
        exact absurd rfl hne
    · rw [finish_next hk] at hne
      exact absurd rfl hne

/-- Settles O13: of the register writes only RX_BYTE's sets the flag, and none clears it. -/
theorem overflowFlagIsSticky : Obligations.OverflowFlagIsSticky := by
  refine ⟨fun _ => rfl, fun i s t h hset => ?_, fun i s t h hclear hset => ?_, fun x s hi hfull hdrop => ?_⟩
  · obtain hsame | ⟨hset', -⟩ := (exec_effect h).regs.rxOvf
    · exact hsame.trans hset
    · exact hset'
  · obtain hsame | ⟨-, x, hwho⟩ := (exec_effect h).regs.rxOvf
    · rw [hsame, hclear] at hset
      cases hset
    · obtain rfl := eq_of_effective_eq rfl hwho
      exact ⟨x, rfl, exec_rxByte_rxOvf h (by rw [hclear, hset]; decide)⟩
  · exact ⟨_, exec_rxByte_drop x hi hfull hdrop, rfl, rfl⟩

/-- Settles O14: of the register writes only the marking of a run changes the bitmap, and it only sets bits. -/
theorem bitmapBitsAreNeverCleared : Obligations.BitmapBitsAreNeverCleared := by
  intro i s t h
  obtain ⟨hlen, hset, hwho⟩ := (exec_effect h).regs.fsm
  refine ⟨hlen, hset, fun hne => ?_⟩
  obtain hsame | ⟨size, hi⟩ | hi := hwho
  · exact absurd hsame hne
  · exact .inl ⟨size, eq_of_effective_eq rfl hi⟩
  · exact .inr (eq_of_effective_eq rfl hi)

/-- Settles O15: a transaction leaves storage alone or makes the one write that `writeTarget` names. -/
theorem storageChangesOnlyInsideOneCheckedWrite : Obligations.StorageChangesOnlyInsideOneCheckedWrite := by
  intro i s t a h hne
  cases (exec_effect h).storage with
  | kept same => exact absurd (by rw [same]) hne
  | written w off target accepted wf outside =>
    have hinside : ¬ (a < s.cfg.nvsBase + unitBase s.cfg off ∨
        s.cfg.nvsBase + unitBase s.cfg off + s.cfg.eu ≤ a) :=
      fun hout => hne (outside a hout)
    exact ⟨w, off, writeTarget_effective s i ▸ target, accepted, by omega, by omega⟩

/-- Settles O16: of the register writes only INIT's binds the slots. -/
theorem slotsAreBoundOnlyByInit : Obligations.SlotsAreBoundOnlyByInit := fun _ _ _ h hi =>
  (exec_effect h).regs.slots (effective_ne rfl hi)

/-- Settles O17: sampling, the position and `rmsValid` are written by TICK alone, and a latch is TICK's or the
RMS_LATCH of its channel. -/
theorem windowsMoveOnlyOnTick : Obligations.WindowsMoveOnlyOnTick := by
  intro i s t h hi
  have htick : effective s i ≠ .tick := effective_ne rfl hi
  have hregs := (exec_effect h).regs
  obtain ⟨hpos, hvalid⟩ := hregs.position htick
  refine ⟨hpos, hvalid, fun c => ⟨?_, fun hc => ?_⟩⟩
  · exact hregs.chan_keeps ChanRegs.win (fun h => absurd h htick) (fun _ _ _ _ => rfl) fun _ _ _ win _ _ => win
  · have hlatch : ¬ (effective s i = .tick ∨ effective s i = .rmsLatch c) := by
      simp [htick, effective_ne (s := s) (j := .rmsLatch c) rfl hc]
    exact Prod.ext_iff.mp (hregs.chan_keeps (fun r => (r.rms, r.voltageAlarm)) (fun h => absurd h htick)
      (fun h => absurd h hlatch) fun _ _ _ _ rms alarm => by rw [rms, alarm])

/-- Settles O18: of the register writes only an evaluation of the channel changes its relay registers. -/
theorem relayRegistersMoveOnlyOnEvaluation : Obligations.RelayRegistersMoveOnlyOnEvaluation := by
  intro i s t c h hi hc
  have heval : ¬ (effective s i = .tick ∨ ∃ m, effective s i = .relayEval c m) := by
    rintro (he | ⟨m, he⟩)
    · exact hi (eq_of_effective_eq rfl he)
    · exact hc m (eq_of_effective_eq rfl he)
  have hsame : (t.blk.chan c).relay = (s.blk.chan c).relay :=
    (exec_effect h).regs.chan_keeps ChanRegs.relay (fun _ _ _ => rfl) (fun _ _ _ _ => rfl) fun h => absurd h heval
  simpa only [ChanRegs.relay, Prod.mk.injEq] using hsame

/-- Settles O19: outside a trip and INIT, of the register writes only the counter's reset command writes it. -/
theorem countersMoveOnlyByTheirWriters : Obligations.CountersMoveOnlyByTheirWriters := by
  intro i s t h htick heval hinit
  have htick' : effective s i ≠ .tick := effective_ne rfl htick
  have heval' : ∀ c m, effective s i ≠ .relayEval c m := fun c m => effective_ne rfl (heval c m)
  have hinit' : effective s i ≠ .init := effective_ne rfl hinit
  have hregs := (exec_effect h).regs
  refine ⟨(hregs.raisesNb htick' heval' hinit').imp_right (And.imp_right ?_),
    (hregs.lowersNb htick' heval' hinit').imp_right (And.imp_right ?_)⟩ <;>
  · rintro ⟨a, p1, p2, p3, hwho⟩
    obtain he | ⟨hi, -, he⟩ := effective_cases s i
    · exact .inl ⟨a, p1, p2, p3, he.symm.trans hwho⟩
    · exact .inr ⟨hi, a, p1, p2, p3, he.symm.trans hwho⟩

/-- Settles O27: an initialized block with a byte to take and no place for it in `stg` stops. -/
theorem syncStepStopsOnAnImpossibleCount : Obligations.SyncStepStopsOnAnImpossibleCount := by
  intro s hi hv havail hcount
  have hrun : exec .syncStep s = execSyncStep s := rfl
  rw [hrun, execSyncStep, gated_ready hi, if_neg (by simp [hv]), if_neg havail, if_pos (Nat.lt_of_succ_le hcount)]

/-! ## The invariant of the registers -/

/-- The part of the invariant that speaks of the block registers and holds before INIT as after it. -/
structure RegsInv (p : Params) (b : Block) : Prop where
  rx : b.rx.wf
  tx : b.tx.wf
  staging : b.stgCount.toNat ≤ 4
  frame : b.frmValid = true → frameValid b.frm = true
  chan : ∀ c, (b.chan c).wf
  alarm : b.rmsValid = true → ∀ c, alarmAgrees p (b.chan c)
  bitmap : b.fsm.length = p.nvsSize
  status : b.nvStatus ≠ .full
  raisesDirty : b.raisesDirty = true → b.raisesSlot.valid = true
  lowersDirty : b.lowersDirty = true → b.lowersSlot.valid = true
  slots : b.initDone = true → slotsBound p b

theorem BlockInv.regs {s : State} (h : BlockInv s) : RegsInv s.cfg s.blk :=
  { h with }

theorem RegsInv.setFifo {p : Params} {b : Block} (h : RegsInv p b) (f : FifoSel) {x : Fifo} (hx : x.wf) :
    RegsInv p (b.setFifo f x) := by
  cases f with
  | rx => exact { h with rx := hx }
  | tx => exact { h with tx := hx }

theorem RegsInv.fifo {p : Params} {b : Block} (h : RegsInv p b) (f : FifoSel) : (b.fifo f).wf := by
  cases f with
  | rx => exact h.rx
  | tx => exact h.tx

/-- The invariant after a write to a channel's registers. -/
theorem RegsInv.setChan {p : Params} {b : Block} (h : RegsInv p b) (c : Chan) {x : ChanRegs} (hwf : x.wf)
    (halarm : b.rmsValid = true → alarmAgrees p x) : RegsInv p (b.setChan c x) := by
  have hchan : ∀ d, ((b.setChan c x).chan d).wf := fun d => by
    rw [Block.chan_setChan]
    split
    · exact hwf
    · exact h.chan d
  have hagrees : b.rmsValid = true → ∀ d, alarmAgrees p ((b.setChan c x).chan d) := fun hv d => by
    rw [Block.chan_setChan]
    split
    · exact halarm hv
    · exact h.alarm hv d
  cases c <;> exact { h with chan := hchan, alarm := hagrees }

/-- Every register write but INIT's keeps the invariant of the registers. -/
theorem RegWrite.keeps_regsInv {p : Params} {i : Instr} {b b' : Block} (hi : i ≠ .init) (hw : RegWrite p i b b')
    (h : RegsInv p b) : RegsInv p b' := by
  cases hw with
  | push f x room => exact h.setFifo f (Fifo.push_wf (h.fifo f) room x)
  | pop f holds => exact h.setFifo f (Fifo.pop_wf (h.fifo f) holds)
  | respond x room => exact { h with tx := Fifo.pushFrame_wf h.tx room x }
  | overflow => exact { h with }
  | stage x n fits => exact { h with staging := fits }
  | emit x valid => exact { h with frame := fun _ => valid }
  | dropFrame => exact { h with frame := nofun }
  | sample c w => exact h.setChan c (h.chan c) fun hv => h.alarm hv c
  | advance => exact { h with }
  | latch c x _ bound =>
    obtain ⟨hraise, hlower, htimers, -⟩ := h.chan c
    exact h.setChan c ⟨hraise, hlower, htimers, bound⟩ fun _ => by simp [alarmAgrees, alarmVerdict]
  | validate _ latched => exact { h with alarm := fun _ => latched }
  | evaluate c x _ win rms alarm wf =>
    exact h.setChan c (wf (h.chan c)) fun hv => by simpa [alarmAgrees, rms, alarm] using h.alarm hv c
  | countRaise _ slot => exact { h with raisesDirty := fun _ => slot }
  | countLower _ slot => exact { h with lowersDirty := fun _ => slot }
  | setMode => exact { h with }
  | zeroRaises => exact { h with raisesDirty := nofun }
  | zeroLowers => exact { h with lowersDirty := nofun }
  | cleanRaises => exact { h with raisesDirty := nofun }
  | cleanLowers => exact { h with lowersDirty := nofun }
  | mark n a => exact { h with bitmap := (markUsed_length _ n a).trans h.bitmap }
  | status st notFull => exact { h with status := notFull }
  | bind _ _ _ _ who => exact absurd who hi

theorem RegWrites.keeps_regsInv {p : Params} {i : Instr} {b b' : Block} (hi : i ≠ .init) (hw : RegWrites p i b b')
    (h : RegsInv p b) : RegsInv p b' := by
  induction hw with
  | refl => exact h
  | tail _ last ih => exact last.keeps_regsInv hi ih

theorem chan_reset (p : Params) (c : Chan) : (Block.reset p).chan c = ChanRegs.reset := by
  cases c <;> rfl

theorem regsInv_reset (p : Params) : RegsInv p (Block.reset p) where
  rx := ⟨rfl, rfl⟩
  tx := ⟨rfl, rfl⟩
  staging := Nat.zero_le 4
  frame := nofun
  chan c := by rw [chan_reset]; simp [ChanRegs.wf, ChanRegs.reset]
  alarm := nofun
  bitmap := List.length_replicate
  status := nofun
  raisesDirty := nofun
  lowersDirty := nofun
  slots := nofun

/-! ## INIT from the reset registers (R292) -/

/-- The scan of R200 finds the lowest aligned candidate that fits and is free. -/
theorem firstFit_eq_some {p : Params} {fsm : List Bool} {size k : Nat} (hsize : 0 < size)
    (hfits : k * size + size ≤ p.nvsSize) (hfree : freeRun fsm size (k * size) = true)
    (hleast : ∀ j < k, freeRun fsm size (j * size) = false) : firstFit p fsm size = some (k * size) := by
  have hk : k < p.nvsSize / size := (Nat.le_div_iff_mul_le hsize).mpr (by rwa [Nat.succ_mul])
  have hfind : (List.range (p.nvsSize / size)).find? (freeRun fsm size ∘ fun k => k * size) = some k :=
    List.find?_range_eq_some.mpr ⟨hfree, List.mem_range.mpr hk, fun j hj => by simp [hleast j hj]⟩
  rw [firstFit, List.find?_map, hfind]
  rfl

theorem allocBlock_of_firstFit {p : Params} {size a : Nat} {b : Block} (hl : legalWidth size = true)
    (hf : firstFit p b.fsm size = some a) :
    allocBlock p size b = (.ok (BitVec.ofNat 16 a), { b with fsm := markUsed b.fsm size a, nvStatus := .ok }) := by
  simp [allocBlock, hl, hf]

@[simp] theorem allocBlock_raisesDirty (p : Params) (size : Nat) (b : Block) :
    (allocBlock p size b).2.raisesDirty = b.raisesDirty := by
  obtain ⟨a, -, -, h⟩ | ⟨-, -, h⟩ | ⟨-, h⟩ := allocBlock_spec p size b <;> rw [h]

@[simp] theorem allocBlock_lowersDirty (p : Params) (size : Nat) (b : Block) :
    (allocBlock p size b).2.lowersDirty = b.lowersDirty := by
  obtain ⟨a, -, -, h⟩ | ⟨-, -, h⟩ | ⟨-, h⟩ := allocBlock_spec p size b <;> rw [h]

theorem getElem?_markUsed (fsm : List Bool) (n a i : Nat) :
    (markUsed fsm n a)[i]? = fsm[i]?.map fun u => u || (a ≤ i && i < a + n) := by
  simp [markUsed]

/-- A region that is not empty holds at least one erase unit, so four bytes (R6). -/
theorem Params.four_le_nvsSize {p : Params} (h : p.wf) (hne : p.nvsSize ≠ 0) : 4 ≤ p.nvsSize := by
  obtain ⟨heu, -, hunits, -⟩ := h
  exact heu.trans (Nat.le_of_dvd (Nat.pos_of_ne_zero hne) (Nat.dvd_of_mod_eq_zero hunits))

/-- The first allocation of two bytes after a reset. -/
theorem firstFit_replicate {p : Params} (h : 4 ≤ p.nvsSize) :
    firstFit p (List.replicate p.nvsSize false) 2 = some 0 := by
  refine firstFit_eq_some (k := 0) (by decide) (by omega) ((freeRun_iff _ _ _).mpr fun i hi => ?_) nofun
  rw [List.getElem?_replicate, if_pos (by omega)]

/-- The second allocation of two bytes after a reset. -/
theorem firstFit_markUsed_replicate {p : Params} (h : 4 ≤ p.nvsSize) :
    firstFit p (markUsed (List.replicate p.nvsSize false) 2 0) 2 = some 2 := by
  refine firstFit_eq_some (k := 1) (by decide) (by omega) ((freeRun_iff _ _ _).mpr fun i hi => ?_) fun j hj => ?_
  · rw [getElem?_markUsed, List.getElem?_replicate, if_pos (by omega)]
    simp only [Option.map_some, Bool.false_or, Option.some.injEq, Bool.and_eq_false_iff, decide_eq_false_iff_not]
    omega
  · obtain rfl : j = 0 := by omega
    rw [← Bool.not_eq_true, freeRun_iff]
    intro hfree
    have hused := hfree 0 (by decide)
    rw [getElem?_markUsed, List.getElem?_replicate, if_pos (by omega)] at hused
    cases hused

/-- The slots that the two allocations of INIT give from the reset registers. -/
theorem slotsBound_of_reset {p : Params} (h : p.wf) {b : Block}
    (hr : b.raisesSlot = (allocBlock p 2 (Block.reset p)).1.slot)
    (hl : b.lowersSlot = (allocBlock p 2 (allocBlock p 2 (Block.reset p)).2).1.slot) : slotsBound p b := by
  unfold slotsBound
  split
  · next h0 =>
    have hnone : ∀ b, (allocBlock p 2 b).1 = .fail .outOfSpace := fun b => by
      simp [allocBlock, legalWidth, firstFit, h0]
    rw [hr, hl, hnone, hnone]
    exact ⟨rfl, rfl⟩
  · next hne =>
    have hsize := Params.four_le_nvsSize h hne
    have hfirst := allocBlock_of_firstFit (b := Block.reset p) (by decide) (firstFit_replicate hsize)
    rw [hl, hr, hfirst]
    dsimp only
    rw [allocBlock_of_firstFit (by decide) (firstFit_markUsed_replicate hsize)]
    exact ⟨rfl, rfl⟩

/-! ## Every step keeps the invariant -/

/-- The invariant speaks of the parameters, the registers and storage alone. -/
theorem BlockInv.congr {s t : State} (h : BlockInv s) (hcfg : t.cfg = s.cfg) (hblk : t.blk = s.blk)
    (hnv : t.nv = s.nv) : BlockInv t := by
  obtain ⟨cfg, blk, nv⟩ := t
  subst hcfg hblk hnv
  exact { h with }

theorem blockInv_of_regs {s : State} (params : s.cfg.wf) (memory : Memory.wf s.nv) (regs : RegsInv s.cfg s.blk)
    (boot : s.blk.initDone = false → s.blk = Block.reset s.cfg) : BlockInv s :=
  { regs with params, memory, boot }

theorem blockInv_of_reset {s : State} (params : s.cfg.wf) (memory : Memory.wf s.nv)
    (hblk : s.blk = Block.reset s.cfg) : BlockInv s :=
  blockInv_of_regs params memory (hblk ▸ regsInv_reset s.cfg) fun _ => hblk

theorem Effect.memory_wf {i : Instr} {s t : State} (h : Effect i s t) (hm : Memory.wf s.nv) : Memory.wf t.nv := by
  cases h.storage with
  | kept same => rwa [same]
  | written w off target accepted wf outside => exact wf hm

/-- INIT on the reset registers (R292). -/
theorem exec_init_regsInv {s t : State} (h : exec .init s = .next t) (hp : s.cfg.wf)
    (hblk : s.blk = Block.reset s.cfg) : RegsInv s.cfg t.blk ∧ t.blk.initDone = true := by
  have hrun : execInit s = .next t := h
  have hi : ¬ s.blk.initDone = true := by rw [hblk]; exact Bool.false_ne_true
  rw [execInit, if_neg hi] at hrun
  rw [finish_next hrun]
  have halloc : ∀ b, RegWrites s.cfg (.alloc 2) b (allocBlock s.cfg 2 b).2 :=
    fun b => allocBlock_regWrites s.cfg 2 b (.inl ⟨2, rfl⟩)
  have hregs : RegsInv s.cfg (allocBlock s.cfg 2 (allocBlock s.cfg 2 s.blk).2).2 :=
    RegWrites.keeps_regsInv (i := .alloc 2) Instr.noConfusion ((halloc _).trans (halloc _))
      (hblk ▸ regsInv_reset s.cfg)
  refine ⟨?_, rfl⟩
  exact { hregs with
    raisesDirty := fun hd => by simp [hblk, Block.reset] at hd
    lowersDirty := fun hd => by simp [hblk, Block.reset] at hd
    slots := fun _ => slotsBound_of_reset hp (hblk ▸ rfl) (hblk ▸ rfl) }

/-- Every transaction keeps the invariant. -/
theorem exec_keeps_blockInv {i : Instr} {s t : State} (h : exec i s = .next t) (inv : BlockInv s) : BlockInv t := by
  have hcfg : t.cfg = s.cfg := (exec_keepsConst i s t h).1
  have hparams : t.cfg.wf := hcfg ▸ inv.params
  have heffect := exec_effect h
  have hmemory : Memory.wf t.nv := heffect.memory_wf inv.memory
  cases hs : s.blk.initDone with
  | false =>
    by_cases hi : i = .init
    · subst hi
      obtain ⟨hregs, hdone⟩ := exec_init_regsInv h inv.params (inv.boot hs)
      exact blockInv_of_regs hparams hmemory (hcfg ▸ hregs) fun hf => absurd (hdone.symm.trans hf) (by decide)
    · have hheld : t = { s with result := .held } := hold_next ((holds_of_not_initDone hs hi).symm.trans h)
      exact inv.congr hcfg (by rw [hheld]) (by rw [hheld])
  | true =>
    by_cases hi : i = .init
    · subst hi
      have hrun : execInit s = .next t := h
      rw [execInit, if_pos hs] at hrun
      rw [hold_next hrun]
      exact inv.congr rfl rfl rfl
    · have hne : effective s i ≠ .init := effective_ne rfl hi
      have hdone : t.blk.initDone = true := (heffect.regs.initDone hne).trans hs
      exact blockInv_of_regs hparams hmemory (hcfg ▸ heffect.regs.keeps_regsInv hne inv.regs)
        fun hf => absurd (hdone.symm.trans hf) (by decide)

@[simp] theorem fetch_blk (s : State) : (fetch s).2.blk = s.blk := by
  unfold fetch
  split
  · rfl
  · split <;> rfl

@[simp] theorem fetch_nv (s : State) : (fetch s).2.nv = s.nv := by
  unfold fetch
  split
  · rfl
  · split <;> rfl

theorem blockReset_blockInv {s : State} (inv : BlockInv s) : BlockInv s.blockReset :=
  blockInv_of_reset inv.params inv.memory rfl

/-- A reset inside a storage write spoils bytes of the unit, in whatever way, and resets the registers (R305). -/
theorem tornReset_blockInv {s : State} (inv : BlockInv s) (i : Instr) : BlockInv (s.tornReset i) := by
  obtain ⟨w, off, -, -, h⟩ | h := s.tornReset_cases i <;> rw [h]
  · obtain ⟨-, -, -, hwf, -⟩ := s.scrambleUnit_frame (unitBase s.cfg off)
    exact blockInv_of_reset inv.params (hwf inv.memory) rfl
  · exact blockReset_blockInv inv

/-- Settles O9, by the cases of a step: a transaction keeps the invariant through each of its register writes, a
hold and a refusal change none of the registers, and both resets restore the registers of `Block.reset`. -/
theorem everyStepKeepsTheInvariant : Obligations.EveryStepKeepsTheInvariant := by
  intro s t inv h
  have hfetched : BlockInv (fetch s).2 := inv.congr (fetch_cfg s) (fetch_blk s) (fetch_nv s)
  cases step_cases h with
  | runs w i event decoded admits executed => exact exec_keeps_blockInv executed hfetched
  | notAdmitted w i event decoded admits after => exact after ▸ hfetched.congr rfl rfl rfl
  | noOperation w err event decoded after => exact after ▸ hfetched.congr rfl rfl rfl
  | resets event after => exact after ▸ blockReset_blockInv hfetched
  | tears w i event decoded admits after => exact after ▸ tornReset_blockInv hfetched i

end Sys2Proof.Machine

/-! # 30_encoding.md: the decoder and the encoder -/

namespace Sys2Proof

open Machine

/-! ## Fields of words and frames (R80 to R82, R89, R90) -/

@[simp] theorem Mode.ofBit_toBit (m : Mode) : Mode.ofBit m.toBit = m := by
  cases m <;> rfl

@[simp] theorem Mode.toBit_ofBit (b : Bool) : (Mode.ofBit b).toBit = b := by
  cases b <;> rfl

theorem eq_zero_iff_toNat {n : Nat} (x : BitVec n) : x = 0#n ↔ x.toNat = 0 := by
  rw [← BitVec.toNat_inj, BitVec.toNat_ofNat, Nat.zero_mod]

/-- A word is its four fields (R89). -/
theorem txWord_fields (w : TxWord) : txWord (opField w) (selField w) (addrField w) (dataField w) = w := by
  apply BitVec.eq_of_getLsbD_eq
  intro i hi
  simp [txWord, opField, selField, addrField, dataField]
  grind

/-- The word of an instruction, from the values of its fields. -/
theorem word_txWord_eq {w : TxWord} {op sel : Byte} {addr : Word16} {data : Word32}
    (hop : (opField w).toNat = op.toNat) (hsel : selField w = sel) (haddr : addrField w = addr)
    (hdata : dataField w = data) : Encoded.word (txWord op sel addr data) = .word w := by
  rw [← BitVec.eq_of_toNat_eq hop, ← hsel, ← haddr, ← hdata, txWord_fields]

/-- A 32-bit value is its four bytes (R90). -/
theorem append_byteOf (v : Word32) : byteOf v 3 ++ byteOf v 2 ++ byteOf v 1 ++ byteOf v 0 = v := by
  apply BitVec.eq_of_getLsbD_eq
  intro i hi
  simp [byteOf]
  grind

theorem byteOnly_iff_lt (d : Word32) : byteOnly d = true ↔ d.toNat < 256 := by
  rw [byteOnly, beq_iff_eq, ← BitVec.toNat_inj]
  simp only [BitVec.extractLsb'_toNat, BitVec.ofNat_eq_ofNat, BitVec.toNat_ofNat, Nat.shiftRight_eq_div_pow]
  omega

/-- A value with `DATA[31:8]` zero is its low byte. -/
theorem setWidth_byteOf {d : Word32} (h : byteOnly d = true) : (byteOf d 0).setWidth 32 = d := by
  rw [byteOnly_iff_lt] at h
  apply BitVec.eq_of_toNat_eq
  simp [byteOf]
  omega

/-- An address field whose upper bits are zero is the mode bit of RELAY_EVAL (R90). -/
theorem setWidth_modeBit {addr : Word16} (h : addr.extractLsb' 1 15 = 0) :
    (BitVec.ofBool (Mode.ofBit (addr.getLsbD 0)).toBit).setWidth 16 = addr := by
  rw [Mode.toBit_ofBit]
  apply BitVec.eq_of_getLsbD_eq
  intro i hi
  have hz := congrArg (·.getLsbD (i - 1)) h
  simp at hz ⊢
  grind

theorem extractLsb'_addr_eq_zero_iff (addr : Word16) : addr.extractLsb' 1 15 = 0#15 ↔ addr.toNat ≤ 1 := by
  rw [← BitVec.toNat_inj]
  simp only [BitVec.extractLsb'_toNat, BitVec.toNat_ofNat, Nat.shiftRight_eq_div_pow]
  omega

theorem nvValueOk_iff (w : Byte) (d : Word32) :
    nvValueOk w d = true ↔ (w.toNat = 1 → d.toNat < 256) ∧ (w.toNat = 2 → d.toNat < 65536) := by
  have h1 : w = 1 ↔ w.toNat = 1 := by rw [← BitVec.toNat_inj]; rfl
  have h2 : w = 2 ↔ w.toNat = 2 := by rw [← BitVec.toNat_inj]; rfl
  simp only [nvValueOk, h1, h2]
  grind

/-- The value check of the decoder is the one a well-formed NV_WRITE meets. -/
theorem wellFormed_nvWrite (k : CmdCodes) (w : Byte) (off : Word16) (d : Word32) :
    Instr.wellFormed k (.nvWrite w off d) = nvValueOk w d := by
  unfold Instr.wellFormed nvValueOk
  grind

/-- A command byte is its flag and its code (R82). -/
theorem commandByte_fields (b : Byte) : commandByte (ackBit b) (codeField b) = b := by
  apply BitVec.eq_of_getLsbD_eq
  intro i hi
  simp [commandByte, ackBit, codeField]
  grind

/-- A valid frame is its first four bytes and their checksum (R81). -/
theorem ofFour_of_frameValid {f : FiveBytes} (h : frameValid f = true) :
    FiveBytes.ofFour f.b0 f.b1 f.b2 f.b3 = f := by
  rw [frameValid, beq_iff_eq] at h
  rw [FiveBytes.ofFour, ← h]

/-! ## What each check of the decoder accepts (R90, R95) -/

theorem reserved_eq_ok_iff (zero : Bool) (i j : Instr) : reserved zero i = .ok j ↔ zero = true ∧ i = j := by
  cases zero <;> simp [reserved]

theorem FifoSel.ofSel_eq_ok_iff (sel : Byte) (f : FifoSel) : FifoSel.ofSel sel = .ok f ↔ sel = f.toSel := by
  unfold FifoSel.ofSel
  cases f <;> simp only [FifoSel.toSel] <;> grind

theorem Chan.ofSel_eq_ok_iff (sel : Byte) (c : Chan) : Chan.ofSel sel = .ok c ↔ sel = c.toSel := by
  unfold Chan.ofSel
  cases c <;> simp only [Chan.toSel] <;> grind

@[simp] theorem FifoSel.ofSel_toSel (f : FifoSel) : FifoSel.ofSel f.toSel = .ok f :=
  (FifoSel.ofSel_eq_ok_iff _ f).mpr rfl

@[simp] theorem Chan.ofSel_toSel (c : Chan) : Chan.ofSel c.toSel = .ok c :=
  (Chan.ofSel_eq_ok_iff _ c).mpr rfl

theorem FifoSel.exists_toSel_iff (sel : Byte) : (∃ f : FifoSel, sel = f.toSel) ↔ sel.toNat ≤ 1 := by
  constructor
  · rintro ⟨f, rfl⟩
    cases f <;> decide
  · intro h
    have hsel : sel.toNat = 0 ∨ sel.toNat = 1 := by omega
    obtain h | h := hsel
    · exact ⟨.rx, BitVec.eq_of_toNat_eq h⟩
    · exact ⟨.tx, BitVec.eq_of_toNat_eq h⟩

theorem Chan.exists_toSel_iff (sel : Byte) : (∃ c : Chan, sel = c.toSel) ↔ sel.toNat < 3 := by
  constructor
  · rintro ⟨c, rfl⟩
    cases c <;> decide
  · intro h
    have hsel : sel.toNat = 0 ∨ sel.toNat = 1 ∨ sel.toNat = 2 := by omega
    obtain h | h | h := hsel
    · exact ⟨.c0, BitVec.eq_of_toNat_eq h⟩
    · exact ⟨.c1, BitVec.eq_of_toNat_eq h⟩
    · exact ⟨.c2, BitVec.eq_of_toNat_eq h⟩

theorem bind_eq_ok_iff {α β : Type} (x : Except DecodeError α) (g : α → Except DecodeError β) (b : β) :
    x.bind g = .ok b ↔ ∃ a, x = .ok a ∧ g a = .ok b := by
  cases x <;> simp [Except.bind]

/-! ## The table of transaction words (R91) -/

/-- Every transaction's word decodes to the transaction (R89 to R91). -/
theorem decodeWord_of_encode {k : CmdCodes} {i : Instr} {w : TxWord} (h : encode k i = .word w)
    (hwf : i.wellFormed k = true) : decodeWord w = .ok i := by
  cases i with
  | put f b | tryput f b | get f =>
    cases h
    simp [decodeWord, Except.bind, reserved]
  | rmsLatch c =>
    cases h
    simp [decodeWord, Except.bind, reserved]
  | relayEval c m =>
    cases h
    have haddr : ((BitVec.ofBool m.toBit).setWidth 16 : Word16).extractLsb' 1 15 = 0 := by cases m <;> rfl
    simp [decodeWord, Except.bind, reserved, haddr]
  | encodeFrame c p1 p2 p3 =>
    cases h
    simp [decodeWord, reserved, byteOf_four]
  | nvWrite w off v =>
    cases h
    rw [wellFormed_nvWrite] at hwf
    simp [decodeWord, reserved, hwf]
  | rxByte b | txReady | syncStep | dispatch | tick | alloc size | persist | init =>
    cases h
    simp [decodeWord, reserved]
  | getTiming | setTiming | getRaises | resetRaises | getLowers | resetLowers | queryFreq | queryVolt | querySpectrum
  | cmdUnknown => cases h

/-- Rows of R91 without operands. -/
theorem encode_of_bare {k : CmdCodes} {w : TxWord} {op : Byte} {i j : Instr}
    (h : reserved (selField w == 0 && addrField w == 0 && dataField w == 0) j = .ok i)
    (hop : (opField w).toNat = op.toNat) (hj : encode k j = .word (txWord op 0 0 0)) : encode k i = .word w := by
  simp only [reserved_eq_ok_iff, Bool.and_eq_true, beq_iff_eq] at h
  obtain ⟨⟨⟨hsel, haddr⟩, hdata⟩, rfl⟩ := h
  exact hj.trans (word_txWord_eq hop hsel haddr hdata)

/-- Rows of R91 with a FIFO and a byte. -/
theorem encode_of_fifoByte {k : CmdCodes} {w : TxWord} {op : Byte} {i : Instr} {row : FifoSel → Byte → Instr}
    (h : ((FifoSel.ofSel (selField w)).bind fun f =>
      reserved (addrField w == 0 && byteOnly (dataField w)) (row f (byteOf (dataField w) 0))) = .ok i)
    (hop : (opField w).toNat = op.toNat)
    (hrow : ∀ f b, encode k (row f b) = .word (txWord op f.toSel 0 (b.setWidth 32))) : encode k i = .word w := by
  simp only [bind_eq_ok_iff, FifoSel.ofSel_eq_ok_iff, reserved_eq_ok_iff, Bool.and_eq_true, beq_iff_eq] at h
  obtain ⟨f, hsel, ⟨haddr, hdata⟩, rfl⟩ := h
  exact (hrow _ _).trans (word_txWord_eq hop hsel haddr (setWidth_byteOf hdata).symm)

/-- A word that decodes is the word of the transaction it spells (R89 to R91, R95). -/
theorem encode_of_decodeWord (k : CmdCodes) {w : TxWord} {i : Instr} (h : decodeWord w = .ok i) :
    encode k i = .word w := by
  unfold decodeWord at h
  dsimp only at h
  split at h
  · next hop => exact encode_of_fifoByte (op := 0x01) h hop fun _ _ => rfl
  · next hop => exact encode_of_fifoByte (op := 0x02) h hop fun _ _ => rfl
  · next hop =>
    simp only [bind_eq_ok_iff, FifoSel.ofSel_eq_ok_iff, reserved_eq_ok_iff, Bool.and_eq_true, beq_iff_eq] at h
    obtain ⟨f, hsel, ⟨haddr, hdata⟩, rfl⟩ := h
    exact word_txWord_eq hop hsel haddr hdata
  · next hop =>
    simp only [reserved_eq_ok_iff, Bool.and_eq_true, beq_iff_eq] at h
    obtain ⟨⟨⟨hsel, haddr⟩, hdata⟩, rfl⟩ := h
    exact word_txWord_eq hop hsel haddr (setWidth_byteOf hdata).symm
  · next hop => exact encode_of_bare (op := 0x11) h hop rfl
  · next hop => exact encode_of_bare (op := 0x12) h hop rfl
  · next hop => exact encode_of_bare (op := 0x13) h hop rfl
  · next hop =>
    simp only [reserved_eq_ok_iff, Bool.and_eq_true, beq_iff_eq] at h
    obtain ⟨⟨hsel, haddr⟩, rfl⟩ := h
    exact word_txWord_eq hop hsel haddr (append_byteOf _).symm
  · next hop => exact encode_of_bare (op := 0x20) h hop rfl
  · next hop =>
    simp only [bind_eq_ok_iff, Chan.ofSel_eq_ok_iff, reserved_eq_ok_iff, Bool.and_eq_true, beq_iff_eq] at h
    obtain ⟨c, hsel, ⟨haddr, hdata⟩, rfl⟩ := h
    exact word_txWord_eq hop hsel haddr hdata
  · next hop =>
    simp only [bind_eq_ok_iff, Chan.ofSel_eq_ok_iff, reserved_eq_ok_iff, Bool.and_eq_true, beq_iff_eq] at h
    obtain ⟨c, hsel, ⟨haddr, hdata⟩, rfl⟩ := h
    exact word_txWord_eq hop hsel (setWidth_modeBit haddr).symm hdata
  · next hop =>
    simp only [reserved_eq_ok_iff, Bool.and_eq_true, beq_iff_eq] at h
    obtain ⟨⟨haddr, hdata⟩, rfl⟩ := h
    exact word_txWord_eq hop rfl haddr hdata
  · next hop =>
    obtain ⟨-, rfl⟩ := (reserved_eq_ok_iff _ _ _).mp h
    exact word_txWord_eq hop rfl rfl rfl
  · next hop => exact encode_of_bare (op := 0x32) h hop rfl
  · next hop => exact encode_of_bare (op := 0x3F) h hop rfl
  · cases h

/-- A word decodes exactly when its fields spell an operation: row by row, what the checks of the decoder accept is
what R90, R91 and R95 ask of the values of the fields. -/
theorem exists_decodeWord_iff (w : TxWord) : (∃ i, decodeWord w = .ok i) ↔ spellsOperation w := by
  unfold decodeWord spellsOperation
  dsimp only
  split <;>
    simp_all [bind_eq_ok_iff, FifoSel.ofSel_eq_ok_iff, Chan.ofSel_eq_ok_iff, reserved_eq_ok_iff,
      byteOnly_iff_lt, nvValueOk_iff, eq_zero_iff_toNat (selField w), eq_zero_iff_toNat (addrField w),
      eq_zero_iff_toNat (dataField w),
      FifoSel.exists_toSel_iff, Chan.exists_toSel_iff,
      extractLsb'_addr_eq_zero_iff, and_assoc]

/-! ## The table of command codes (R86) -/

/-- The commands in the order of R86. -/
def CmdName.all : List CmdName :=
  [.getTiming, .setTiming, .getRaises, .resetRaises, .getLowers, .resetLowers, .queryFreq, .queryVolt, .querySpectrum]

/-- The code of a command. -/
def CmdCodes.code (k : CmdCodes) : CmdName → BitVec 7
  | .getTiming => k.getTiming
  | .setTiming => k.setTiming
  | .getRaises => k.getRaises
  | .resetRaises => k.resetRaises
  | .getLowers => k.getLowers
  | .resetLowers => k.resetLowers
  | .queryFreq => k.queryFreq
  | .queryVolt => k.queryVolt
  | .querySpectrum => k.querySpectrum

theorem CmdName.mem_all (n : CmdName) : n ∈ CmdName.all := by
  cases n <;> decide

theorem CmdCodes.list_eq_map_code (k : CmdCodes) : k.list = CmdName.all.map k.code := rfl

theorem CmdCodes.lookup_eq_find? (k : CmdCodes) (code : BitVec 7) :
    k.lookup code = CmdName.all.find? fun n => code == k.code n := by
  have hcons : ∀ (p : CmdName → Bool) (n : CmdName) (ns : List CmdName),
      (n :: ns).find? p = if p n then some n else ns.find? p := by
    intro p n ns
    rw [List.find?_cons]
    cases p n <;> rfl
  simp only [CmdCodes.lookup, CmdName.all, CmdCodes.code, hcons, beq_iff_eq, List.find?_nil]

theorem CmdCodes.code_of_lookup {k : CmdCodes} {code : BitVec 7} {n : CmdName} (h : k.lookup code = some n) :
    code = k.code n := by
  rw [CmdCodes.lookup_eq_find?] at h
  simpa using List.find?_some h

theorem CmdCodes.lookup_eq_none_iff (k : CmdCodes) (code : BitVec 7) : k.lookup code = none ↔ code ∉ k.list := by
  rw [CmdCodes.lookup_eq_find?, CmdCodes.list_eq_map_code, List.find?_eq_none]
  grind

/-- Under an injective table the code of a command selects it. -/
theorem CmdCodes.lookup_code {k : CmdCodes} (h : k.wf) (n : CmdName) : k.lookup (k.code n) = some n := by
  cases hl : k.lookup (k.code n) with
  | none => exact absurd (List.mem_map_of_mem n.mem_all) ((k.lookup_eq_none_iff _).mp hl)
  | some m =>
    rw [CmdCodes.wf, CmdCodes.list_eq_map_code] at h
    rw [List.inj_on_of_nodup_map h n.mem_all m.mem_all (CmdCodes.code_of_lookup hl)]

/-! ## Frames (R80 to R86) -/

/-- The frame command with a name of R86. -/
def CmdName.instr : CmdName → Bool → Byte → Byte → Byte → Instr
  | .getTiming => .getTiming
  | .setTiming => .setTiming
  | .getRaises => .getRaises
  | .resetRaises => .resetRaises
  | .getLowers => .getLowers
  | .resetLowers => .resetLowers
  | .queryFreq => .queryFreq
  | .queryVolt => .queryVolt
  | .querySpectrum => .querySpectrum

theorem encode_instr (k : CmdCodes) (n : CmdName) (a : Bool) (p1 p2 p3 : Byte) :
    encode k (n.instr a p1 p2 p3) = requestFrame a (k.code n) p1 p2 p3 := by
  cases n <;> rfl

theorem decodeFrame_of_lookup {k : CmdCodes} {f : FiveBytes} {n : CmdName}
    (h : k.lookup (codeField f.b0) = some n) : decodeFrame k f = n.instr (ackBit f.b0) f.b1 f.b2 f.b3 := by
  rw [decodeFrame, h]
  cases n <;> rfl

theorem decodeFrame_of_lookup_none {k : CmdCodes} {f : FiveBytes} (h : k.lookup (codeField f.b0) = none) :
    decodeFrame k f = .cmdUnknown (ackBit f.b0) (codeField f.b0) f.b1 f.b2 f.b3 := by
  rw [decodeFrame, h]

theorem decode_requestFrame (k : CmdCodes) (a : Bool) (code : BitVec 7) (p1 p2 p3 : Byte) :
    decode k (requestFrame a code p1 p2 p3) =
      .ok (decodeFrame k (FiveBytes.ofFour (commandByte a code) p1 p2 p3)) := by
  rw [requestFrame, decode, FiveBytes.ofBits_toBits]

/-- The request of a command decodes to the command, under an injective table. -/
theorem decode_encode_instr {k : CmdCodes} (h : k.wf) (n : CmdName) (a : Bool) (p1 p2 p3 : Byte) :
    decode k (encode k (n.instr a p1 p2 p3)) = .ok (n.instr a p1 p2 p3) := by
  rw [encode_instr, decode_requestFrame, decodeFrame_of_lookup (n := n)] <;>
    simp [FiveBytes.ofFour, CmdCodes.lookup_code h]

/-- A request whose code is not in the table decodes to the unknown command. -/
theorem decode_encode_cmdUnknown {k : CmdCodes} {code : BitVec 7} (h : code ∉ k.list) (a : Bool) (p1 p2 p3 : Byte) :
    decode k (encode k (.cmdUnknown a code p1 p2 p3)) = .ok (.cmdUnknown a code p1 p2 p3) := by
  rw [encode, decode_requestFrame, decodeFrame_of_lookup_none] <;>
    simp [FiveBytes.ofFour, (k.lookup_eq_none_iff code).mpr h]

/-- What a frame spells is encoded by the request with the frame's flag, code and parameters. -/
theorem encode_decodeFrame (k : CmdCodes) (f : FiveBytes) :
    encode k (decodeFrame k f) = requestFrame (ackBit f.b0) (codeField f.b0) f.b1 f.b2 f.b3 := by
  cases h : k.lookup (codeField f.b0) with
  | none => rw [decodeFrame_of_lookup_none h, encode]
  | some n => rw [decodeFrame_of_lookup h, encode_instr, ← CmdCodes.code_of_lookup h]

/-! ## The decoder and the encoder agree -/

/-- Settles O5: the rows of R91 field by field, and the frame commands through the lookup of their code. -/
theorem decodeOfEncodeIsTheInstruction : Obligations.DecodeOfEncodeIsTheInstruction := by
  intro k i hk hwf
  cases i with
  | getTiming a p1 p2 p3 => exact decode_encode_instr hk .getTiming a p1 p2 p3
  | setTiming a p1 p2 p3 => exact decode_encode_instr hk .setTiming a p1 p2 p3
  | getRaises a p1 p2 p3 => exact decode_encode_instr hk .getRaises a p1 p2 p3
  | resetRaises a p1 p2 p3 => exact decode_encode_instr hk .resetRaises a p1 p2 p3
  | getLowers a p1 p2 p3 => exact decode_encode_instr hk .getLowers a p1 p2 p3
  | resetLowers a p1 p2 p3 => exact decode_encode_instr hk .resetLowers a p1 p2 p3
  | queryFreq a p1 p2 p3 => exact decode_encode_instr hk .queryFreq a p1 p2 p3
  | queryVolt a p1 p2 p3 => exact decode_encode_instr hk .queryVolt a p1 p2 p3
  | querySpectrum a p1 p2 p3 => exact decode_encode_instr hk .querySpectrum a p1 p2 p3
  | cmdUnknown a code p1 p2 p3 =>
    exact decode_encode_cmdUnknown (by simpa [Instr.wellFormed] using hwf) a p1 p2 p3
  | _ => exact decodeWord_of_encode (k := k) rfl hwf

/-- Settles O6: each row of R91 leaves no bit of its word free, and a valid frame is the request with its flag, code
and parameters. -/
theorem encodeOfDecodeIsTheWord : Obligations.EncodeOfDecodeIsTheWord := by
  refine ⟨fun k w i h => encode_of_decodeWord k h, fun k f hf => ?_⟩
  rw [encode_decodeFrame, requestFrame, commandByte_fields, ofFour_of_frameValid hf]

namespace Machine

/-! ## A step and the word that comes next (R98, R99, R272) -/

theorem fetch_of_sched {s : State} {e : Event} {es : List Event} (h : s.sched = e :: es) :
    fetch s = (e, { s with sched := es }) := by
  rw [fetch, h]

theorem step_of_decodes {s : State} {w : TxWord} {i : Instr} (he : (fetch s).1 = .word w) (hd : decodeWord w = .ok i) :
    step s = if admitted (fetch s).2 i then exec i (fetch s).2 else hold (fetch s).2 := by
  simp [step, he, hd]

theorem step_of_rejected {s : State} {w : TxWord} {e : DecodeError} (he : (fetch s).1 = .word w)
    (hd : decodeWord w = .error e) : step s = .next (markRefused (fetch s).2) := by
  simp [step, he, hd]

theorem admitted_init (s : State) : admitted s .init = true := by
  unfold admitted
  cases s.cfg.sched <;> rfl

/-- Settles O1: the next event is taken off `sched`, and before INIT with none prepared it is INIT's word. -/
theorem stepRunsTheNextWord : Obligations.StepRunsTheNextWord := by
  refine ⟨fun s w es i hs hd => ?_, fun s hs hi => ?_⟩
  · have hf := fetch_of_sched hs
    have hstep := step_of_decodes (congrArg Prod.fst hf) hd
    rw [hf] at hstep
    exact ⟨fun ha => hstep.trans (if_pos ha), fun ha => hstep.trans (if_neg (by simp [ha]))⟩
  · have hf : fetch s = (.word initWord, s) := by simp [fetch, hs, hi]
    have hd : decodeWord initWord = .ok .init := decodeWord_of_encode (k := s.cfg.cmdCode) rfl rfl
    rw [step_of_decodes (congrArg Prod.fst hf) hd, hf, if_pos (admitted_init s)]

/-- Settles O3: a word is rejected when it does not decode, and no transaction writes the mark (`exec_keepsConst`). -/
theorem wordsThatSpellNothingOnlySetTheMark : Obligations.WordsThatSpellNothingOnlySetTheMark := by
  refine ⟨fun w => ?_, fun s w es e hs hd => ?_, fun i s t h => (exec_keepsConst i s t h).2.1⟩
  · rw [← exists_decodeWord_iff]
    cases decodeWord w <;> simp
  · have hf := fetch_of_sched hs
    rw [step_of_rejected (congrArg Prod.fst hf) hd, hf, markRefused]

/-! ## Responses (R84, R85) -/

theorem Fifo.contents_push {f : Fifo} (h : f.wf) (hf : f.free ≠ 0) (b : Byte) :
    (f.push b).contents = f.contents ++ [b] := by
  obtain ⟨hcount, htail⟩ := h
  have hfree : f.free.toNat ≠ 0 := fun h0 => hf ((eq_zero_iff_toNat _).mpr h0)
  have havail : (f.avail + 1).toNat = f.avail.toNat + 1 := by
    simp only [BitVec.toNat_add, BitVec.ofNat_eq_ofNat, BitVec.toNat_ofNat]
    omega
  simp only [Fifo.contents, Fifo.push_avail, havail, List.range_succ, List.map_append, Fifo.push_buf, Fifo.push_head]
  congr 1
  · apply List.map_congr_left
    intro i hi
    rw [List.mem_range] at hi
    exact Vector.getElem_set_ne _ _ (by omega)
  · simp [← htail]

/-- Bytes put one after another, with room for all of them, queue up in their order. -/
theorem Fifo.contents_foldl_push {f : Fifo} (h : f.wf) (bs : List Byte) (hroom : bs.length ≤ f.free.toNat) :
    (bs.foldl Fifo.push f).contents = f.contents ++ bs := by
  induction bs generalizing f with
  | nil => simp
  | cons b bs ih =>
    rw [List.length_cons] at hroom
    have hne : f.free ≠ 0 := fun h0 => by simp [h0] at hroom
    have hfree := Fifo.push_free_toNat hne b
    rw [List.foldl_cons, ih (Fifo.push_wf h hne b) (by omega), Fifo.contents_push h hne, List.append_assoc,
      List.singleton_append]

theorem Fifo.contents_pushFrame {f : Fifo} (h : f.wf) (hroom : 5 ≤ f.free.toNat) (x : FiveBytes) :
    (f.pushFrame x).contents = f.contents ++ frameBytes x :=
  Fifo.contents_foldl_push h (frameBytes x) hroom

/-- What a command's execution leaves alone: the transmit FIFO and the frame mark (R232 to R241). -/
def KeepsTx (execute : State → Reply × State) : Prop :=
  ∀ u, (execute u).2.blk.tx = u.blk.tx ∧ (execute u).2.blk.frmValid = u.blk.frmValid

theorem State.storeZero_frmValid (s : State) (slot : Slot) : (s.storeZero slot).2.blk.frmValid = s.blk.frmValid := by
  obtain ⟨-, ⟨st, ⟨-, hblk⟩ | hblk⟩, -, -⟩ := State.storeZero_spec s slot <;> rw [hblk]

/-- A command that has only an answer (R232, R234, R236, R238 to R241). -/
theorem keepsTx_silent (reply : State → Reply) : KeepsTx fun s => (reply s, s) := fun _ => ⟨rfl, rfl⟩

/-- Every frame command is handled by `runCommand` under its own head (R230). -/
theorem exec_eq_runCommand {i : Instr} {s : State} {a : Bool} {code : BitVec 7}
    (h : commandHead s.cfg.cmdCode i = some (a, code)) :
    ∃ execute, exec i s = runCommand a code execute s ∧ KeepsTx execute := by
  cases i with
  | getTiming a p1 p2 p3 =>
    cases h
    exact ⟨_, (rfl : execGetTiming a p1 p2 p3 s = _), keepsTx_silent _⟩
  | getRaises a p1 p2 p3 =>
    cases h
    exact ⟨_, (rfl : execGetRaises a p1 p2 p3 s = _), keepsTx_silent _⟩
  | getLowers a p1 p2 p3 =>
    cases h
    exact ⟨_, (rfl : execGetLowers a p1 p2 p3 s = _), keepsTx_silent _⟩
  | queryFreq | queryVolt | querySpectrum | cmdUnknown =>
    cases h
    exact ⟨_, rfl, keepsTx_silent _⟩
  | setTiming a p1 p2 p3 =>
    cases h
    refine ⟨_, (rfl : execSetTiming a p1 p2 p3 s = _), fun u => ?_⟩
    dsimp only
    split
    · exact ⟨rfl, rfl⟩
    · split <;> exact ⟨rfl, rfl⟩
  | resetRaises a p1 p2 p3 =>
    cases h
    exact ⟨_, (rfl : execResetRaises a p1 p2 p3 s = _),
      fun u => ⟨State.storeZero_tx _ _, State.storeZero_frmValid _ _⟩⟩
  | resetLowers a p1 p2 p3 =>
    cases h
    exact ⟨_, (rfl : execResetLowers a p1 p2 p3 s = _),
      fun u => ⟨State.storeZero_tx _ _, State.storeZero_frmValid _ _⟩⟩
  | _ => cases h

/-- A ready command drops the frame, and queues a valid frame with its code when a response is wanted (R84, R85). -/
theorem runCommand_queues {execute : State → Reply × State} (hkeeps : KeepsTx execute) {a : Bool} (code : BitVec 7)
    {s : State} (hready : CommandReady a s) :
    ∃ t x, runCommand a code execute s = .next t ∧ t.blk.frmValid = false ∧
      t.blk.tx = (if a then s.blk.tx.pushFrame x else s.blk.tx) ∧ frameValid x = true ∧ codeField x.b0 = code := by
  have hrun := runCommand_ready (code := code) (f := execute) hready
  obtain ⟨htx, hfrm⟩ := hkeeps (s.setBlk { s.blk with frmValid := false })
  generalize execute (s.setBlk { s.blk with frmValid := false }) = answer at hrun htx hfrm
  refine ⟨_, FiveBytes.ofFour (commandByte answer.1.ok code) answer.1.r1 answer.1.r2 answer.1.r3, hrun, ?_, ?_,
    frameValid_ofFour _ _ _ _, codeField_commandByte _ _⟩
  · cases a <;> exact hfrm
  · cases a with
    | false => exact htx
    | true => exact congrArg (Fifo.pushFrame · _) htx

/-- Settles O50: every frame command is handled by `runCommand`, and its execution leaves the transmit FIFO alone. -/
theorem responseIffAcknowledgeRequested : Obligations.ResponseIffAcknowledgeRequested := by
  intro i s a code hhead hready hwf
  obtain ⟨execute, hexec, hkeeps⟩ := exec_eq_runCommand hhead
  obtain ⟨t, x, hrun, hfrm, htx, hvalid, hcode⟩ := runCommand_queues hkeeps code hready
  refine ⟨t, hexec.trans hrun, hfrm, fun ha => ?_, fun ha => ⟨x, ?_, hvalid, hcode⟩⟩
  · rw [htx, ha, if_neg Bool.false_ne_true]
  · rw [htx, ha, if_pos rfl, Fifo.contents_pushFrame hwf (hready.2 ha)]

end Machine

end Sys2Proof

/-! # 40_fifo.md: the FIFO transactions, and a FIFO as a queue -/

namespace Sys2Proof.Machine

/-! ## What each transaction answers (R110, R111, R113 to R116) -/

/-- Writing block registers and the output leaves the rest alone. -/
theorem restSame_setBlk (s : State) (b : Block) (r : Result) : RestSame s { s.setBlk b with result := r } :=
  ⟨rfl, fun _ => rfl, rfl, rfl, rfl, rfl, rfl⟩

theorem exec_put (f : FifoSel) (b : Byte) (s : State) : exec (.put f b) s = execPut f b s := rfl

theorem exec_tryput (f : FifoSel) (b : Byte) (s : State) : exec (.tryput f b) s = execTryput f b s := rfl

theorem exec_get (f : FifoSel) (s : State) : exec (.get f) s = execGet f s := rfl

theorem exec_rxByte (b : Byte) (s : State) : exec (.rxByte b) s = execRxByte b s := rfl

theorem exec_txReady (s : State) : exec .txReady s = execTxReady s := rfl

theorem holds_put {f : FifoSel} {s : State} (b : Byte) (hi : s.blk.initDone = true) (hfull : (s.blk.fifo f).free = 0) :
    Holds (.put f b) s := by
  rw [Holds, exec_put, execPut, gated_ready hi, if_pos hfull, hold]

theorem exec_put_room {f : FifoSel} {s : State} (b : Byte) (hi : s.blk.initDone = true)
    (hroom : (s.blk.fifo f).free ≠ 0) : exec (.put f b) s = .next { s.putByte f b with result := .none } := by
  rw [exec_put, execPut, gated_ready hi, if_neg hroom, finish]

theorem holds_get {f : FifoSel} {s : State} (hi : s.blk.initDone = true) (hempty : (s.blk.fifo f).avail = 0) :
    Holds (.get f) s := by
  rw [Holds, exec_get, execGet, gated_ready hi, if_pos hempty, hold]

theorem exec_get_avail {f : FifoSel} {s : State} (hi : s.blk.initDone = true) (havail : (s.blk.fifo f).avail ≠ 0) :
    exec (.get f) s = .next { s.takeByte f with result := .byte (s.blk.fifo f).front } := by
  rw [exec_get, execGet, gated_ready hi, if_neg havail, finish]

theorem holds_txReady {s : State} (hi : s.blk.initDone = true) (hempty : s.blk.tx.avail = 0) : Holds .txReady s := by
  rw [Holds, exec_txReady, execTxReady, gated_ready hi, if_pos hempty, hold]

theorem exec_txReady_avail {s : State} (hi : s.blk.initDone = true) (havail : s.blk.tx.avail ≠ 0) :
    exec .txReady s = .next { (s.takeByte .tx).wireSent s.blk.tx.front with result := .none } := by
  rw [exec_txReady, execTxReady, gated_ready hi, if_neg havail, finish]

theorem exec_tryput_full {f : FifoSel} {s : State} (b : Byte) (hi : s.blk.initDone = true)
    (hfull : (s.blk.fifo f).free = 0) : exec (.tryput f b) s = .next { s with result := .status .full } := by
  rw [exec_tryput, execTryput, gated_ready hi, if_pos hfull, finish]

theorem exec_tryput_room {f : FifoSel} {s : State} (b : Byte) (hi : s.blk.initDone = true)
    (hroom : (s.blk.fifo f).free ≠ 0) :
    exec (.tryput f b) s = .next { s.putByte f b with result := .status .ok } := by
  rw [exec_tryput, execTryput, gated_ready hi, if_neg hroom, finish]

/-- With room the policy of R115 plays no part (the full case under DROP is `exec_rxByte_drop`). -/
theorem exec_rxByte_room {s : State} (b : Byte) (hi : s.blk.initDone = true) (hroom : s.blk.rx.free ≠ 0) :
    exec (.rxByte b) s = .next { (s.putByte .rx b).wireReceived b with result := .none } := by
  rw [exec_rxByte, execRxByte, gated_ready hi, if_neg hroom, finish]

theorem holds_rxByte_stuck {s : State} (b : Byte) (hi : s.blk.initDone = true) (hfull : s.blk.rx.free = 0)
    (hstuck : s.cfg.rxFullPolicy = .stuck) : Holds (.rxByte b) s := by
  rw [Holds, exec_rxByte, execRxByte, gated_ready hi, if_pos hfull, hstuck, hold]

/-! ## The bytes of a FIFO as a queue (R23, R117) -/

@[simp] theorem Fifo.length_contents (f : Fifo) : f.contents.length = f.avail.toNat := by
  simp [Fifo.contents]

theorem Fifo.avail_eq_zero_iff (f : Fifo) : f.avail = 0 ↔ f.contents = [] := by
  rw [← List.length_eq_zero_iff, Fifo.length_contents]
  exact eq_zero_iff_toNat _

theorem Fifo.free_eq_zero_iff {f : Fifo} (h : f.wf) : f.free = 0 ↔ f.contents.length = 256 := by
  have hcount := h.1
  have hzero : f.free = 0 ↔ f.free.toNat = 0 := eq_zero_iff_toNat _
  rw [hzero, Fifo.length_contents]
  omega

/-- GET's byte is the queue's first, and the queue behind it is what stays: slot `head + 1 + i` is the new queue's
place `i`. -/
theorem Fifo.contents_eq_front_cons {f : Fifo} (h : f.avail ≠ 0) : f.contents = f.front :: f.pop.contents := by
  have hne : f.avail.toNat ≠ 0 := fun h0 => h ((eq_zero_iff_toNat _).mpr h0)
  have havail : f.avail.toNat = (f.avail - 1).toNat + 1 := by
    simp only [BitVec.toNat_sub, BitVec.ofNat_eq_ofNat, BitVec.toNat_ofNat]
    omega
  have hslot : ∀ i, (f.head.toNat + (i + 1)) % 256 = ((f.head + 1).toNat + i) % 256 := fun i => by
    simp only [BitVec.toNat_add, BitVec.ofNat_eq_ofNat, BitVec.toNat_ofNat]
    omega
  simp only [Fifo.contents, Fifo.front, Fifo.pop_avail, Fifo.pop_buf, Fifo.pop_head, havail,
    List.range_succ_eq_map, List.map_cons, List.map_map]
  congr 1
  · simp [Nat.mod_eq_of_lt f.head.isLt]
  · exact List.map_congr_left fun i _ => by simp only [Function.comp_apply, Nat.succ_eq_add_one, hslot]

/-! ## The obligations of 40_fifo.md -/

/-- Settles O25: the put appends by `Fifo.contents_push`, the get takes the first by `Fifo.contents_eq_front_cons`,
and both hold exactly at the queue's two boundary lengths. -/
theorem fifoIsAQueue : Obligations.FifoIsAQueue := by
  intro f s hi hwf
  refine ⟨?_, fun b hlt => ?_, fun b hlen => ?_, fun b bs hq => ?_, fun hq => ?_⟩
  · have hcount := hwf.1
    rw [Fifo.length_contents]
    omega
  · have hroom : (s.blk.fifo f).free ≠ 0 := mt (Fifo.free_eq_zero_iff hwf).mp hlt.ne
    refine ⟨_, exec_put_room b hi hroom, ?_, ?_, fun g hg => Block.fifo_setFifo_ne _ _ hg⟩
    · simpa using Fifo.push_wf hwf hroom b
    · simpa using Fifo.contents_push hwf hroom b
  · exact holds_put b hi ((Fifo.free_eq_zero_iff hwf).mpr hlen)
  · have havail : (s.blk.fifo f).avail ≠ 0 := fun h0 => by
      rw [(Fifo.avail_eq_zero_iff _).mp h0] at hq
      cases hq
    rw [Fifo.contents_eq_front_cons havail, List.cons.injEq] at hq
    obtain ⟨hfront, hrest⟩ := hq
    refine ⟨_, exec_get_avail hi havail, ?_, congrArg Result.byte hfront, ?_,
      fun g hg => Block.fifo_setFifo_ne _ _ hg⟩
    · simpa using Fifo.pop_wf hwf havail
    · simpa using hrest
  · exact holds_get hi ((Fifo.avail_eq_zero_iff _).mpr hq)

/-- Settles O20: the writes are those of `Fifo.push`. -/
theorem putStoresOneByteOrHolds : Obligations.PutStoresOneByteOrHolds := fun _ b s hi =>
  ⟨fun _ => rfl, holds_put b hi,
    fun hroom => ⟨_, exec_put_room b hi hroom, rfl, rfl, restSame_setBlk s _ _⟩⟩

/-- Settles O21: TRYPUT answers FULL where PUT holds, and otherwise makes PUT's writes. -/
theorem tryputReturnsOkOrFull : Obligations.TryputReturnsOkOrFull := fun _ b s hi =>
  ⟨fun _ => rfl,
    fun hfull => ⟨_, exec_tryput_full b hi hfull, rfl, rfl, restSame_setBlk s s.blk _⟩,
    fun hroom => ⟨_, exec_tryput_room b hi hroom, rfl, rfl, restSame_setBlk s _ _⟩⟩

/-- Settles O22: the writes are those of `Fifo.pop`, and the byte is `Fifo.front`. -/
theorem getReturnsTheOldestByteOrHolds : Obligations.GetReturnsTheOldestByteOrHolds := fun _ s hi =>
  ⟨fun _ => rfl, holds_get hi,
    fun havail => ⟨_, exec_get_avail hi havail, rfl, rfl, restSame_setBlk s _ _⟩⟩

/-- Settles O23: room, a full FIFO under DROP, a full FIFO under STUCK. -/
theorem rxByteFollowsTheFullPolicy : Obligations.RxByteFollowsTheFullPolicy := fun b s hi =>
  ⟨fun _ => rfl,
    fun hroom => ⟨_, exec_rxByte_room b hi hroom, rfl, rfl, rfl, restSame_setBlk (s.wireReceived b) _ _⟩,
    fun hfull hdrop =>
      ⟨_, exec_rxByte_drop b hi hfull hdrop, rfl, rfl, rfl, restSame_setBlk (s.wireReceived b) _ _⟩,
    holds_rxByte_stuck b hi⟩

/-- Settles O24: GET's writes on `tx`, and the byte goes out on the wire. -/
theorem txReadySendsTheOldestByteOrHolds : Obligations.TxReadySendsTheOldestByteOrHolds := fun s hi =>
  ⟨fun _ => rfl, holds_txReady hi,
    fun havail => ⟨_, exec_txReady_avail hi havail, rfl, rfl, rfl, restSame_setBlk (s.wireSent _) _ _⟩⟩

end Sys2Proof.Machine

/-! # 41_frame_sync.md: the synchronizer, resynchronization, and the encoder -/

namespace Sys2Proof.Machine

/-! ## What one byte does to the staging buffer (R130 to R132) -/

theorem frameValid_iff (x : FiveBytes) : frameValid x = true ↔ x.b4 = x.b0 ^^^ x.b1 ^^^ x.b2 ^^^ x.b3 := by
  rw [frameValid, checksum, beq_iff_eq]

/-- Fewer than four bytes staged: the byte is appended, and no check is made. -/
theorem syncByte_append {b : Block} {n : Nat} (x : Byte) (hcount : b.stgCount = BitVec.ofNat 3 n) (hn : n < 4) :
    syncByte b x = { b with stg := setByteAt b.stg n x, stgCount := BitVec.ofNat 3 (n + 1) } := by
  have hnat : b.stgCount.toNat = n := by
    rw [hcount, BitVec.toNat_ofNat, Nat.mod_eq_of_lt (by omega)]
  simp only [syncByte, hnat]
  rw [if_pos (by omega)]

/-- Four bytes staged: the fifth completes a window, which is emitted or slides. -/
theorem syncByte_full {b : Block} (x : Byte) (hcount : b.stgCount = 4) :
    syncByte b x =
      if frameValid { b.stg with b4 := x } then
        { b with stg := { b.stg with b4 := x }, stgCount := 0, frm := { b.stg with b4 := x }, frmValid := true }
      else { b with stg := slide { b.stg with b4 := x }, stgCount := 4 } := by
  rw [syncByte, hcount]
  rfl

theorem syncByte_emit {b : Block} {x : Byte} (hcount : b.stgCount = 4)
    (hx : x = b.stg.b0 ^^^ b.stg.b1 ^^^ b.stg.b2 ^^^ b.stg.b3) :
    syncByte b x =
      { b with stg := { b.stg with b4 := x }, stgCount := 0, frm := { b.stg with b4 := x }, frmValid := true } := by
  rw [syncByte_full x hcount, if_pos ((frameValid_iff _).mpr hx)]

theorem syncByte_slide {b : Block} {x : Byte} (hcount : b.stgCount = 4)
    (hx : x ≠ b.stg.b0 ^^^ b.stg.b1 ^^^ b.stg.b2 ^^^ b.stg.b3) :
    syncByte b x = { b with stg := ⟨b.stg.b1, b.stg.b2, b.stg.b3, x, x⟩, stgCount := 4 } := by
  rw [syncByte_full x hcount, if_neg (mt (frameValid_iff _).mp hx), slide]

@[simp] theorem syncByte_tx (b : Block) (x : Byte) : (syncByte b x).tx = b.tx := by
  simp only [syncByte, apply_ite Block.tx, ite_self]

/-! ## What SYNC_STEP and ENCODE answer (R130, R134) -/

theorem exec_syncStep (s : State) : exec .syncStep s = execSyncStep s := rfl

theorem exec_encodeFrame (c p1 p2 p3 : Byte) (s : State) :
    exec (.encodeFrame c p1 p2 p3) s = execEncodeFrame c p1 p2 p3 s := rfl

theorem holds_syncStep_frame {s : State} (hi : s.blk.initDone = true) (hv : s.blk.frmValid = true) :
    Holds .syncStep s := by
  rw [Holds, exec_syncStep, execSyncStep, gated_ready hi, if_pos hv, hold]

theorem holds_syncStep_empty {s : State} (hi : s.blk.initDone = true) (hv : s.blk.frmValid = false)
    (hempty : s.blk.rx.avail = 0) : Holds .syncStep s := by
  rw [Holds, exec_syncStep, execSyncStep, gated_ready hi, if_neg (by simp [hv]), if_pos hempty, hold]

/-- The state after SYNC_STEP has taken the oldest byte of `rx`. -/
def State.syncTaken (s : State) : State :=
  { s.setBlk (syncByte (s.blk.setFifo .rx s.blk.rx.pop) s.blk.rx.front) with result := .none }

theorem exec_syncStep_avail {s : State} (hi : s.blk.initDone = true) (hv : s.blk.frmValid = false)
    (havail : s.blk.rx.avail ≠ 0) (hcount : s.blk.stgCount.toNat ≤ 4) : exec .syncStep s = .next s.syncTaken := by
  rw [exec_syncStep, execSyncStep, gated_ready hi, if_neg (by simp [hv]), if_neg havail, if_neg (by omega)]
  rfl

/-- Where SYNC_STEP does not stop it holds or takes a byte. -/
theorem exec_syncStep_next {s t : State} (h : exec .syncStep s = .next t) :
    t = { s with result := .held } ∨ t = s.syncTaken := by
  rw [exec_syncStep] at h
  obtain ⟨-, hheld⟩ | ⟨hi, hk⟩ := gated_next h
  · exact .inl hheld
  · split at hk
    · exact .inl (hold_next hk)
    · split at hk
      · exact .inl (hold_next hk)
      · split at hk
        · cases hk
        · exact .inr (finish_next hk)

/-- The frame of SYNC_STEP: the transmit FIFO and everything outside the block registers. -/
theorem exec_syncStep_frame {s t : State} (h : exec .syncStep s = .next t) :
    t.blk.tx = s.blk.tx ∧ RestSame s t := by
  obtain rfl | rfl := exec_syncStep_next h
  · exact ⟨rfl, restSame_setBlk s s.blk _⟩
  · exact ⟨syncByte_tx _ _, restSame_setBlk s _ _⟩

theorem holds_encodeFrame {s : State} (c p1 p2 p3 : Byte) (hi : s.blk.initDone = true)
    (hfull : s.blk.tx.free.toNat < 5) : Holds (.encodeFrame c p1 p2 p3) s := by
  rw [Holds, exec_encodeFrame, execEncodeFrame, gated_ready hi, txNoRoom,
    if_pos (decide_eq_true hfull), hold]

theorem exec_encodeFrame_room {s : State} (c p1 p2 p3 : Byte) (hi : s.blk.initDone = true)
    (hroom : 5 ≤ s.blk.tx.free.toNat) :
    exec (.encodeFrame c p1 p2 p3) s =
      .next { s.sendFrame (FiveBytes.ofFour c p1 p2 p3) with result := .none } := by
  rw [exec_encodeFrame, execEncodeFrame, gated_ready hi,
    if_neg (Bool.eq_false_iff.mp ((txNoRoom_eq_false_iff _).mpr hroom)), finish]

/-! ## Runs of SYNC_STEP (R97) -/

theorem RestSame.trans {s t u : State} (h : RestSame s t) (h' : RestSame t u) : RestSame s u := by
  obtain ⟨hcfg, hnv, hrefused, hin, hout, henv, hsched⟩ := h
  obtain ⟨hcfg', hnv', hrefused', hin', hout', henv', hsched'⟩ := h'
  exact ⟨hcfg'.trans hcfg, fun a => (hnv' a).trans (hnv a), hrefused'.trans hrefused, hin'.trans hin,
    hout'.trans hout, henv'.trans henv, hsched'.trans hsched⟩

theorem execAll_cons_of_next {i : Instr} {is : List Instr} {s t : State} (h : exec i s = .next t) :
    execAll (i :: is) s = execAll is t := by
  rw [execAll, h]

theorem execAll_append_of_next {is js : List Instr} {s t : State} (h : execAll is s = .next t) :
    execAll (is ++ js) s = execAll js t := by
  induction is generalizing s with
  | nil => cases h; rfl
  | cons i is ih =>
    rw [execAll] at h
    split at h
    next u hu => rw [List.cons_append, execAll_cons_of_next hu, ih h]
    next => cases h
    next => cases h

theorem execAll_recv_succ {s t u : State} {n : Nat} (h : exec .syncStep s = .next t)
    (hn : execAll (recv n) t = .next u) : execAll (recv (n + 1)) s = .next u := by
  rw [recv, List.replicate_succ, execAll_cons_of_next h]
  exact hn

theorem execAll_recv_add {s t u : State} {m n : Nat} (hm : execAll (recv m) s = .next t)
    (hn : execAll (recv n) t = .next u) : execAll (recv (m + n)) s = .next u := by
  rw [recv, List.replicate_add, ← recv, execAll_append_of_next hm]
  exact hn

theorem execAll_recv_frame {n : Nat} {s t : State} (h : execAll (recv n) s = .next t) :
    t.blk.tx = s.blk.tx ∧ RestSame s t := by
  induction n generalizing s with
  | zero =>
    cases h
    exact ⟨rfl, restSame_setBlk t t.blk t.result⟩
  | succ n ih =>
    rw [recv, List.replicate_succ, execAll] at h
    split at h
    next u hu =>
      obtain ⟨htx, hrest⟩ := exec_syncStep_frame hu
      obtain ⟨htx', hrest'⟩ := ih h
      exact ⟨htx'.trans htx, hrest.trans hrest'⟩
    next => cases h
    next => cases h

/-! ## The staged bytes and the bytes to come (R133) -/

/-- The synchronizer is between two windows: `held` is staged, at most four bytes, and `queue` waits in `rx`. -/
structure Staging (s : State) (held queue : List Byte) : Prop where
  ready : s.blk.initDone = true
  noFrame : s.blk.frmValid = false
  fits : held.length ≤ 4
  count : s.blk.stgCount = BitVec.ofNat 3 held.length
  staged : (frameBytes s.blk.stg).take held.length = held
  wf : s.blk.rx.wf
  queued : s.blk.rx.contents = queue

/-- The synchronizer has handed on the frame `f` and restarted, and `queue` waits in `rx`. -/
structure Emitted (s : State) (f : FiveBytes) (queue : List Byte) : Prop where
  valid : s.blk.frmValid = true
  count : s.blk.stgCount = 0
  frame : s.blk.frm = f
  wf : s.blk.rx.wf
  queued : s.blk.rx.contents = queue

theorem Staging.empty {s : State} {queue : List Byte} (hi : s.blk.initDone = true) (hv : s.blk.frmValid = false)
    (hcount : s.blk.stgCount = 0) (hwf : s.blk.rx.wf) (hq : s.blk.rx.contents = queue) : Staging s [] queue :=
  ⟨hi, hv, Nat.zero_le 4, hcount, rfl, hwf, hq⟩

theorem take_frameBytes_setByteAt (g : FiveBytes) (x : Byte) {n : Nat} (hn : n < 5) :
    (frameBytes (setByteAt g n x)).take (n + 1) = (frameBytes g).take n ++ [x] := by
  interval_cases n <;> rfl

/-- The first byte of a queue is the one a get takes. -/
theorem Fifo.pop_of_contents_cons {f : Fifo} {x : Byte} {q : List Byte} (h : f.contents = x :: q) :
    f.avail ≠ 0 ∧ f.front = x ∧ f.pop.contents = q := by
  have havail : f.avail ≠ 0 := fun h0 => by
    rw [(Fifo.avail_eq_zero_iff f).mp h0] at h
    cases h
  rw [Fifo.contents_eq_front_cons havail, List.cons.injEq] at h
  exact ⟨havail, h⟩

section Step

variable {s : State} {held q : List Byte} {x : Byte}

/-- With a byte waiting SYNC_STEP takes it, and the rest of the queue stays. -/
theorem Staging.takes (h : Staging s held (x :: q)) :
    exec .syncStep s = .next s.syncTaken ∧ s.syncTaken.blk = syncByte (s.blk.setFifo .rx s.blk.rx.pop) x ∧
      s.blk.rx.pop.wf ∧ s.blk.rx.pop.contents = q := by
  obtain ⟨havail, hfront, hrest⟩ := Fifo.pop_of_contents_cons h.queued
  have hcount : s.blk.stgCount.toNat ≤ 4 := by
    rw [h.count, BitVec.toNat_ofNat]
    exact (Nat.mod_le _ _).trans h.fits
  exact ⟨exec_syncStep_avail h.ready h.noFrame havail hcount, by rw [← hfront]; rfl,
    Fifo.pop_wf h.wf havail, hrest⟩

/-- A byte that completes no valid window leaves the synchronizer between two windows, with `held'` staged. -/
theorem Staging.restage {held' : List Byte} {g : FiveBytes} (h : Staging s held (x :: q)) (fits : held'.length ≤ 4)
    (hblk : syncByte (s.blk.setFifo .rx s.blk.rx.pop) x =
      { s.blk.setFifo .rx s.blk.rx.pop with stg := g, stgCount := BitVec.ofNat 3 held'.length })
    (staged : (frameBytes g).take held'.length = held') :
    ∃ t, exec .syncStep s = .next t ∧ Staging t held' q := by
  obtain ⟨hexec, htaken, hwf, hrest⟩ := h.takes
  rw [hblk] at htaken
  exact ⟨_, hexec, {
    ready := by rw [htaken]; exact h.ready
    noFrame := by rw [htaken]; exact h.noFrame
    fits := fits
    count := by rw [htaken]
    staged := by rw [htaken]; exact staged
    wf := by rw [htaken]; exact hwf
    queued := by rw [htaken]; exact hrest }⟩

/-- R130, below the fifth byte. -/
theorem Staging.append (h : Staging s held (x :: q)) (hroom : held.length < 4) :
    ∃ t, exec .syncStep s = .next t ∧ Staging t (held ++ [x]) q := by
  have hlen : (held ++ [x]).length = held.length + 1 := List.length_append
  refine h.restage (g := setByteAt s.blk.stg held.length x) (by omega) ?_ ?_
  · rw [hlen]
    exact syncByte_append x h.count hroom
  · rw [hlen, take_frameBytes_setByteAt _ _ (by omega), h.staged]

variable {a b c d : Byte}

/-- Four bytes staged are the first four of the staging buffer. -/
theorem Staging.four (h : Staging s [a, b, c, d] q) :
    s.blk.stgCount = 4 ∧ s.blk.stg = ⟨a, b, c, d, s.blk.stg.b4⟩ := by
  have hstaged := h.staged
  simp only [frameBytes, List.length_cons, List.length_nil, List.take_succ_cons, List.take_zero, List.cons.injEq,
    and_true] at hstaged
  obtain ⟨rfl, rfl, rfl, rfl⟩ := hstaged
  exact ⟨h.count, rfl⟩

/-- R131. -/
theorem Staging.emit (h : Staging s [a, b, c, d] (x :: q)) (hx : x = a ^^^ b ^^^ c ^^^ d) :
    ∃ t, exec .syncStep s = .next t ∧ Emitted t ⟨a, b, c, d, x⟩ q := by
  obtain ⟨hexec, hblk, hwf, hrest⟩ := h.takes
  obtain ⟨hcount, hstg⟩ := h.four
  replace hblk := hblk.trans (syncByte_emit hcount (by rw [Block.setFifo_stg, hstg]; exact hx))
  rw [Block.setFifo_stg, hstg] at hblk
  exact ⟨_, hexec, by rw [hblk], by rw [hblk], by rw [hblk], by rw [hblk]; exact hwf, by rw [hblk]; exact hrest⟩

/-- R132: the oldest byte is dropped, and the last four taken stay. -/
theorem Staging.slide (h : Staging s [a, b, c, d] (x :: q)) (hx : x ≠ a ^^^ b ^^^ c ^^^ d) :
    ∃ t, exec .syncStep s = .next t ∧ Staging t [b, c, d, x] q := by
  obtain ⟨hcount, hstg⟩ := h.four
  refine h.restage (le_refl 4) (syncByte_slide hcount (by rw [Block.setFifo_stg, hstg]; exact hx)) ?_
  rw [Block.setFifo_stg, hstg]
  rfl

end Step

/-- As many SYNC_STEPs as bytes that still fit stage them all. -/
theorem Staging.recv_append {s : State} {held xs q : List Byte} (h : Staging s held (xs ++ q))
    (hroom : held.length + xs.length ≤ 4) :
    ∃ t, execAll (recv xs.length) s = .next t ∧ Staging t (held ++ xs) q := by
  induction xs generalizing s held with
  | nil => exact ⟨s, rfl, by rwa [List.append_nil]⟩
  | cons x xs ih =>
    rw [List.length_cons] at hroom
    obtain ⟨u, hu, hstaged⟩ := h.append (by omega)
    obtain ⟨t, ht, hall⟩ := ih hstaged (by rw [List.length_append, List.length_singleton]; omega)
    exact ⟨t, execAll_recv_succ hu ht, by rwa [List.append_assoc] at hall⟩

/-- From an empty buffer the fifth SYNC_STEP emits a valid window. -/
theorem Staging.recv_emit {s : State} {a b c d x : Byte} {q : List Byte} (h : Staging s [] ([a, b, c, d, x] ++ q))
    (hx : x = a ^^^ b ^^^ c ^^^ d) :
    ∃ t, execAll (recv 5) s = .next t ∧ Emitted t ⟨a, b, c, d, x⟩ q := by
  obtain ⟨u, hfour, hstaged⟩ := Staging.recv_append (xs := [a, b, c, d]) h (le_refl 4)
  obtain ⟨t, hfifth, hemitted⟩ := hstaged.emit hx
  exact ⟨t, execAll_recv_add (n := 1) hfour (execAll_recv_succ hfifth rfl), hemitted⟩

/-- From an empty buffer an invalid window drops its first byte, and a valid window behind it is emitted. -/
theorem Staging.recv_slide_emit {s : State} {g a b c d x : Byte} {q : List Byte}
    (h : Staging s [] ([g, a, b, c, d, x] ++ q)) (hd : d ≠ g ^^^ a ^^^ b ^^^ c) (hx : x = a ^^^ b ^^^ c ^^^ d) :
    ∃ t, execAll (recv 6) s = .next t ∧ Emitted t ⟨a, b, c, d, x⟩ q := by
  obtain ⟨u, hfour, hstaged⟩ := Staging.recv_append (xs := [g, a, b, c]) h (le_refl 4)
  obtain ⟨v, hfifth, hslid⟩ := hstaged.slide hd
  obtain ⟨t, hsixth, hemitted⟩ := hslid.emit hx
  exact ⟨t, execAll_recv_add (n := 2) hfour (execAll_recv_succ hfifth (execAll_recv_succ hsixth rfl)), hemitted⟩

/-! ## The obligations of 41_frame_sync.md -/

/-- Settles O26: the counts 0 to 3 append (`syncByte_append`), and the fifth byte emits or slides. -/
theorem syncStepAppendsEmitsOrSlides : Obligations.SyncStepAppendsEmitsOrSlides := fun s hi =>
  ⟨holds_syncStep_frame hi, holds_syncStep_empty hi, fun hv havail hcount =>
    ⟨_, exec_syncStep_avail hi hv havail hcount, rfl, restSame_setBlk s _ _,
      fun h => syncByte_append (n := 0) _ h (by decide),
      fun h => syncByte_append (n := 1) _ h (by decide),
      fun h => syncByte_append (n := 2) _ h (by decide),
      fun h => syncByte_append (n := 3) _ h (by decide),
      fun h hx => syncByte_emit h hx,
      fun h hx => syncByte_slide h hx⟩⟩

/-- Settles O28: the five puts of a frame, as bytes of the queue (`Fifo.contents_pushFrame`). -/
theorem encodeQueuesAValidFrameOrHolds : Obligations.EncodeQueuesAValidFrameOrHolds := fun c p1 p2 p3 s hi =>
  ⟨fun _ => rfl, holds_encodeFrame c p1 p2 p3 hi, fun hroom hwf =>
    ⟨_, exec_encodeFrame_room c p1 p2 p3 hi hroom, Fifo.contents_pushFrame hwf hroom _,
      Fifo.pushFrame_wf hwf hroom _, rfl, rfl, restSame_setBlk s _ _⟩⟩

/-- Settles O29: four bytes fill the buffer and the fifth is their XOR. -/
theorem fiveBytesOfAFrameAreEmitted : Obligations.FiveBytesOfAFrameAreEmitted := by
  intro c p1 p2 p3 rest s hi hv hcount hwf hq
  obtain ⟨t, hrun, hemitted⟩ := (Staging.empty hi hv hcount hwf hq).recv_emit rfl
  obtain ⟨htx, hrest⟩ := execAll_recv_frame hrun
  exact ⟨t, hrun, hemitted.valid, hemitted.count, hemitted.frame, hemitted.queued, hemitted.wf, htx, hrest⟩

/-- Settles O30: the first window `g f0 f1 f2 f3` slides when it is invalid, and is emitted when it is valid. -/
theorem oneGarbageByteIsDropped : Obligations.OneGarbageByteIsDropped := by
  intro g f0 f1 f2 f3 rest s hi hv hcount hwf hq
  have hstart := Staging.empty hi hv hcount hwf hq
  refine ⟨fun hinvalid => ?_, fun hvalid => ?_⟩
  · obtain ⟨t, hrun, hemitted⟩ := hstart.recv_slide_emit hinvalid rfl
    exact ⟨t, hrun, hemitted.valid, hemitted.count, hemitted.frame, hemitted.queued⟩
  · obtain ⟨t, hrun, hemitted⟩ := Staging.recv_emit (q := _ :: rest) hstart hvalid
    exact ⟨t, hrun, hemitted.valid, hemitted.count, hemitted.frame, hemitted.queued⟩

end Sys2Proof.Machine

/-! # 42_sampling_rms.md: the tick, the RMS latch and the alarm -/

namespace Sys2Proof.Machine

/-! ## The latch of one channel (R153, R154) -/

theorem exec_rmsLatch_ready {s : State} (c : Chan) (hi : s.blk.initDone = true) :
    exec (.rmsLatch c) s = .next { s.setBlk (rmsLatch s.cfg c s.blk) with result := .none } := by
  have hrun : exec (.rmsLatch c) s = execRmsLatch c s := rfl
  rw [hrun, execRmsLatch, gated_ready hi, finish]

theorem rmsLatch_chan_same (p : Params) (c : Chan) (b : Block) :
    (rmsLatch p c b).chan c = { b.chan c with
      rms := BitVec.ofNat 16 (rmsf (b.chan c).win)
      voltageAlarm := alarmVerdict p (BitVec.ofNat 16 (rmsf (b.chan c).win)) } :=
  Block.chan_setChan_same b c _

@[simp] theorem rmsLatch_initDone (p : Params) (c : Chan) (b : Block) :
    (rmsLatch p c b).initDone = b.initDone :=
  Block.setChan_initDone b c _

/-- RMSF fits the signed register it is latched into. -/
theorem toInt_ofNat_rmsf (w : Vector Word16 16) : (BitVec.ofNat 16 (rmsf w)).toInt = rmsf w := by
  have hle := rmsf_le w
  rw [BitVec.toInt_ofNat']
  exact Int.bmod_eq_of_le (by omega) (by omega)

theorem alarmVerdict_iff (p : Params) (rms : Word16) :
    alarmVerdict p rms = true ↔ rms.toInt < low p ∨ high p < rms.toInt := by
  simp [alarmVerdict]

/-! ## One transaction for each channel -/

theorem exec_relayEval_ready {s : State} (c : Chan) (m : Mode) (hi : s.blk.initDone = true) :
    exec (.relayEval c m) s = .next { s.setBlk (relayEval s.cfg c m s.blk) with result := .none } := by
  have hrun : exec (.relayEval c m) s = execRelayEval c m s := rfl
  rw [hrun, execRelayEval, gated_ready hi, finish]

@[simp] theorem relayEval_initDone (p : Params) (c : Chan) (m : Mode) (b : Block) :
    (relayEval p c m b).initDone = b.initDone :=
  RegWrites.initDone (i := .relayEval c m) nofun (relayEval_regWrites p m b (.inr ⟨m, rfl⟩))

theorem foldl_initDone {f : Block → Chan → Block} (hf : ∀ b c, (f b c).initDone = b.initDone) (cs : List Chan)
    (b : Block) : (cs.foldl f b).initDone = b.initDone := by
  induction cs generalizing b with
  | nil => rfl
  | cons c cs ih => rw [List.foldl_cons, ih, hf]

/-- The same kind of transaction on channel after channel: the run makes the channels' register writes in the order
of `cs`. -/
theorem execAll_map_chan {i : Chan → Instr} {f : Params → Block → Chan → Block}
    (hexec : ∀ c s, s.blk.initDone = true →
      exec (i c) s = .next { s.setBlk (f s.cfg s.blk c) with result := .none })
    (hf : ∀ p b c, (f p b c).initDone = b.initDone) (cs : List Chan) {s : State} (hi : s.blk.initDone = true) :
    ∃ r, execAll (cs.map i) s = .next { s.setBlk (cs.foldl (f s.cfg) s.blk) with result := r } := by
  induction cs generalizing s with
  | nil => exact ⟨s.result, rfl⟩
  | cons c cs ih =>
    obtain ⟨r, hr⟩ := ih (s := { s.setBlk (f s.cfg s.blk c) with result := .none }) ((hf _ _ c).trans hi)
    exact ⟨r, (execAll_cons_of_next (hexec c s hi)).trans hr⟩

/-- As `execAll_map_chan`, made only if `P` holds. -/
theorem execAll_ite_map_chan {i : Chan → Instr} {f : Params → Block → Chan → Block}
    (hexec : ∀ c s, s.blk.initDone = true →
      exec (i c) s = .next { s.setBlk (f s.cfg s.blk c) with result := .none })
    (hf : ∀ p b c, (f p b c).initDone = b.initDone) (cs : List Chan) (P : Prop) [Decidable P] {s : State}
    (hi : s.blk.initDone = true) :
    ∃ r, execAll (if P then cs.map i else []) s =
      .next { s.setBlk (if P then cs.foldl (f s.cfg) s.blk else s.blk) with result := r } := by
  split
  · exact execAll_map_chan hexec hf cs hi
  · exact ⟨s.result, rfl⟩

/-! ## The tick (R150, R151) -/

/-- The state with the three samples of a tick drawn and written at the position, in channel order (R150). -/
def State.sampled (s : State) : State :=
  let x0 := s.env.drawSample
  let x1 := x0.2.drawSample
  let x2 := x1.2.drawSample
  { s with
    env := x2.2
    blk := { s.blk with
      ch0 := { s.blk.ch0 with win := s.blk.ch0.win.set s.blk.pos.toNat x0.1 }
      ch1 := { s.blk.ch1 with win := s.blk.ch1.win.set s.blk.pos.toNat x1.1 }
      ch2 := { s.blk.ch2 with win := s.blk.ch2.win.set s.blk.pos.toNat x2.1 } } }

theorem foldl_sampleChan (s : State) : Chan.all.foldl State.sampleChan s = s.sampled := rfl

theorem exec_tick_ready {s : State} (hi : s.blk.initDone = true) :
    exec .tick s =
      .next { s.sampled.setBlk (tickBlock s.cfg s.blk.mode s.sampled.blk) with result := .none } := by
  have hrun : exec .tick s = execTick s := rfl
  rw [hrun, execTick, gated_ready hi]
  dsimp only
  rw [foldl_sampleChan, finish]

/-- The registers after a tick's samples, once the position has advanced and, on the wrap, every channel has been
latched. -/
def tickLatched (p : Params) (b : Block) : Block :=
  let b1 := { b with pos := b.pos + 1 }
  if b.pos = 15 then Chan.all.foldl (fun b c => rmsLatch p c b) b1 else b1

/-- The registers as a tick's evaluations find them. -/
def tickValidated (p : Params) (b : Block) : Block :=
  { tickLatched p b with rmsValid := (tickLatched p b).rmsValid || b.pos == 15 }

@[simp] theorem tickLatched_initDone (p : Params) (b : Block) : (tickLatched p b).initDone = b.initDone := by
  unfold tickLatched
  split
  · exact foldl_initDone (fun b c => rmsLatch_initDone p c b) _ _
  · rfl

/-- The position wraps from the last of the 16 slots. -/
theorem pos_wraps_iff (n : BitVec 4) : n + 1 = 0 ↔ n = 15 := by
  bv_omega

theorem tickValidated_of_wrap (p : Params) {b : Block} (h : b.pos = 15) :
    tickValidated p b =
      { Chan.all.foldl (fun b c => rmsLatch p c b) { b with pos := b.pos + 1 } with rmsValid := true } := by
  rw [tickValidated, tickLatched, if_pos h, beq_iff_eq.mpr h, Bool.or_true]

theorem tickValidated_of_not_wrap (p : Params) {b : Block} (h : b.pos ≠ 15) :
    tickValidated p b = { b with pos := b.pos + 1 } := by
  rw [tickValidated, tickLatched, if_neg h, beq_eq_false_iff_ne.mpr h, Bool.or_false]

theorem tickBlock_eq (p : Params) (m : Mode) (b : Block) :
    tickBlock p m b =
      if (tickValidated p b).rmsValid then Chan.all.foldl (fun b c => relayEval p c m b) (tickValidated p b)
      else tickValidated p b := by
  unfold tickBlock
  dsimp only
  by_cases hpos : b.pos = 15
  · rw [tickValidated_of_wrap p hpos, if_pos ((pos_wraps_iff _).mpr hpos)]
  · rw [tickValidated_of_not_wrap p hpos, if_neg (mt (pos_wraps_iff _).mp hpos)]

/-- Before the first latch, away from the wrap, the tick's samples are followed by the advance alone. -/
theorem tickBlock_of_not_latched {p : Params} {m : Mode} {b : Block} (hv : b.rmsValid = false) (hpos : b.pos ≠ 15) :
    tickBlock p m b = { b with pos := b.pos + 1 } := by
  rw [tickBlock_eq, tickValidated_of_not_wrap p hpos, if_neg (by simp [hv])]

/-! ## INIT -/

theorem exec_init_initDone {s : State} (hi : s.blk.initDone = false) :
    ∃ t, exec .init s = .next t ∧ t.blk.initDone = true := by
  have hrun : exec .init s = execInit s := rfl
  rw [hrun, execInit, if_neg (by simp [hi])]
  exact ⟨_, rfl, rfl⟩

theorem exec_init_chan {s t : State} (h : exec .init s = .next t) (c : Chan) : t.blk.chan c = s.blk.chan c :=
  RegWrites.chan_keeps (i := .init) id nofun (fun who => absurd who (by simp)) (fun who => absurd who (by simp))
    (execInit_effect s t h).regs

/-- A reset channel has RMS 0 and no alarm, which disagree when 0 lies below the band (R29, R30). -/
theorem not_alarmAgrees_reset {p : Params} (h : 0 < low p) : ¬ alarmAgrees p ChanRegs.reset := fun hagrees =>
  Bool.false_ne_true (hagrees.mpr (.inl h))

/-! ## The obligations of 42_sampling_rms.md -/

/-- Settles O31: the latches and the evaluations of a tick are the runs of RMS_LATCH and RELAY_EVAL over the
channels (`execAll_ite_map_chan`), from the registers that `tickBlock_eq` names. -/
theorem tickSamplesLatchesAndEvaluates : Obligations.TickSamplesLatchesAndEvaluates := by
  intro s hi x0 x1 x2 m sampled
  obtain ⟨r, hlatch⟩ := execAll_ite_map_chan (f := fun p b c => rmsLatch p c b) (fun c _ => exec_rmsLatch_ready c)
    (fun p b c => rmsLatch_initDone p c b) Chan.all (s.blk.pos = 15) (s := sampled) hi
  have hready : (tickValidated s.cfg s.sampled.blk).initDone = true :=
    (tickLatched_initDone s.cfg s.sampled.blk).trans hi
  obtain ⟨r', heval⟩ := execAll_ite_map_chan (f := fun p b c => relayEval p c m b)
    (fun c _ => exec_relayEval_ready c m) (fun p b c => relayEval_initDone p c m b) Chan.all
    ((tickValidated s.cfg s.sampled.blk).rmsValid = true)
    (s := { s.sampled.setBlk (tickValidated s.cfg s.sampled.blk) with result := r }) hready
  refine ⟨fun _ => rfl, _, _, hlatch, heval, ?_, restSame_setBlk { s with env := x2.2 } _ _⟩
  rw [exec_tick_ready hi, tickBlock_eq]
  rfl

/-- Settles O32: a tick before the first latch writes the windows and the position alone
(`tickBlock_of_not_latched`). -/
theorem noRelayMovesBeforeTheFirstLatch : Obligations.NoRelayMovesBeforeTheFirstLatch := by
  intro s hi hv hpos
  have htick := exec_tick_ready hi
  rw [tickBlock_of_not_latched (b := s.sampled.blk) hv hpos] at htick
  exact ⟨_, htick, hv, fun c => by cases c <;> rfl, rfl, rfl, rfl, rfl⟩

/-- Settles O33: the latched word is RMSF itself (`toInt_ofNat_rmsf`), and the alarm its verdict. -/
theorem rmsLatchWritesMagnitudeAndVerdict : Obligations.RmsLatchWritesMagnitudeAndVerdict := by
  intro c s hi
  refine ⟨fun _ => rfl, _, exec_rmsLatch_ready c hi, rfl, restSame_setBlk s _ _, ?_⟩
  dsimp only [State.setBlk_blk]
  rw [rmsLatch_chan_same]
  refine ⟨rfl, toInt_ofNat_rmsf _, ?_⟩
  rw [alarmVerdict_iff, toInt_ofNat_rmsf]
  rfl

/-- Settles O56: INIT leaves every channel at its reset values, where the alarm disagrees with the band. -/
theorem alarmVerdictFailsBetweenInitAndLatch : Obligations.AlarmVerdictFailsBetweenInitAndLatch := by
  intro s hblk hlow
  obtain ⟨t, hinit, hdone⟩ := exec_init_initDone (s := s) (by rw [hblk]; rfl)
  have hcfg : t.cfg = s.cfg := (exec_keepsConst .init s t hinit).1
  refine ⟨t, hinit, hdone, fun c => ?_⟩
  rw [exec_init_chan hinit, hblk, chan_reset, hcfg]
  exact not_alarmAgrees_reset hlow

end Sys2Proof.Machine

/-! # 43_relay.md: the band comparator, the delay, and the relay state machine -/

namespace Sys2Proof.Machine

/-! ## The comparator and its sides (R170, R171) -/

theorem inBand_iff (p : Params) (v : Int) : inBand p v = true ↔ low p ≤ v ∧ v ≤ high p := by
  simp [inBand]

theorem below_iff (p : Params) (v : Int) : below p v = true ↔ v < low p := by
  simp [below]

theorem above_iff (p : Params) (v : Int) : above p v = true ↔ high p < v := by
  simp [above]

/-- The band is an interval around the nominal value, so it is never empty. -/
theorem low_le_high (p : Params) : low p ≤ high p := by
  unfold low high
  omega

/-- Exactly one of in band, below and above holds (R171). -/
theorem inBand_or_below_or_above (p : Params) (v : Int) :
    inBand p v = true ∧ below p v = false ∧ above p v = false ∨
      inBand p v = false ∧ below p v = true ∧ above p v = false ∨
      inBand p v = false ∧ below p v = false ∧ above p v = true := by
  have hband := low_le_high p
  simp only [← Bool.not_eq_true, inBand_iff, below_iff, above_iff]
  omega

/-! ## The compared value (R172) -/

theorem bandValue_live {p : Params} {b : Block} {c : Chan} {m : Mode} (hlive : p.invLive = true)
    (hm : m = .inverse) (hst : (b.chan c).st = .outrange) : bandValue p b c m = rmsf (b.chan c).win :=
  if_pos ⟨hlive, hm, hst⟩

theorem bandValue_latched {p : Params} {b : Block} {c : Chan} {m : Mode}
    (h : ¬ (p.invLive = true ∧ m = .inverse ∧ (b.chan c).st = .outrange)) :
    bandValue p b c m = (b.chan c).rms.toInt :=
  if_neg h

/-! ## The delay and the trip guard (R173, R174) -/

theorem ceilDiv_le_iff {d : Nat} (hd : 0 < d) (k n : Nat) : ceilDiv k d ≤ n ↔ k ≤ n * d := by
  rw [ceilDiv, ← Nat.ceilDiv_eq_add_pred_div, ceilDiv_le_iff_le_mul hd, Nat.mul_comm]

theorem delayFor_inverse_zero {p : Params} {v : Int} (h : deviation p v = 0) :
    delayFor p .inverse v = delayInf :=
  if_pos h

/-- The quotient of a 32-bit `INV_K` fits 32 bits. -/
theorem toNat_delayFor_inverse {p : Params} {v : Int} (h : 0 < deviation p v) :
    (delayFor p .inverse v).toNat = ceilDiv p.invK.toNat (deviation p v) := by
  have hle : ceilDiv p.invK.toNat (deviation p v) ≤ p.invK.toNat :=
    (ceilDiv_le_iff h _ _).mpr (Nat.le_mul_of_pos_right _ h)
  have hdelay : delayFor p .inverse v = BitVec.ofNat 32 (ceilDiv p.invK.toNat (deviation p v)) := if_neg h.ne'
  rw [hdelay, BitVec.toNat_ofNat, Nat.mod_eq_of_lt (hle.trans_lt p.invK.isLt)]

/-- The inverse delay is the least tick count whose product with the deviation reaches `INV_K`. -/
theorem delayFor_inverse_le_iff {p : Params} {v : Int} (h : 0 < deviation p v) (n : Nat) :
    (delayFor p .inverse v).toNat ≤ n ↔ p.invK.toNat ≤ n * deviation p v := by
  rw [toNat_delayFor_inverse h, ceilDiv_le_iff h]

theorem tripAllowed_iff (p : Params) (m : Mode) (v : Int) :
    tripAllowed p m v = true ↔ ¬ (m = .inverse ∧ deviation p v = 0) := by
  simp [tripAllowed, imp_iff_not_or]

theorem inBand_of_deviation_eq_zero {p : Params} {v : Int} (h : deviation p v = 0) : inBand p v = true := by
  rw [inBand_iff]
  unfold deviation at h
  unfold low high
  omega

/-- Out of band the deviation is never zero, so the guard of R174 never stops a trip. -/
theorem tripAllowed_of_not_inBand {p : Params} (m : Mode) {v : Int} (h : inBand p v = false) :
    tripAllowed p m v = true :=
  (tripAllowed_iff p m v).mpr fun ⟨_, hdev⟩ =>
    Bool.false_ne_true (h.symm.trans (inBand_of_deviation_eq_zero hdev))

/-! ## The trip and its counter (R179, R182) -/

theorem countTrip_raise_bound {b : Block} (h : b.raisesSlot.valid = true) :
    countTrip .raise b = { b with raisesNb := b.raisesNb + 1, raisesDirty := true } :=
  if_pos h

theorem countTrip_raise_unbound {b : Block} (h : b.raisesSlot.valid = false) : countTrip .raise b = b :=
  if_neg (Bool.eq_false_iff.mp h)

theorem countTrip_lower_bound {b : Block} (h : b.lowersSlot.valid = true) :
    countTrip .lower b = { b with lowersNb := b.lowersNb + 1, lowersDirty := true } :=
  if_pos h

theorem countTrip_lower_unbound {b : Block} (h : b.lowersSlot.valid = false) : countTrip .lower b = b :=
  if_neg (Bool.eq_false_iff.mp h)

@[simp] theorem countTrip_raise_raisesNb (b : Block) :
    (countTrip .raise b).raisesNb = if b.raisesSlot.valid then b.raisesNb + 1 else b.raisesNb :=
  apply_ite Block.raisesNb _ _ _

@[simp] theorem countTrip_raise_lowersNb (b : Block) : (countTrip .raise b).lowersNb = b.lowersNb := by
  cases h : b.raisesSlot.valid
  · rw [countTrip_raise_unbound h]
  · rw [countTrip_raise_bound h]

@[simp] theorem countTrip_lower_raisesNb (b : Block) : (countTrip .lower b).raisesNb = b.raisesNb := by
  cases h : b.lowersSlot.valid
  · rw [countTrip_lower_unbound h]
  · rw [countTrip_lower_bound h]

@[simp] theorem countTrip_lower_lowersNb (b : Block) :
    (countTrip .lower b).lowersNb = if b.lowersSlot.valid then b.lowersNb + 1 else b.lowersNb :=
  apply_ite Block.lowersNb _ _ _

/-- A trip below the band, from the registers `x` that the evaluation has written to the channel. -/
theorem relayTrip_below {p : Params} {v : Int} (c : Chan) (b : Block) (x : ChanRegs) (h : below p v = true) :
    relayTrip p c v (b.setChan c x) =
      countTrip .raise (b.setChan c { x with st := .tripRaise, raiseReq := true, lowerReq := false }) := by
  rw [relayTrip, if_pos h, Block.setChan_setChan, Block.chan_setChan_same]

/-- As `relayTrip_below`, for a value that is not below the band. -/
theorem relayTrip_not_below {p : Params} {v : Int} (c : Chan) (b : Block) (x : ChanRegs) (h : below p v = false) :
    relayTrip p c v (b.setChan c x) =
      countTrip .lower (b.setChan c { x with st := .tripLower, lowerReq := true, raiseReq := false }) := by
  rw [relayTrip, if_neg (Bool.eq_false_iff.mp h), Block.setChan_setChan, Block.chan_setChan_same]

/-! ## One evaluation in each state (R176 to R180) -/

theorem relayEval_normal_inBand {p : Params} {c : Chan} {m : Mode} {b : Block} (hst : (b.chan c).st = .normal)
    (hin : inBand p (bandValue p b c m) = true) : relayEval p c m b = b := by
  simp [relayEval, hst, relayNormal, hin]

theorem relayEval_normal_outOfBand {p : Params} {c : Chan} {m : Mode} {b : Block}
    (hst : (b.chan c).st = .normal) (hout : inBand p (bandValue p b c m) = false) :
    relayEval p c m b = b.setChan c { b.chan c with
      st := .outrange, timerCount := 0, timerDelay := delayFor p m (bandValue p b c m) } := by
  simp [relayEval, hst, relayNormal, hout]

/-- From every state but NORMAL a value in band brings the channel home (R177, R180). -/
theorem relayEval_inBand {p : Params} {c : Chan} {m : Mode} {b : Block} (hst : (b.chan c).st ≠ .normal)
    (hin : inBand p (bandValue p b c m) = true) : relayEval p c m b = relayReturn c b := by
  cases h : (b.chan c).st with
  | normal => exact absurd h hst
  | outrange | tripRaise | tripLower => simp [relayEval, h, hin]

theorem relayEval_tripped_outOfBand {p : Params} {c : Chan} {m : Mode} {b : Block}
    (hst : (b.chan c).st = .tripRaise ∨ (b.chan c).st = .tripLower)
    (hout : inBand p (bandValue p b c m) = false) : relayEval p c m b = b := by
  obtain hst | hst := hst <;> simp [relayEval, hst, hout]

theorem relayEval_outrange_outOfBand {p : Params} {c : Chan} {m : Mode} {b : Block}
    (hst : (b.chan c).st = .outrange) (hout : inBand p (bandValue p b c m) = false) :
    relayEval p c m b = relayCount p c m (bandValue p b c m) b := by
  simp [relayEval, hst, hout]

/-- A channel's registers with the two timers written. -/
def ChanRegs.timed (r : ChanRegs) (delay count : Word32) : ChanRegs :=
  { r with timerDelay := delay, timerCount := count }

@[simp] theorem ChanRegs.timed_win (r : ChanRegs) (delay count : Word32) : (r.timed delay count).win = r.win := rfl
@[simp] theorem ChanRegs.timed_rms (r : ChanRegs) (delay count : Word32) : (r.timed delay count).rms = r.rms := rfl
@[simp] theorem ChanRegs.timed_st (r : ChanRegs) (delay count : Word32) : (r.timed delay count).st = r.st := rfl
@[simp] theorem ChanRegs.timed_timerCount (r : ChanRegs) (delay count : Word32) :
    (r.timed delay count).timerCount = count := rfl
@[simp] theorem ChanRegs.timed_timed (r : ChanRegs) (delay count delay' count' : Word32) :
    (r.timed delay count).timed delay' count' = r.timed delay' count' := rfl

/-- The count after one more evaluation, saturated (R178). -/
def countUp (n : Word32) : Word32 := BitVec.ofNat 32 (sat32 (n.toNat + 1))

/-- The value `v` trips a channel whose count has come to `count` (R178). -/
def Trips (p : Params) (m : Mode) (v : Int) (count : Word32) : Prop :=
  tripAllowed p m v = true ∧ (delayFor p m v).toNat ≤ count.toNat

/-- Out of band only the count decides about the trip. -/
theorem trips_iff {p : Params} {m : Mode} {v : Int} (hout : inBand p v = false) (count : Word32) :
    Trips p m v count ↔ (delayFor p m v).toNat ≤ count.toNat :=
  and_iff_right (tripAllowed_of_not_inBand m hout)

theorem relayEval_counts {p : Params} {c : Chan} {m : Mode} {b : Block} (hst : (b.chan c).st = .outrange)
    (hout : inBand p (bandValue p b c m) = false)
    (hwait : ¬ Trips p m (bandValue p b c m) (countUp (b.chan c).timerCount)) :
    relayEval p c m b = b.setChan c
      ((b.chan c).timed (delayFor p m (bandValue p b c m)) (countUp (b.chan c).timerCount)) := by
  rw [relayEval_outrange_outOfBand hst hout]
  exact if_neg hwait

theorem relayEval_trips {p : Params} {c : Chan} {m : Mode} {b : Block} (hst : (b.chan c).st = .outrange)
    (hout : inBand p (bandValue p b c m) = false)
    (htrip : Trips p m (bandValue p b c m) (countUp (b.chan c).timerCount)) :
    relayEval p c m b = relayTrip p c (bandValue p b c m) (b.setChan c
      ((b.chan c).timed (delayFor p m (bandValue p b c m)) (countUp (b.chan c).timerCount))) := by
  rw [relayEval_outrange_outOfBand hst hout]
  exact if_pos htrip

theorem relayEval_trips_below {p : Params} {c : Chan} {m : Mode} {b : Block} (hst : (b.chan c).st = .outrange)
    (hout : inBand p (bandValue p b c m) = false)
    (htrip : Trips p m (bandValue p b c m) (countUp (b.chan c).timerCount))
    (hside : below p (bandValue p b c m) = true) :
    relayEval p c m b = countTrip .raise (b.setChan c
      { (b.chan c).timed (delayFor p m (bandValue p b c m)) (countUp (b.chan c).timerCount) with
        st := .tripRaise, raiseReq := true, lowerReq := false }) := by
  rw [relayEval_trips hst hout htrip, relayTrip_below c b _ hside]

theorem relayEval_trips_not_below {p : Params} {c : Chan} {m : Mode} {b : Block}
    (hst : (b.chan c).st = .outrange) (hout : inBand p (bandValue p b c m) = false)
    (htrip : Trips p m (bandValue p b c m) (countUp (b.chan c).timerCount))
    (hside : below p (bandValue p b c m) = false) :
    relayEval p c m b = countTrip .lower (b.setChan c
      { (b.chan c).timed (delayFor p m (bandValue p b c m)) (countUp (b.chan c).timerCount) with
        st := .tripLower, lowerReq := true, raiseReq := false }) := by
  rw [relayEval_trips hst hout htrip, relayTrip_not_below c b _ hside]

/-! ## A countdown on a constant value (R183) -/

/-- The state with the timers of channel `c` written, after a transaction that answers `r`. -/
def State.timed (s : State) (c : Chan) (delay count : Word32) (r : Result) : State :=
  { s.setBlk (s.blk.setChan c ((s.blk.chan c).timed delay count)) with result := r }

@[simp] theorem State.timed_cfg (s : State) (c : Chan) (delay count : Word32) (r : Result) :
    (s.timed c delay count r).cfg = s.cfg := rfl

@[simp] theorem State.timed_blk (s : State) (c : Chan) (delay count : Word32) (r : Result) :
    (s.timed c delay count r).blk = s.blk.setChan c ((s.blk.chan c).timed delay count) := rfl

theorem State.timed_self (s : State) (c : Chan) :
    s.timed c (s.blk.chan c).timerDelay (s.blk.chan c).timerCount s.result = s := by
  cases c <;> rfl

/-- The timers play no part in the compared value (R172). -/
@[simp] theorem bandValue_timed (p : Params) (b : Block) (c : Chan) (m : Mode) (delay count : Word32) :
    bandValue p (b.setChan c ((b.chan c).timed delay count)) c m = bandValue p b c m := by
  simp [bandValue, liveRms]

/-- Below the saturation value a count goes up by one. -/
theorem countUp_ofNat {k : Nat} (hk : k < 0xFFFFFFFF) : countUp (BitVec.ofNat 32 k) = BitVec.ofNat 32 (k + 1) := by
  have hnat : (BitVec.ofNat 32 k).toNat = k := by
    rw [BitVec.toNat_ofNat, Nat.mod_eq_of_lt (by omega)]
  rw [countUp, hnat, sat32, min_eq_left (by omega)]

section Countdown

variable {c : Chan} {m : Mode} {s : State} {k : Nat}

/-- What R183 starts from: the block has booted, and channel `c` counts from 0 on a value out of band. -/
structure Counting (c : Chan) (m : Mode) (s : State) : Prop where
  ready : s.blk.initDone = true
  outrange : (s.blk.chan c).st = .outrange
  zero : (s.blk.chan c).timerCount = 0
  outOfBand : inBand s.cfg (bandValue s.cfg s.blk c m) = false

/-- The evaluation a countdown trips on. -/
def tripTick (c : Chan) (m : Mode) (s : State) : Nat :=
  max (delayFor s.cfg m (bandValue s.cfg s.blk c m)).toNat 1

theorem tripTick_le (c : Chan) (m : Mode) (s : State) : tripTick c m s ≤ 0xFFFFFFFF :=
  max_le (Nat.le_of_lt_succ (BitVec.isLt _)) (by decide)

/-- The evaluation that brings the count to `k + 1` trips exactly from the trip tick on. -/
theorem trips_succ_iff (h : Counting c m s) (hk : k < tripTick c m s) :
    Trips s.cfg m (bandValue s.cfg s.blk c m) (countUp (BitVec.ofNat 32 k)) ↔ tripTick c m s ≤ k + 1 := by
  have hle := tripTick_le c m s
  rw [trips_iff h.outOfBand, countUp_ofNat (by omega), BitVec.toNat_ofNat, Nat.mod_eq_of_lt (by omega)]
  exact ⟨fun hdelay => max_le hdelay (by omega), le_of_max_le_left⟩

theorem exec_relayEval_timed (h : Counting c m s) (delay count : Word32) (r : Result) :
    exec (.relayEval c m) (s.timed c delay count r) =
      .next { s.setBlk (relayEval s.cfg c m (s.timed c delay count r).blk) with result := .none } :=
  exec_relayEval_ready c m ((Block.setChan_initDone _ _ _).trans h.ready)

/-- Before the trip tick an evaluation counts, and only the timers of the channel change. -/
theorem exec_relayEval_timed_counts (h : Counting c m s) (hk : k + 1 < tripTick c m s) (delay : Word32)
    (r : Result) :
    exec (.relayEval c m) (s.timed c delay (BitVec.ofNat 32 k) r) =
      .next (s.timed c (delayFor s.cfg m (bandValue s.cfg s.blk c m)) (BitVec.ofNat 32 (k + 1)) .none) := by
  have hwait := mt (trips_succ_iff h (Nat.lt_of_succ_lt hk)).mp (Nat.not_le.mpr hk)
  have hcount := countUp_ofNat (Nat.lt_of_succ_lt (hk.trans_le (tripTick_le c m s)))
  rw [exec_relayEval_timed h, State.timed_blk,
    relayEval_counts (by simpa using h.outrange) (by simpa using h.outOfBand) (by simpa using hwait)]
  simp [State.timed, hcount]

/-- On the trip tick an evaluation trips, from registers that differ from those of `s` in the timers alone. -/
theorem exec_relayEval_timed_trips (h : Counting c m s) (hk : k + 1 = tripTick c m s) (delay : Word32)
    (r : Result) :
    ∃ delay' count, exec (.relayEval c m) (s.timed c delay (BitVec.ofNat 32 k) r) =
      .next { s.setBlk (relayTrip s.cfg c (bandValue s.cfg s.blk c m)
        (s.blk.setChan c ((s.blk.chan c).timed delay' count))) with result := .none } := by
  have htrip := (trips_succ_iff h (Nat.lt_of_succ_le hk.le)).mpr hk.ge
  refine ⟨delayFor s.cfg m (bandValue s.cfg s.blk c m), countUp (BitVec.ofNat 32 k), ?_⟩
  rw [exec_relayEval_timed h, State.timed_blk,
    relayEval_trips (by simpa using h.outrange) (by simpa using h.outOfBand) (by simpa using htrip)]
  simp

theorem execAll_replicate_succ {i : Instr} {t : State} {n : Nat} (h : execAll (List.replicate n i) s = .next t) :
    execAll (List.replicate (n + 1) i) s = execAll [i] t := by
  rw [List.replicate_succ', execAll_append_of_next h]

/-- The run up to any evaluation before the trip tick counts its evaluations. -/
theorem execAll_relayEval_counts (h : Counting c m s) (hk : k < tripTick c m s) :
    ∃ delay r, execAll (List.replicate k (.relayEval c m)) s = .next (s.timed c delay (BitVec.ofNat 32 k) r) := by
  induction k with
  | zero =>
    have hself := s.timed_self c
    rw [h.zero] at hself
    exact ⟨_, _, congrArg _ hself.symm⟩
  | succ k ih =>
    obtain ⟨delay, r, hrun⟩ := ih (Nat.lt_of_succ_lt hk)
    have hstep := exec_relayEval_timed_counts h hk delay r
    exact ⟨_, _, (execAll_replicate_succ hrun).trans (execAll_cons_of_next hstep)⟩

/-- The run up to the trip tick ends in a trip. -/
theorem execAll_relayEval_trips (h : Counting c m s) :
    ∃ delay count, execAll (List.replicate (tripTick c m s) (.relayEval c m)) s =
      .next { s.setBlk (relayTrip s.cfg c (bandValue s.cfg s.blk c m)
        (s.blk.setChan c ((s.blk.chan c).timed delay count))) with result := .none } := by
  obtain ⟨k, hk⟩ : ∃ k, tripTick c m s = k + 1 :=
    Nat.exists_eq_succ_of_ne_zero (Nat.ne_of_gt (le_max_right _ 1))
  obtain ⟨delay, r, hrun⟩ := execAll_relayEval_counts h (Nat.lt_of_succ_le hk.ge)
  obtain ⟨delay', count, hstep⟩ := exec_relayEval_timed_trips h hk.symm delay r
  rw [hk]
  exact ⟨delay', count, (execAll_replicate_succ hrun).trans (execAll_cons_of_next hstep)⟩

end Countdown

/-- A trip in either direction: the state it enters and the one counter it increments, if that has a slot. -/
theorem relayTrip_counts_once (p : Params) (c : Chan) (v : Int) (b : Block) (x : ChanRegs) :
    ((relayTrip p c v (b.setChan c x)).chan c).st = (if v < low p then .tripRaise else .tripLower) ∧
      (relayTrip p c v (b.setChan c x)).raisesNb =
        (if v < low p ∧ b.raisesSlot.valid = true then b.raisesNb + 1 else b.raisesNb) ∧
      (relayTrip p c v (b.setChan c x)).lowersNb =
        (if ¬ v < low p ∧ b.lowersSlot.valid = true then b.lowersNb + 1 else b.lowersNb) := by
  by_cases hlow : v < low p
  · rw [relayTrip_below c b x ((below_iff p v).mpr hlow)]
    simp [hlow]
  · rw [relayTrip_not_below c b x (Bool.eq_false_iff.mpr (mt (below_iff p v).mp hlow))]
    simp [hlow]

/-! ## The obligations of 43_relay.md -/

/-- Settles O35: each function by the lemma that says what it computes. -/
theorem bandAndDelayAreAsDefined : Obligations.BandAndDelayAreAsDefined := fun p v =>
  ⟨inBand_iff p v, below_iff p v, above_iff p v, inBand_or_below_or_above p v,
    fun _ _ _ => ⟨bandValue_live, bandValue_latched⟩, rfl, delayFor_inverse_zero,
    fun hd => ⟨toNat_delayFor_inverse hd, fun n => (delayFor_inverse_le_iff hd n).symm⟩,
    fun m => tripAllowed_iff p m v, inBand_of_deviation_eq_zero⟩

/-- Settles O36: one equation of `relayEval` per state and side of the band. -/
theorem relayEvaluationFollowsItsStates : Obligations.RelayEvaluationFollowsItsStates := by
  intro c m s hi
  have hraises (x : ChanRegs) : (s.blk.setChan c x).raisesSlot.valid = s.blk.raisesSlot.valid := by simp
  have hlowers (x : ChanRegs) : (s.blk.setChan c x).lowersSlot.valid = s.blk.lowersSlot.valid := by simp
  refine ⟨fun _ => by cases m <;> rfl, _, exec_relayEval_ready c m hi, rfl, restSame_setBlk s _ _,
    relayEval_normal_inBand, relayEval_normal_outOfBand, fun hst => relayEval_inBand (by simp [hst]),
    relayEval_counts, fun hst hout htrip hside hslot => ?_, fun hst hout htrip hside hslot => ?_,
    fun hst hout htrip hside hslot => ?_, fun hst hout htrip hside hslot => ?_,
    fun hst => relayEval_inBand (by obtain hst | hst := hst <;> simp [hst]), relayEval_tripped_outOfBand⟩
  · refine (relayEval_trips_below hst hout htrip hside).trans ?_
    rw [countTrip_raise_bound ((hraises _).trans hslot), Block.setChan_raisesNb]
    rfl
  · exact (relayEval_trips_below hst hout htrip hside).trans (countTrip_raise_unbound ((hraises _).trans hslot))
  · refine (relayEval_trips_not_below hst hout htrip hside).trans ?_
    rw [countTrip_lower_bound ((hlowers _).trans hslot), Block.setChan_lowersNb]
    rfl
  · exact (relayEval_trips_not_below hst hout htrip hside).trans
      (countTrip_lower_unbound ((hlowers _).trans hslot))

/-- Settles O37: the run up to the trip tick counts (`execAll_relayEval_counts`), and the last evaluation trips. -/
theorem countdownTripsOnTheDelayedTick : Obligations.CountdownTripsOnTheDelayedTick := by
  intro c m s hi hst hzero hout
  have h : Counting c m s := ⟨hi, hst, hzero, hout⟩
  refine ⟨fun k hk => ?_, ?_⟩
  · obtain ⟨delay, r, hrun⟩ := execAll_relayEval_counts h hk
    have hlt := lt_of_lt_of_le hk (tripTick_le c m s)
    refine ⟨_, hrun, ?_, ?_, Block.setChan_raisesNb _ _ _, Block.setChan_lowersNb _ _ _⟩
    · simpa using hst
    · simp only [State.timed_blk, Block.chan_setChan_same, ChanRegs.timed_timerCount, BitVec.toNat_ofNat]
      omega
  · obtain ⟨delay, count, hrun⟩ := execAll_relayEval_trips h
    exact ⟨_, hrun, relayTrip_counts_once s.cfg c _ s.blk _⟩

/-- Settles O38: a tick count that reaches `INV_K` with the smaller deviation reaches it with the larger one. -/
theorem inverseDelayIsMonotone : Obligations.InverseDelayIsMonotone := by
  intro p v1 v2 hpos hlt
  refine max_le_max_right 1 ((delayFor_inverse_le_iff (hpos.trans hlt) _).mpr ?_)
  calc p.invK.toNat
      ≤ (delayFor p .inverse v2).toNat * deviation p v2 := (delayFor_inverse_le_iff hpos _).mp le_rfl
    _ ≤ (delayFor p .inverse v2).toNat * deviation p v1 := Nat.mul_le_mul_left _ hlt.le

end Sys2Proof.Machine

/-! # 44_nvstore.md: the allocator, the write sequencer, and the persistence of the counters -/

namespace Sys2Proof.Machine

theorem legalWidth_iff (w : Nat) : legalWidth w = true ↔ w = 1 ∨ w = 2 ∨ w = 4 := by
  simp [legalWidth, or_assoc]

/-! ## The allocator (R200, R201) -/

theorem exec_alloc_ready {s : State} (size : Byte) (hi : s.blk.initDone = true) :
    exec (.alloc size) s = .next { s.setBlk (allocBlock s.cfg size.toNat s.blk).2 with
      result := (allocBlock s.cfg size.toNat s.blk).1.result } := by
  have hrun : exec (.alloc size) s = execAlloc size s := rfl
  rw [hrun, execAlloc, gated_ready hi, finish]

/-- `firstFit_eq_some` with the candidate given by its offset. -/
theorem firstFit_of_least {p : Params} {fsm : List Bool} {n a : Nat} (hn : 0 < n) (haligned : a % n = 0)
    (hfits : a + n ≤ p.nvsSize) (hfree : FreeAt fsm n a) (hleast : ∀ a' < a, a' % n = 0 → ¬ FreeAt fsm n a') :
    firstFit p fsm n = some a := by
  obtain ⟨k, rfl⟩ : ∃ k, a = k * n := ⟨a / n, (Nat.div_mul_cancel (Nat.dvd_of_mod_eq_zero haligned)).symm⟩
  refine firstFit_eq_some hn hfits ((freeRun_iff _ _ _).mpr hfree) fun j hj => ?_
  rw [← Bool.not_eq_true, freeRun_iff]
  exact hleast _ (Nat.mul_lt_mul_of_pos_right hj hn) (Nat.mul_mod_left j n)

theorem firstFit_of_no_run {p : Params} {fsm : List Bool} {n : Nat}
    (h : ∀ a, a % n = 0 → a + n ≤ p.nvsSize → ¬ FreeAt fsm n a) : firstFit p fsm n = none := by
  refine Option.eq_none_iff_forall_ne_some.mpr fun a ha => ?_
  obtain ⟨haligned, hfits, hfree⟩ := firstFit_some ha
  exact h a haligned hfits ((freeRun_iff _ _ _).mp hfree)

theorem allocBlock_of_no_fit {p : Params} {n : Nat} {b : Block} (hl : legalWidth n = true)
    (hf : firstFit p b.fsm n = none) :
    allocBlock p n b = (.fail .outOfSpace, { b with nvStatus := .outOfSpace }) := by
  simp [allocBlock, hl, hf]

theorem allocBlock_of_bad_size {p : Params} {n : Nat} (b : Block) (hl : ¬ legalWidth n = true) :
    allocBlock p n b = (.fail .badSize, { b with nvStatus := .badSize }) := by
  simp [allocBlock, hl]

theorem allocBlock_frame (p : Params) (n : Nat) (b : Block) :
    (allocBlock p n b).2 =
      { b with fsm := (allocBlock p n b).2.fsm, nvStatus := (allocBlock p n b).2.nvStatus } := by
  obtain ⟨a, -, -, h⟩ | ⟨-, -, h⟩ | ⟨-, h⟩ := allocBlock_spec p n b <;> rw [h]

/-- On a bitmap of known length, marking sets exactly the run's bits. -/
theorem getElem?_markUsed_eq_ite {fsm : List Bool} (n a : Nat) {i : Nat} (h : i < fsm.length) :
    (markUsed fsm n a)[i]? = if a ≤ i ∧ i < a + n then some true else fsm[i]? := by
  rw [getElem?_markUsed, List.getElem?_eq_getElem h]
  by_cases hin : a ≤ i ∧ i < a + n <;> simp [hin]

/-- A free run exists in the bitmap, so marking it sets all its bits. -/
theorem getElem?_markUsed_of_freeAt {fsm : List Bool} {n a i : Nat} (h : FreeAt fsm n a) (hi : i < n) :
    (markUsed fsm n a)[a + i]? = some true := by
  simp [getElem?_markUsed, h i hi, hi]

/-- What an ALLOC that returns an offset has done; offsets of the region fit the 16-bit result. -/
theorem exec_alloc_allocated {size : Byte} {s t : State} {off : Word16} (hi : s.blk.initDone = true)
    (hsize : s.cfg.nvsSize ≤ 65536) (h : exec (.alloc size) s = .next t) (hr : t.result = .allocated off) :
    0 < size.toNat ∧ off.toNat % size.toNat = 0 ∧ FreeAt s.blk.fsm size.toNat off.toNat ∧
      t.blk.fsm = markUsed s.blk.fsm size.toNat off.toNat := by
  rw [exec_alloc_ready size hi] at h
  cases h
  obtain ⟨a, hl, hf, h⟩ | ⟨-, -, h⟩ | ⟨-, h⟩ := allocBlock_spec s.cfg size.toNat s.blk
  · obtain ⟨haligned, hfits, hfree⟩ := firstFit_some hf
    have hpos : 0 < size.toNat := by
      obtain hl | hl | hl := (legalWidth_iff _).mp hl <;> omega
    have hoff : off.toNat = a := by
      have : BitVec.ofNat 16 a = off := by simpa [h, AllocOut.result] using hr
      rw [← this, BitVec.toNat_ofNat, Nat.mod_eq_of_lt (by omega)]
    rw [hoff]
    exact ⟨hpos, haligned, (freeRun_iff _ _ _).mp hfree, congrArg (·.2.fsm) h⟩
  · simp [h, AllocOut.result] at hr
  · simp [h, AllocOut.result] at hr

/-! ## The checks of NV_WRITE (R203) -/

theorem exec_nvWrite_ready {s : State} (width : Byte) (off : Word16) (val : Word32) (hi : s.blk.initDone = true) :
    exec (.nvWrite width off val) s = .next { (s.nvWrite width.toNat off.toNat val).2 with
      result := .status (s.nvWrite width.toNat off.toNat val).1 } := by
  have hrun : exec (.nvWrite width off val) s = execNvWrite width off val s := rfl
  rw [hrun, execNvWrite, gated_ready hi, finish]

theorem nvCheck_badSize (p : Params) {w : Nat} (off : Nat) (hw : ¬ (w = 1 ∨ w = 2 ∨ w = 4)) :
    nvCheck p w off = some .badSize := by
  simp [nvCheck, mt (legalWidth_iff w).mp hw]

theorem nvCheck_alignmentViolation (p : Params) {w off : Nat} (hw : w = 1 ∨ w = 2 ∨ w = 4) (ha : off % w ≠ 0) :
    nvCheck p w off = some .alignmentViolation := by
  simp [nvCheck, (legalWidth_iff w).mpr hw, ha]

theorem nvCheck_badAddress {p : Params} {w off : Nat} (hw : w = 1 ∨ w = 2 ∨ w = 4) (ha : off % w = 0)
    (hr : p.nvsSize < off + w) : nvCheck p w off = some .badAddress := by
  simp [nvCheck, (legalWidth_iff w).mpr hw, ha, hr]

theorem State.nvWrite_of_rejected {s : State} {w off : Nat} {st : Status} (val : Word32)
    (h : nvCheck s.cfg w off = some st) :
    s.nvWrite w off val = (st, s.setBlk { s.blk with nvStatus := st }) := by
  simp [State.nvWrite, h]

theorem State.nvWrite_of_accepted {s : State} {w off : Nat} (val : Word32) (h : WriteAccepted s.cfg w off) :
    s.nvWrite w off val = ((s.nvSequence w off val).1,
      (s.nvSequence w off val).2.setBlk
        { (s.nvSequence w off val).2.blk with nvStatus := (s.nvSequence w off val).1 }) := by
  simp [State.nvWrite, (nvCheck_eq_none_iff _ _ _).mpr h]

/-- A rejected NV_WRITE leaves everything but `nvStatus` alone, the environment's answers included: it draws none. -/
theorem exec_nvWrite_rejected {width : Byte} {off : Word16} (val : Word32) {s : State} {st : Status}
    (hi : s.blk.initDone = true) (h : nvCheck s.cfg width.toNat off.toNat = some st) :
    ∃ t, exec (.nvWrite width off val) s = .next t ∧ t.result = .status st ∧
      t.blk = { s.blk with nvStatus := st } ∧ RestSame s t := by
  refine ⟨_, exec_nvWrite_ready width off val hi, ?_⟩
  rw [State.nvWrite_of_rejected val h]
  exact ⟨rfl, rfl, restSame_setBlk s _ _⟩

/-! ## An NV_WRITE whose device calls answer ok (R204 to R207) -/

/-- The erase unit of a write's offset holds the whole write: the width divides the offset and, as a power of two
up to 4, the size of the unit (R6). -/
theorem WriteAccepted.inside_unit {p : Params} {w off : Nat} (h : WriteAccepted p w off) (hp : p.wf) :
    unitBase p off ≤ off ∧ off + w ≤ unitBase p off + p.eu := by
  obtain ⟨hw, haligned, -⟩ := h
  obtain ⟨hfour, hpow, -⟩ := hp
  have hlog : 2 ≤ p.eu.log2 := (Nat.le_log2 (by omega)).mpr hfour
  have hdvd : 4 ∣ p.eu := hpow ▸ Nat.pow_dvd_pow 2 hlog
  have hbase : unitBase p off + off % p.eu = off := Nat.div_add_mod' off p.eu
  have hlt : off % p.eu < p.eu := Nat.mod_lt _ (by omega)
  have hmod : off % p.eu % w = off % w := Nat.mod_mod_of_dvd off (by
    obtain rfl | rfl | rfl := hw <;> omega)
  obtain rfl | rfl | rfl := hw <;> omega

/-- Each byte of the unit after a sequence that succeeds: the value's in the written range, its own elsewhere. -/
theorem State.nvSequence_byte {s : State} (w off : Nat) (val : Word32) (hd : DeviceOk s) {j : Nat}
    (hj : j < s.cfg.eu) :
    (s.nvSequence w off val).2.nvByte (unitBase s.cfg off + j) =
      if off - unitBase s.cfg off ≤ j ∧ j < off - unitBase s.cfg off + w
      then byteOf val (j - (off - unitBase s.cfg off)) else s.nvByte (unitBase s.cfg off + j) := by
  obtain ⟨-, -, -, hbytes⟩ := State.nvSequence_spec s w off val
  rw [hbytes hd j (by simpa using hj), mergeBytes_getElem, State.nvBytes_getElem]

/-- Write-merge correctness (R209 item 2), of NV_WRITE as an operation. -/
theorem State.nvWrite_of_deviceOk {s : State} {w off : Nat} (val : Word32) (hp : s.cfg.wf)
    (ha : WriteAccepted s.cfg w off) (hd : DeviceOk s) :
    (s.nvWrite w off val).1 = .ok ∧
      (∀ i < w, (s.nvWrite w off val).2.nvByte (off + i) = byteOf val i) ∧
      StorageSameOutside s (s.nvWrite w off val).2 off w := by
  obtain ⟨hbase, hend⟩ := ha.inside_unit hp
  obtain ⟨⟨⟨hcfg, -⟩, -, -, -, hframe⟩, -, hok, -⟩ := State.nvSequence_spec s w off val
  rw [State.nvWrite_of_accepted val ha]
  refine ⟨hok.mpr hd, fun i hiw => ?_, fun a houtside => ?_⟩
  · have hat : unitBase s.cfg off + (off - unitBase s.cfg off + i) = off + i := by omega
    have hbyte := State.nvSequence_byte w off val hd (j := off - unitBase s.cfg off + i) (by omega)
    rw [if_pos (by omega), Nat.add_sub_cancel_left, hat] at hbyte
    exact hbyte
  · by_cases hunit : a < s.cfg.nvsBase + unitBase s.cfg off ∨ s.cfg.nvsBase + unitBase s.cfg off + s.cfg.eu ≤ a
    · exact hframe a hunit
    · obtain ⟨j, rfl⟩ : ∃ j, a = s.cfg.nvsBase + (unitBase s.cfg off + j) :=
        ⟨a - s.cfg.nvsBase - unitBase s.cfg off, by omega⟩
      have hbyte := State.nvSequence_byte w off val hd (j := j) (by omega)
      rw [if_neg (by omega), State.nvByte, hcfg] at hbyte
      exact hbyte

/-! ## An NV_WRITE one of whose device calls fails (R206, R207) -/

/-- The environment's answers once a device call of a write has failed: the erase, after which the program call is
not made, or the program call. -/
def Env.afterFailedCall (e : Env) : Env := if e.drawDev.1 then e.drawDev.2.drawDev.2 else e.drawDev.2

theorem State.scrambleUnit_byte? (s : State) (base : Nat) {i : Nat} (h : i < s.cfg.eu) :
    some ((s.scrambleUnit base).nvByte (base + i)) = (s.env.drawBytes s.cfg.eu).1[i]? := by
  rw [State.scrambleUnit_byte s base h, List.getElem?_eq_getElem]

/-- Whichever device call fails, the sequence ends in the scramble of its unit, with the bytes drawn after that call. -/
theorem State.nvSequence_of_failure {s : State} (w off : Nat) (val : Word32) (hd : ¬ DeviceOk s) :
    ∃ u : State, u.cfg = s.cfg ∧ u.env = s.env.afterFailedCall ∧
      s.nvSequence w off val = (.programFailure, u.scrambleUnit (unitBase s.cfg off)) := by
  obtain ⟨⟨⟨hcfg, -⟩, -⟩, herase, hkept, hfailed⟩ := State.devErase_spec s (unitBase s.cfg off)
  obtain he | he := Bool.eq_false_or_eq_true s.env.drawDev.1
  · have hprog : s.env.drawDev.2.drawDev.1 = false := Bool.eq_false_iff.mpr fun hprog => hd ⟨he, hprog⟩
    refine ⟨(s.devErase (unitBase s.cfg off)).2.setEnv s.env.drawDev.2.drawDev.2, hcfg, ?_, ?_⟩
    · simp [Env.afterFailedCall, he]
    · simp [State.nvSequence, State.devProgram, herase, hkept he, he, hprog]
  · refine ⟨s.setEnv s.env.drawDev.2, rfl, ?_, ?_⟩
    · simp [Env.afterFailedCall, he]
    · simp [State.nvSequence, herase, hfailed he, he]

/-- What NV_WRITE as an operation leaves when a device call fails (R209 items 1 and 3). -/
theorem State.nvWrite_of_failure {s : State} {w off : Nat} (val : Word32) (ha : WriteAccepted s.cfg w off)
    (hd : ¬ DeviceOk s) :
    (s.nvWrite w off val).1 = .programFailure ∧
      (s.nvWrite w off val).2.env = (s.env.afterFailedCall.drawBytes s.cfg.eu).2 ∧
      ∀ i < s.cfg.eu, some ((s.nvWrite w off val).2.nvByte (unitBase s.cfg off + i)) =
        (s.env.afterFailedCall.drawBytes s.cfg.eu).1[i]? := by
  obtain ⟨u, hcfg, henv, hseq⟩ := State.nvSequence_of_failure w off val hd
  rw [State.nvWrite_of_accepted val ha, hseq, ← hcfg, ← henv]
  exact ⟨rfl, rfl, fun i hi => u.scrambleUnit_byte? _ hi⟩

/-! ## PERSIST (R215) -/

theorem exec_persist (s : State) : exec .persist s = execPersist s := rfl

theorem holds_persist {s : State} (hi : s.blk.initDone = true) (hr : s.blk.raisesDirty = false)
    (hl : s.blk.lowersDirty = false) : Holds .persist s := by
  rw [Holds, exec_persist, execPersist, gated_ready hi, hr, hl]
  rfl

/-- The NV_WRITE by which PERSIST stores counter `n` at offset `off`, once the block registers are `b`. -/
def State.storeCounter (s : State) (b : Block) (off : Word16) (n : Word16) : State :=
  ((s.setBlk b).nvWrite 2 off.toNat (n.setWidth 32)).2

theorem exec_persist_raises {s : State} (hi : s.blk.initDone = true) (hr : s.blk.raisesDirty = true) :
    exec .persist s = .next
      { s.storeCounter { s.blk with raisesDirty := false } s.blk.raisesSlot.off s.blk.raisesNb with
        result := .none } := by
  rw [exec_persist, execPersist, gated_ready hi, if_pos hr]
  rfl

theorem exec_persist_lowers {s : State} (hi : s.blk.initDone = true) (hr : s.blk.raisesDirty = false)
    (hl : s.blk.lowersDirty = true) :
    exec .persist s = .next
      { s.storeCounter { s.blk with lowersDirty := false } s.blk.lowersSlot.off s.blk.lowersNb with
        result := .none } := by
  rw [exec_persist, execPersist, gated_ready hi, if_neg (by simp [hr]), if_pos hl]
  rfl

theorem byteOf_setWidth_word16 (n : Word16) :
    byteOf (n.setWidth 32) 0 = n.extractLsb' 0 8 ∧ byteOf (n.setWidth 32) 1 = n.extractLsb' 8 8 := by
  constructor <;> ext i hi <;> simp [byteOf] <;> omega

theorem State.storeCounter_frame (s : State) (b : Block) (off n : Word16) :
    OutsideSame s (s.storeCounter b off n) ∧
      (s.storeCounter b off n).blk = { b with nvStatus := (s.storeCounter b off n).blk.nvStatus } := by
  obtain ⟨houtside, hblk, -⟩ := State.nvWrite_spec (s.setBlk b) 2 off.toNat (n.setWidth 32)
  refine ⟨houtside, ?_⟩
  rw [State.storeCounter, hblk]
  rfl

theorem State.storeCounter_of_deviceOk {s : State} (b : Block) {off : Word16} (n : Word16) (hp : s.cfg.wf)
    (ha : WriteAccepted s.cfg 2 off.toNat) (hd : DeviceOk s) :
    (s.storeCounter b off n).blk.nvStatus = .ok ∧
      (s.storeCounter b off n).nvByte off.toNat = n.extractLsb' 0 8 ∧
      (s.storeCounter b off n).nvByte (off.toNat + 1) = n.extractLsb' 8 8 ∧
      StorageSameOutside s (s.storeCounter b off n) off.toNat 2 := by
  obtain ⟨-, hblk, -⟩ := State.nvWrite_spec (s.setBlk b) 2 off.toNat (n.setWidth 32)
  obtain ⟨hok, hbytes, houtside⟩ := State.nvWrite_of_deviceOk (s := s.setBlk b) (n.setWidth 32) hp ha hd
  obtain ⟨hlow, hhigh⟩ := byteOf_setWidth_word16 n
  exact ⟨(congrArg Block.nvStatus hblk).trans hok, (hbytes 0 (by decide)).trans hlow,
    (hbytes 1 (by decide)).trans hhigh, houtside⟩

theorem State.storeCounter_of_failure {s : State} (b : Block) {off : Word16} (n : Word16)
    (ha : WriteAccepted s.cfg 2 off.toNat) (hd : ¬ DeviceOk s) :
    (s.storeCounter b off n).blk.nvStatus = .programFailure ∧
      StorageSameOutside s (s.storeCounter b off n) (unitBase s.cfg off.toNat) s.cfg.eu := by
  obtain ⟨-, hblk, -, -, hunit⟩ := State.nvWrite_spec (s.setBlk b) 2 off.toNat (n.setWidth 32)
  obtain ⟨hfailed, -⟩ := State.nvWrite_of_failure (s := s.setBlk b) (n.setWidth 32) ha hd
  exact ⟨(congrArg Block.nvStatus hblk).trans hfailed, hunit⟩

/-! ## The obligations of 44_nvstore.md -/

/-- Settles O39: the three answers of `allocBlock`, each from what the scan finds. -/
theorem allocTakesTheLowestFreeAlignedRun : Obligations.AllocTakesTheLowestFreeAlignedRun := by
  intro size s hi hsize hlen n
  refine ⟨fun _ => rfl, _, exec_alloc_ready size hi, restSame_setBlk s _ _, allocBlock_frame _ _ _,
    fun hw => ?_, fun hw a haligned hfits hfree hleast => ?_, fun hw hnone => ?_⟩
  · rw [allocBlock_of_bad_size s.blk (mt (legalWidth_iff n).mp hw)]
    exact ⟨rfl, rfl, rfl⟩
  · have hpos : 0 < n := by omega
    rw [allocBlock_of_firstFit ((legalWidth_iff n).mpr hw) (firstFit_of_least hpos haligned hfits hfree hleast)]
    exact ⟨rfl, rfl, markUsed_length _ _ _, fun i hi => getElem?_markUsed_eq_ite n a (hlen ▸ hi)⟩
  · rw [allocBlock_of_no_fit ((legalWidth_iff n).mpr hw) (firstFit_of_no_run hnone)]
    exact ⟨rfl, rfl, rfl⟩

/-- Settles O40: a common byte of the two runs, the larger of the two offsets, would be marked by the first
allocation and free for the second. -/
theorem allocationsNeverOverlap : Obligations.AllocationsNeverOverlap := by
  intro n1 n2 s t u v a1 a2 his hiu hsize hcfg ht hrt hkept hv hrv
  obtain ⟨hpos1, haligned1, hfree1, hmarked⟩ := exec_alloc_allocated his hsize ht hrt
  obtain ⟨hpos2, haligned2, hfree2, -⟩ := exec_alloc_allocated hiu (hcfg ▸ hsize) hv hrv
  have hused : ∀ i < n1.toNat, t.blk.fsm[a1.toNat + i]? = some true := fun i hi =>
    hmarked ▸ getElem?_markUsed_of_freeAt hfree1 hi
  refine ⟨haligned1, haligned2, hused, ?_⟩
  by_contra hoverlap
  obtain ⟨i, j, hi, hj, hij⟩ : ∃ i j, i < n1.toNat ∧ j < n2.toNat ∧ a1.toNat + i = a2.toNat + j :=
    ⟨max a1.toNat a2.toNat - a1.toNat, max a1.toNat a2.toNat - a2.toNat, by omega, by omega, by omega⟩
  have htrue := hkept _ (hused i hi)
  rw [hij, hfree2 j hj] at htrue
  cases htrue

/-- Settles O41: the check that fails first gives the status, and the rejected write does nothing else. -/
theorem nvWriteRejectsBeforeAnyDeviceCall : Obligations.NvWriteRejectsBeforeAnyDeviceCall :=
  fun _ _ val s hi =>
    ⟨fun hw => exec_nvWrite_rejected val hi (nvCheck_badSize s.cfg _ hw),
      fun hw ha => exec_nvWrite_rejected val hi (nvCheck_alignmentViolation s.cfg hw ha),
      fun hw ha hr => exec_nvWrite_rejected val hi (nvCheck_badAddress hw ha hr)⟩

/-- Settles O42: the merged unit is written whole, and it holds the write (`WriteAccepted.inside_unit`). -/
theorem nvWriteMergesItsBytes : Obligations.NvWriteMergesItsBytes := by
  intro width off val s hi hp ha hd
  obtain ⟨houtside, hblk, -⟩ := State.nvWrite_spec s width.toNat off.toNat val
  obtain ⟨hok, hbytes, hsame⟩ := State.nvWrite_of_deviceOk val hp ha hd
  exact ⟨fun _ => rfl, _, exec_nvWrite_ready width off val hi, congrArg Result.status hok, hok ▸ hblk, houtside,
    hbytes, hsame⟩

/-- Settles O43: whichever call fails, the write ends in the scramble of its unit (`State.nvSequence_of_failure`). -/
theorem failedNvWriteSpoilsOnlyItsUnit : Obligations.FailedNvWriteSpoilsOnlyItsUnit := by
  intro width off val s hi ha hd
  obtain ⟨houtside, hblk, -, -, hunit⟩ := State.nvWrite_spec s width.toNat off.toNat val
  obtain ⟨hfailed, henv, hbytes⟩ := State.nvWrite_of_failure val ha hd
  exact ⟨_, exec_nvWrite_ready width off val hi, congrArg Result.status hfailed, hfailed ▸ hblk, houtside, henv,
    hbytes, hunit⟩

/-- Settles O44: for either counter, PERSIST is the write of that counter through its slot. -/
theorem persistWritesOneDirtyCounter : Obligations.PersistWritesOneDirtyCounter := by
  intro s hi
  refine ⟨fun _ => rfl, holds_persist hi, fun hr => ?_, fun hr hl => ?_⟩
  · obtain ⟨houtside, hblk⟩ :=
      s.storeCounter_frame { s.blk with raisesDirty := false } s.blk.raisesSlot.off s.blk.raisesNb
    exact ⟨_, exec_persist_raises hi hr, rfl, houtside, hblk, State.storeCounter_of_deviceOk _ _,
      State.storeCounter_of_failure _ _⟩
  · obtain ⟨houtside, hblk⟩ :=
      s.storeCounter_frame { s.blk with lowersDirty := false } s.blk.lowersSlot.off s.blk.lowersNb
    exact ⟨_, exec_persist_lowers hi hr hl, rfl, houtside, hblk, State.storeCounter_of_deviceOk _ _,
      State.storeCounter_of_failure _ _⟩

end Sys2Proof.Machine

/-! # 45_commands.md: the ten commands and the dispatcher -/

namespace Sys2Proof.Machine

/-! ## Handling a frame (R230, R84, R85) -/

/-- The block registers once a command has answered `r`: the response is on `tx` if it was asked for. -/
def Block.answered (b : Block) (a : Bool) (code : BitVec 7) (r : Reply) : Block :=
  { b with tx := if a then b.tx.pushFrame (FiveBytes.ofFour (commandByte r.ok code) r.r1 r.r2 r.r3) else b.tx }

theorem runCommand_answers {a : Bool} {code : BitVec 7} {execute : State → Reply × State} {s u : State} {r : Reply}
    (hready : CommandReady a s) (hrun : execute (s.setBlk { s.blk with frmValid := false }) = (r, u)) :
    runCommand a code execute s = .next { u.setBlk (u.blk.answered a code r) with result := .none } := by
  rw [runCommand_ready hready, hrun]
  cases a <;> rfl

theorem runCommand_noRoom {code : BitVec 7} {execute : State → Reply × State} {s : State}
    (hi : s.blk.initDone = true) (hfull : s.blk.tx.free.toNat < 5) : runCommand true code execute s = hold s := by
  rw [runCommand, gated_ready hi, txNoRoom, if_pos (by simpa using hfull)]

/-- The command completes with the block registers `b`, and leaves everything outside them alone. -/
def Completes (i : Instr) (s : State) (b : Block) : Prop :=
  ∃ t, exec i s = .next t ∧ t.result = .none ∧ RestSame s t ∧ t.blk = b

/-- A ready command whose execution writes block registers only. -/
theorem completes_of_execute {i : Instr} {a : Bool} {code : BitVec 7} {execute : State → Reply × State} {s : State}
    {r : Reply} {b : Block} (hready : CommandReady a s) (hexec : exec i s = runCommand a code execute s)
    (hrun : execute (s.setBlk { s.blk with frmValid := false }) = (r, s.setBlk b)) :
    Completes i s (b.answered a code r) :=
  ⟨_, hexec.trans (runCommand_answers hready hrun), rfl, restSame_setBlk s _ _, rfl⟩

/-! ## The commands without storage (R232 to R234, R236, R238 to R241) -/

section Commands

variable {a : Bool} {s : State}

theorem ofBool_toBit_setWidth (m : Mode) :
    (BitVec.ofBool m.toBit).setWidth 8 = if m = .inverse then (1 : Byte) else 0 := by
  cases m <;> rfl

theorem completes_getTiming (p1 p2 p3 : Byte) (h : CommandReady a s) :
    Completes (.getTiming a p1 p2 p3) s (Block.answered { s.blk with frmValid := false } a s.cfg.cmdCode.getTiming
      ⟨true, if s.blk.mode = .inverse then 1 else 0, 0, 0⟩) := by
  rw [← ofBool_toBit_setWidth]
  exact completes_of_execute h rfl rfl

theorem exec_setTiming (p1 p2 p3 : Byte) : exec (.setTiming a p1 p2 p3) s = execSetTiming a p1 p2 p3 s := rfl

/-- The value of `p1` decides the success bit and the mode (R233). -/
theorem completes_setTiming (p1 p2 p3 : Byte) (h : CommandReady a s) :
    ∃ ok m, Completes (.setTiming a p1 p2 p3) s
        (Block.answered { s.blk with frmValid := false, mode := m } a s.cfg.cmdCode.setTiming ⟨ok, p1, p2, p3⟩) ∧
      (p1 = 0 → ok = true ∧ m = .definite) ∧ (p1 = 1 → ok = true ∧ m = .inverse) ∧
      (p1 ≠ 0 → p1 ≠ 1 → ok = false ∧ m = s.blk.mode) := by
  by_cases h0 : p1 = 0
  · exact ⟨true, .definite, completes_of_execute h (exec_setTiming p1 p2 p3) (if_pos h0), by simp [h0]⟩
  · by_cases h1 : p1 = 1
    · exact ⟨true, .inverse, completes_of_execute h (exec_setTiming p1 p2 p3) ((if_neg h0).trans (if_pos h1)),
        by simp [h1]⟩
    · exact ⟨false, s.blk.mode, completes_of_execute h (exec_setTiming p1 p2 p3) ((if_neg h0).trans (if_neg h1)),
        fun h => absurd h h0, fun h => absurd h h1, fun _ _ => ⟨rfl, rfl⟩⟩

theorem completes_getRaises (p1 p2 p3 : Byte) (h : CommandReady a s) :
    Completes (.getRaises a p1 p2 p3) s (Block.answered { s.blk with frmValid := false } a s.cfg.cmdCode.getRaises
      (counterReply s.blk.raisesNb)) :=
  completes_of_execute h rfl rfl

theorem completes_getLowers (p1 p2 p3 : Byte) (h : CommandReady a s) :
    Completes (.getLowers a p1 p2 p3) s (Block.answered { s.blk with frmValid := false } a s.cfg.cmdCode.getLowers
      (counterReply s.blk.lowersNb)) :=
  completes_of_execute h rfl rfl

/-- The commands that only echo (R238 to R241). -/
theorem completes_echo {i : Instr} {code : BitVec 7} {ok : Bool} {p1 p2 p3 : Byte} (h : CommandReady a s)
    (hexec : exec i s = runCommand a code (echo ok p1 p2 p3) s) :
    Completes i s (Block.answered { s.blk with frmValid := false } a code ⟨ok, p1, p2, p3⟩) :=
  completes_of_execute h hexec rfl

/-! ## The counter resets (R235, R237) -/

/-- Through a slot, the storage part of a counter reset is PERSIST's write with the counter 0. -/
theorem State.storeZero_of_valid {slot : Slot} (b : Block) (hv : slot.valid = true) :
    (s.setBlk b).storeZero slot =
      ((s.storeCounter b slot.off 0).blk.nvStatus == .ok, s.storeCounter b slot.off 0) := by
  obtain ⟨-, hblk, -⟩ := State.nvWrite_spec (s.setBlk b) 2 slot.off.toNat ((0 : Word16).setWidth 32)
  rw [State.storeZero, if_pos hv, State.storeCounter, hblk]
  rfl

theorem State.storeZero_of_invalid {slot : Slot} (hv : slot.valid = false) : s.storeZero slot = (false, s) := by
  rw [State.storeZero, hv, if_neg Bool.false_ne_true]

/-- What a counter reset through `slot` does from `s` to `t` in storage and to `nvStatus`, and when it succeeds. -/
def ZeroStored (s : State) (slot : Slot) (t : State) (ok : Bool) : Prop :=
  (slot.valid = false → ok = false ∧ t.blk.nvStatus = s.blk.nvStatus ∧ RestSame s t) ∧
  (slot.valid = true → (ok = true ↔ t.blk.nvStatus = .ok)) ∧
  (slot.valid = true → s.cfg.wf → WriteAccepted s.cfg 2 slot.off.toNat → DeviceOk s →
    ok = true ∧ t.nvByte slot.off.toNat = 0 ∧ t.nvByte (slot.off.toNat + 1) = 0 ∧
    StorageSameOutside s t slot.off.toNat 2) ∧
  (slot.valid = true → WriteAccepted s.cfg 2 slot.off.toNat → ¬ DeviceOk s →
    ok = false ∧ t.blk.nvStatus = .programFailure ∧
    StorageSameOutside s t (unitBase s.cfg slot.off.toNat) s.cfg.eu)

theorem zeroStored_storeZero (slot : Slot) {b : Block} (hstatus : b.nvStatus = s.blk.nvStatus) :
    ZeroStored s slot ((s.setBlk b).storeZero slot).2 ((s.setBlk b).storeZero slot).1 := by
  cases hv : slot.valid with
  | false =>
    rw [State.storeZero_of_invalid hv]
    exact ⟨fun _ => ⟨rfl, hstatus, restSame_setBlk s b s.result⟩, by simp [hv]⟩
  | true =>
    rw [State.storeZero_of_valid b hv]
    refine ⟨by simp [hv], fun _ => beq_iff_eq, fun _ hp haccepted hd => ?_, fun _ haccepted hd => ?_⟩
    · obtain ⟨hok, hlow, hhigh, hsame⟩ := State.storeCounter_of_deviceOk b 0 hp haccepted hd
      exact ⟨beq_iff_eq.mpr hok, hlow, hhigh, hsame⟩
    · obtain ⟨hfailed, hsame⟩ := State.storeCounter_of_failure b 0 haccepted hd
      exact ⟨by rw [hfailed]; rfl, hfailed, hsame⟩

theorem State.storeZero_frame (slot : Slot) (b : Block) :
    OutsideSame s ((s.setBlk b).storeZero slot).2 ∧
      ((s.setBlk b).storeZero slot).2.blk =
        { b with nvStatus := ((s.setBlk b).storeZero slot).2.blk.nvStatus } := by
  obtain ⟨houtside, ⟨st, ⟨-, hblk⟩ | hblk⟩, -, -⟩ := State.storeZero_spec (s.setBlk b) slot <;>
    exact ⟨houtside, by rw [hblk]; rfl⟩

/-- The command completes as a counter reset through `slot`, with the block registers `b` before it answers. -/
def ResetsCounter (i : Instr) (s : State) (slot : Slot) (b : Block) (a : Bool) (code : BitVec 7)
    (p1 p2 p3 : Byte) : Prop :=
  ∃ t ok, exec i s = .next t ∧ t.result = .none ∧ OutsideSame s t ∧ ZeroStored s slot t ok ∧
    t.blk = Block.answered { b with nvStatus := t.blk.nvStatus } a code ⟨ok, p1, p2, p3⟩

/-- A ready command that writes block registers other than `nvStatus` and then 0 through `slot`. -/
theorem resetsCounter_of_execute {i : Instr} {code : BitVec 7} {execute : State → Reply × State} {slot : Slot}
    {b : Block} {p1 p2 p3 : Byte} (hready : CommandReady a s) (hexec : exec i s = runCommand a code execute s)
    (hrun : execute (s.setBlk { s.blk with frmValid := false }) =
      (⟨((s.setBlk b).storeZero slot).1, p1, p2, p3⟩, ((s.setBlk b).storeZero slot).2))
    (hstatus : b.nvStatus = s.blk.nvStatus) : ResetsCounter i s slot b a code p1 p2 p3 := by
  obtain ⟨houtside, hblk⟩ := State.storeZero_frame (s := s) slot b
  exact ⟨_, _, hexec.trans (runCommand_answers hready hrun), rfl, houtside, zeroStored_storeZero slot hstatus,
    congrArg (Block.answered · a code _) hblk⟩

theorem exec_resetRaises (p1 p2 p3 : Byte) : exec (.resetRaises a p1 p2 p3) s = execResetRaises a p1 p2 p3 s := rfl

theorem resetsCounter_resetRaises (p1 p2 p3 : Byte) (h : CommandReady a s) :
    ResetsCounter (.resetRaises a p1 p2 p3) s s.blk.raisesSlot
      { s.blk with frmValid := false, raisesNb := 0, raisesDirty := false } a s.cfg.cmdCode.resetRaises p1 p2 p3 :=
  resetsCounter_of_execute h (exec_resetRaises p1 p2 p3) rfl rfl

theorem exec_resetLowers (p1 p2 p3 : Byte) : exec (.resetLowers a p1 p2 p3) s = execResetLowers a p1 p2 p3 s := rfl

theorem resetsCounter_resetLowers (p1 p2 p3 : Byte) (h : CommandReady a s) :
    ResetsCounter (.resetLowers a p1 p2 p3) s s.blk.lowersSlot
      { s.blk with frmValid := false, lowersNb := 0, lowersDirty := false } a s.cfg.cmdCode.resetLowers p1 p2 p3 :=
  resetsCounter_of_execute h (exec_resetLowers p1 p2 p3) rfl rfl

end Commands

/-! ## The dispatcher (R230) -/

/-- A frame spells a command with the frame's acknowledge bit and code. -/
theorem commandHead_decodeFrame (k : CmdCodes) (f : FiveBytes) :
    commandHead k (decodeFrame k f) = some (ackBit f.b0, codeField f.b0) := by
  cases h : k.lookup (codeField f.b0) with
  | none => rw [decodeFrame_of_lookup_none h, commandHead]
  | some n =>
    rw [decodeFrame_of_lookup h, CmdCodes.code_of_lookup h]
    cases n <;> rfl

/-- The command takes the frame: it drops `frmValid`, leaves `frm`, and completes. -/
def TakesFrame (i : Instr) (s : State) : Prop :=
  ∃ t, exec i s = .next t ∧ t.blk.frmValid = false ∧ t.blk.frm = s.blk.frm ∧ t.result = .none ∧ OutsideSame s t

theorem RestSame.outsideSame {s t : State} (h : RestSame s t) : OutsideSame s t := by
  obtain ⟨hcfg, -, hrefused, hin, hout, -, hsched⟩ := h
  exact ⟨hcfg, hrefused, hin, hout, hsched⟩

theorem Completes.takesFrame {i : Instr} {s : State} {b : Block} (h : Completes i s b) (hvalid : b.frmValid = false)
    (hfrm : b.frm = s.blk.frm) : TakesFrame i s := by
  obtain ⟨t, hexec, hresult, hrest, rfl⟩ := h
  exact ⟨t, hexec, hvalid, hfrm, hresult, hrest.outsideSame⟩

theorem ResetsCounter.takesFrame {i : Instr} {s : State} {slot : Slot} {b : Block} {a : Bool} {code : BitVec 7}
    {p1 p2 p3 : Byte} (h : ResetsCounter i s slot b a code p1 p2 p3) (hvalid : b.frmValid = false)
    (hfrm : b.frm = s.blk.frm) : TakesFrame i s := by
  obtain ⟨t, ok, hexec, hresult, houtside, -, hblk⟩ := h
  exact ⟨t, hexec, (congrArg Block.frmValid hblk).trans hvalid, (congrArg Block.frm hblk).trans hfrm, hresult,
    houtside⟩

/-- Every ready command takes the frame. -/
theorem takesFrame_of_commandHead {i : Instr} {s : State} {a : Bool} {code : BitVec 7}
    (hhead : commandHead s.cfg.cmdCode i = some (a, code)) (hready : CommandReady a s) : TakesFrame i s := by
  cases i with
  | getTiming a p1 p2 p3 => cases hhead; exact (completes_getTiming p1 p2 p3 hready).takesFrame rfl rfl
  | setTiming a p1 p2 p3 =>
    cases hhead
    obtain ⟨ok, m, hcompletes, -⟩ := completes_setTiming p1 p2 p3 hready
    exact hcompletes.takesFrame rfl rfl
  | getRaises a p1 p2 p3 => cases hhead; exact (completes_getRaises p1 p2 p3 hready).takesFrame rfl rfl
  | resetRaises a p1 p2 p3 => cases hhead; exact (resetsCounter_resetRaises p1 p2 p3 hready).takesFrame rfl rfl
  | getLowers a p1 p2 p3 => cases hhead; exact (completes_getLowers p1 p2 p3 hready).takesFrame rfl rfl
  | resetLowers a p1 p2 p3 => cases hhead; exact (resetsCounter_resetLowers p1 p2 p3 hready).takesFrame rfl rfl
  | queryFreq | queryVolt | querySpectrum | cmdUnknown =>
    cases hhead
    exact (completes_echo hready rfl).takesFrame rfl rfl
  | _ => cases hhead

/-- A command that wants a response holds while it does not fit. -/
theorem holds_of_noRoom {i : Instr} {s : State} {code : BitVec 7} (hi : s.blk.initDone = true)
    (hfull : s.blk.tx.free.toNat < 5) (hhead : commandHead s.cfg.cmdCode i = some (true, code)) : Holds i s := by
  obtain ⟨execute, hexec, -⟩ := exec_eq_runCommand hhead
  exact hexec.trans (runCommand_noRoom hi hfull)

/-! ## The obligations of 45_commands.md -/

/-- Settles O2: a waiting frame is the command it spells, and every ready command takes the frame. -/
theorem dispatchRunsTheFrameItHolds : Obligations.DispatchRunsTheFrameItHolds := by
  intro s _
  refine ⟨exec_dispatch_of_not_frmValid, exec_dispatch_of_frmValid, fun hvalid hready => ?_⟩
  rw [exec_dispatch_of_frmValid hvalid]
  exact takesFrame_of_commandHead (commandHead_decodeFrame _ _) hready

/-- Settles O47: both resets are one write of 0 through the counter's slot (`zeroStored_storeZero`). -/
theorem counterResetsClearAndStoreZero : Obligations.CounterResetsClearAndStoreZero :=
  fun _ p1 p2 p3 _ hready =>
    ⟨resetsCounter_resetRaises p1 p2 p3 hready, resetsCounter_resetLowers p1 p2 p3 hready⟩

/-- Settles O49: DISPATCH waits as the command that its frame spells. -/
theorem commandsWaitForResponseRoom : Obligations.CommandsWaitForResponseRoom := by
  intro s hi hfull
  refine ⟨fun i code hhead => holds_of_noRoom hi hfull hhead, fun hvalid hack => ?_⟩
  rw [Holds, exec_dispatch_of_frmValid hvalid]
  exact holds_of_noRoom hi hfull (hack ▸ commandHead_decodeFrame s.cfg.cmdCode s.blk.frm)

/-- Settles O45, SET_TIMING by the value of `p1`. -/
theorem timingCommandsReadAndSetTheMode : Obligations.TimingCommandsReadAndSetTheMode := by
  intro a p1 p2 p3 s hready
  obtain ⟨ok, m, ⟨t, hexec, hresult, hrest, hblk⟩, hdefinite, hinverse, hother⟩ :=
    completes_setTiming p1 p2 p3 hready
  refine ⟨completes_getTiming p1 p2 p3 hready, t, hexec, hresult, hrest, fun h0 => ?_, fun h1 => ?_,
    fun h0 h1 => ?_⟩
  · obtain ⟨rfl, rfl⟩ := hdefinite h0
    exact hblk
  · obtain ⟨rfl, rfl⟩ := hinverse h1
    exact hblk
  · obtain ⟨rfl, rfl⟩ := hother h0 h1
    exact hblk

/-- Settles O46: a counter read writes no register of its own, and `counterReply` is little-endian. -/
theorem counterReadsAnswerLittleEndian : Obligations.CounterReadsAnswerLittleEndian :=
  fun _ p1 p2 p3 _ hready => ⟨completes_getRaises p1 p2 p3 hready, completes_getLowers p1 p2 p3 hready⟩

/-- Settles O48: all four executions are `echo`, which touches nothing. -/
theorem queriesAndUnknownCodesEcho : Obligations.QueriesAndUnknownCodesEcho :=
  fun _ _ _ _ _ _ hready =>
    ⟨completes_echo hready rfl, completes_echo hready rfl, completes_echo hready rfl, completes_echo hready rfl⟩

end Sys2Proof.Machine

/-! # 60_exceptions.md: holds, faults, the scheduling policy, quiescence, and reset with INIT -/

namespace Sys2Proof.Machine

/-! ## The boot gate (R271) -/

theorem holds_init {s : State} (hi : s.blk.initDone = true) : Holds .init s := by
  have hrun : exec .init s = execInit s := rfl
  rw [Holds, hrun, execInit, if_pos hi, hold]

/-- Settles O4: INIT is the only writer of `initDone` (`RegWrites.initDone`), and after boot it holds. -/
theorem nothingRunsBeforeInitAndInitRunsOnce : Obligations.NothingRunsBeforeInitAndInitRunsOnce := by
  refine ⟨fun _ _ => holds_of_not_initDone, fun _ => holds_init, fun i s t h hdone => ?_⟩
  by_cases hi : i = .init
  · subst hi
    rw [hold_next ((holds_init hdone).symm.trans h)]
    exact hdone
  · exact ((exec_effect h).regs.initDone (effective_ne rfl hi)).trans hdone

/-! ## The block has no fault (R263) -/

/-- The outcome is a next state: no fault and no refusal. -/
def Proceeds (o : Out) : Prop := ∃ t, o = .next t

theorem Holds.proceeds {i : Instr} {s : State} (h : Holds i s) : Proceeds (exec i s) := ⟨_, h⟩

theorem TakesFrame.proceeds {i : Instr} {s : State} (h : TakesFrame i s) : Proceeds (exec i s) :=
  h.imp fun _ => And.left

/-- Every frame command holds for lack of room or takes the frame (R230). -/
theorem command_proceeds {i : Instr} {s : State} {a : Bool} {code : BitVec 7} (hi : s.blk.initDone = true)
    (hhead : commandHead s.cfg.cmdCode i = some (a, code)) : Proceeds (exec i s) := by
  cases a with
  | false => exact (takesFrame_of_commandHead hhead ⟨hi, nofun⟩).proceeds
  | true =>
    by_cases hroom : 5 ≤ s.blk.tx.free.toNat
    · exact (takesFrame_of_commandHead hhead ⟨hi, fun _ => hroom⟩).proceeds
    · exact (holds_of_noRoom hi (Nat.lt_of_not_le hroom) hhead).proceeds

section Ready

variable {s : State}

theorem dispatch_proceeds (hi : s.blk.initDone = true) : Proceeds (exec .dispatch s) := by
  cases hv : s.blk.frmValid with
  | false => exact ⟨_, exec_dispatch_of_not_frmValid hv⟩
  | true =>
    rw [exec_dispatch_of_frmValid hv]
    exact command_proceeds hi (commandHead_decodeFrame _ _)

theorem rxByte_proceeds (b : Byte) (hi : s.blk.initDone = true) : Proceeds (exec (.rxByte b) s) := by
  by_cases hfull : s.blk.rx.free = 0
  · cases hpolicy : s.cfg.rxFullPolicy with
    | drop => exact ⟨_, exec_rxByte_drop b hi hfull hpolicy⟩
    | stuck => exact (holds_rxByte_stuck b hi hfull hpolicy).proceeds
  · exact ⟨_, exec_rxByte_room b hi hfull⟩

/-- SYNC_STEP stops only at a fill count that has no place in `stg` (R25, log 14). -/
theorem syncStep_proceeds (hi : s.blk.initDone = true) (hcount : s.blk.stgCount.toNat ≤ 4) :
    Proceeds (exec .syncStep s) := by
  cases hv : s.blk.frmValid with
  | true => exact (holds_syncStep_frame hi hv).proceeds
  | false =>
    by_cases hempty : s.blk.rx.avail = 0
    · exact (holds_syncStep_empty hi hv hempty).proceeds
    · exact ⟨_, exec_syncStep_avail hi hv hempty hcount⟩

theorem persist_proceeds (hi : s.blk.initDone = true) : Proceeds (exec .persist s) := by
  cases hr : s.blk.raisesDirty with
  | true => exact ⟨_, exec_persist_raises hi hr⟩
  | false =>
    cases hl : s.blk.lowersDirty with
    | true => exact ⟨_, exec_persist_lowers hi hr hl⟩
    | false => exact (holds_persist hi hr hl).proceeds

/-- An initialized block whose fill count of `stg` is possible (R25) answers every transaction with a next state. -/
theorem exec_proceeds_ready (i : Instr) (hi : s.blk.initDone = true) (hcount : s.blk.stgCount.toNat ≤ 4) :
    Proceeds (exec i s) := by
  cases i with
  | put f b =>
    by_cases hfull : (s.blk.fifo f).free = 0
    · exact (holds_put b hi hfull).proceeds
    · exact ⟨_, exec_put_room b hi hfull⟩
  | tryput f b =>
    by_cases hfull : (s.blk.fifo f).free = 0
    · exact ⟨_, exec_tryput_full b hi hfull⟩
    · exact ⟨_, exec_tryput_room b hi hfull⟩
  | get f =>
    by_cases hempty : (s.blk.fifo f).avail = 0
    · exact (holds_get hi hempty).proceeds
    · exact ⟨_, exec_get_avail hi hempty⟩
  | rxByte b => exact rxByte_proceeds b hi
  | txReady =>
    by_cases hempty : s.blk.tx.avail = 0
    · exact (holds_txReady hi hempty).proceeds
    · exact ⟨_, exec_txReady_avail hi hempty⟩
  | syncStep => exact syncStep_proceeds hi hcount
  | dispatch => exact dispatch_proceeds hi
  | encodeFrame c p1 p2 p3 =>
    by_cases hroom : 5 ≤ s.blk.tx.free.toNat
    · exact ⟨_, exec_encodeFrame_room c p1 p2 p3 hi hroom⟩
    · exact (holds_encodeFrame c p1 p2 p3 hi (Nat.lt_of_not_le hroom)).proceeds
  | tick => exact ⟨_, exec_tick_ready hi⟩
  | rmsLatch c => exact ⟨_, exec_rmsLatch_ready c hi⟩
  | relayEval c m => exact ⟨_, exec_relayEval_ready c m hi⟩
  | alloc size => exact ⟨_, exec_alloc_ready size hi⟩
  | nvWrite w off v => exact ⟨_, exec_nvWrite_ready w off v hi⟩
  | persist => exact persist_proceeds hi
  | init => exact (holds_init hi).proceeds
  | getTiming | setTiming | getRaises | resetRaises | getLowers | resetLowers | queryFreq | queryVolt | querySpectrum
  | cmdUnknown => exact command_proceeds hi rfl

end Ready

/-- Before boot INIT runs and the rest holds; after it `exec_proceeds_ready` says the same of every transaction. -/
theorem exec_proceeds (i : Instr) {s : State} (hcount : s.blk.stgCount.toNat ≤ 4) : Proceeds (exec i s) := by
  cases hs : s.blk.initDone with
  | true => exact exec_proceeds_ready i hs hcount
  | false =>
    by_cases hi : i = .init
    · obtain ⟨t, h, -⟩ := exec_init_initDone hs
      exact ⟨t, hi ▸ h⟩
    · exact (holds_of_not_initDone hs hi).proceeds

theorem step_of_reset {s : State} (he : (fetch s).1 = .reset) : step s = .next (fetch s).2.blockReset := by
  simp [step, he]

theorem step_of_torn {s : State} {w : TxWord} (he : (fetch s).1 = .torn w) : Proceeds (step s) := by
  cases hd : decodeWord w with
  | ok i => exact ⟨_, by simp only [step, he, hd]; rfl⟩
  | error e => exact ⟨_, by simp only [step, he, hd]; rfl⟩

/-- Settles O10, by the kind of the next event: only a transaction could stop, and under R25 none does
(`exec_proceeds`). -/
theorem machineUnderInvariantNeverStops : Obligations.MachineUnderInvariantNeverStops := by
  intro s inv
  change Proceeds (step s)
  cases he : (fetch s).1 with
  | word w =>
    cases hd : decodeWord w with
    | ok i =>
      rw [step_of_decodes he hd]
      split
      · exact exec_proceeds i ((fetch_blk s).symm ▸ inv.staging)
      · exact ⟨_, rfl⟩
    | error e => exact ⟨_, step_of_rejected he hd⟩
  | reset => exact ⟨_, step_of_reset he⟩
  | torn w => exact step_of_torn he

/-! ## A reset and INIT (R281, R292) -/

/-- INIT loads a counter from the two bytes of its slot, low byte first (R292, R64). -/
theorem State.loadCounter_toNat (s : State) (off : Word16) :
    (s.loadCounter ⟨off, true⟩).toNat = (s.nvByte off.toNat).toNat + 256 * (s.nvByte (off.toNat + 1)).toNat := by
  have hread : s.memRead off.toNat 2 = (s.nvByte off.toNat).toNat + 256 * (s.nvByte (off.toNat + 1)).toNat := by
    simp [State.memRead, State.nvBytes, leValue, List.range_succ]
  have hlo := (s.nvByte off.toNat).isLt
  have hhi := (s.nvByte (off.toNat + 1)).isLt
  rw [State.loadCounter, if_pos rfl, BitVec.toNat_ofNat, hread, Nat.mod_eq_of_lt (by omega)]

/-- INIT with storage that no allocation has touched: the slots at offsets 0 and 2, and their counters (R292). -/
theorem exec_init_fresh {s : State} (hi : s.blk.initDone = false)
    (hfsm : s.blk.fsm = List.replicate s.cfg.nvsSize false) (hp : s.cfg.wf) (hne : s.cfg.nvsSize ≠ 0) :
    exec .init s = .next { s.setBlk { s.blk with
      fsm := markUsed (markUsed (List.replicate s.cfg.nvsSize false) 2 0) 2 2
      nvStatus := .ok
      raisesSlot := ⟨0, true⟩
      lowersSlot := ⟨2, true⟩
      raisesNb := s.loadCounter ⟨0, true⟩
      lowersNb := s.loadCounter ⟨2, true⟩
      initDone := true } with result := .none } := by
  have hrun : exec .init s = execInit s := rfl
  have hsize := Params.four_le_nvsSize hp hne
  have hfirst := allocBlock_of_firstFit (b := s.blk) (by decide) (hfsm ▸ firstFit_replicate hsize)
  rw [hrun, execInit, if_neg (by simp [hi]), hfirst]
  dsimp only
  rw [allocBlock_of_firstFit (by decide) (hfsm ▸ firstFit_markUsed_replicate hsize), hfsm]
  rfl

/-- Settles O52: the reset leaves the registers that INIT starts from, and neither writes storage. -/
theorem countersSurviveAReset : Obligations.CountersSurviveAReset := by
  intro s es hp hne hs
  have hf := fetch_of_sched hs
  have hreset := step_of_reset (congrArg Prod.fst hf)
  rw [hf] at hreset
  have hd : decodeWord initWord = .ok .init := decodeWord_of_encode (k := s.cfg.cmdCode) rfl rfl
  have hstep := (stepRunsTheNextWord.1 (State.blockReset { s with sched := .word initWord :: es }) initWord es .init
    rfl hd).1 (admitted_init _)
  have hinit := exec_init_fresh (s := State.blockReset { s with sched := es }) rfl rfl hp hne
  exact ⟨_, _, hreset, hstep.trans hinit, rfl, rfl, State.loadCounter_toNat s 0, State.loadCounter_toNat s 2, rfl, rfl,
    fun _ => rfl⟩

/-! ## The scheduling policy (R270, R272) -/

section Policy

variable {s : State}

theorem admitted_free (h : s.cfg.sched = .free) (i : Instr) : admitted s i = true := by
  rw [admitted, h]

theorem admitted_dispatch (h : s.cfg.sched = .priority) :
    admitted s .dispatch = true ↔ ¬ agentEnabled s.cfg s.blk .recv = true := by
  simp [admitted, h, agentOf]

theorem admitted_persist (h : s.cfg.sched = .priority) :
    admitted s .persist = true ↔ ¬ agentEnabled s.cfg s.blk .recv = true ∧ ¬ agentEnabled s.cfg s.blk .pkt = true := by
  simp [admitted, h, agentOf]

/-- Only DISPATCH and PERSIST can be made to wait. -/
theorem admitted_of_ne {i : Instr} (hdispatch : i ≠ .dispatch) (hpersist : i ≠ .persist) : admitted s i = true := by
  unfold admitted
  cases s.cfg.sched with
  | free => rfl
  | priority =>
    cases i with
    | dispatch => exact absurd rfl hdispatch
    | persist => exact absurd rfl hpersist
    | _ => rfl

end Policy

/-- Settles O55: a word runs where it is admitted and holds where it is not, and under PRIORITY the agents before
DISPATCH and PERSIST decide whether they are. -/
theorem priorityAdmitsTheFirstEnabledAgent : Obligations.PriorityAdmitsTheFirstEnabledAgent := by
  intro s w es i hs hd u recv pkt
  obtain ⟨hruns, hwaits⟩ := stepRunsTheNextWord.1 s w es i hs hd
  have hrecv : agentEnabled u.cfg u.blk .recv = true ↔ recv := agentEnabled_recv s.cfg s.blk
  have hpkt : agentEnabled u.cfg u.blk .pkt = true ↔ pkt := agentEnabled_pkt s.cfg s.blk
  refine ⟨fun hfree => hruns (admitted_free (s := u) hfree i), fun hpri =>
    ⟨fun hdispatch hpersist => hruns (admitted_of_ne hdispatch hpersist), ?_, ?_, ?_, ?_⟩⟩
  · rintro rfl h
    exact hwaits (Bool.eq_false_iff.mpr fun ha => (admitted_dispatch (s := u) hpri).mp ha (hrecv.mpr h))
  · rintro rfl h
    exact hruns ((admitted_dispatch (s := u) hpri).mpr (mt hrecv.mp h))
  · rintro rfl h
    refine hwaits (Bool.eq_false_iff.mpr fun ha => ?_)
    obtain ⟨hnrecv, hnpkt⟩ := (admitted_persist (s := u) hpri).mp ha
    exact h.elim (fun h => hnrecv (hrecv.mpr h)) (fun h => hnpkt (hpkt.mpr h))
  · rintro rfl h h'
    exact hruns ((admitted_persist (s := u) hpri).mpr ⟨mt hrecv.mp h, mt hpkt.mp h'⟩)

/-! ## Quiescence (R282) -/

theorem quiescent_iff (b : Block) : quiescent b = true ↔ b.initDone = true ∧ b.frmValid = false ∧ b.rx.avail = 0 ∧
    b.raisesDirty = false ∧ b.lowersDirty = false := by
  simp [quiescent, and_assoc]

/-- A frame that wants a response waits for room in `tx`, and nothing else is to be done. -/
def WaitsForRoom (b : Block) : Prop :=
  b.initDone = true ∧ b.frmValid = true ∧ ackBit b.frm.b0 = true ∧ b.tx.free.toNat < 5 ∧
    b.raisesDirty = false ∧ b.lowersDirty = false

/-- The first sentence of R282, by the conditions of R270. -/
theorem internalIdle_iff_agents (p : Params) (b : Block) : internalIdle p b = true ↔
    b.initDone = true ∧ ¬ agentEnabled p b .recv = true ∧ ¬ agentEnabled p b .pkt = true ∧
      ¬ agentEnabled p b .sigout = true := by
  have hinit : agentEnabled p b .init = !b.initDone := rfl
  simp [internalIdle, hinit, and_assoc]

/-- RECV is idle without a byte or behind a frame; behind a frame PKT is idle only where its response has no room. -/
theorem internalIdle_iff (p : Params) (b : Block) :
    internalIdle p b = true ↔ quiescent b = true ∨ WaitsForRoom b := by
  rw [internalIdle_iff_agents, quiescent_iff, WaitsForRoom, agentEnabled_recv, agentEnabled_pkt, agentEnabled_sigout]
  cases b.initDone with
  | false => simp
  | true => cases b.frmValid <;> simp [and_assoc]

theorem holds_dispatch_of_waitsForRoom {s : State} (h : WaitsForRoom s.blk) : Holds .dispatch s := by
  obtain ⟨hi, hv, hack, hfull, -, -⟩ := h
  exact (commandsWaitForResponseRoom s hi hfull).2 hv hack

/-- Settles O57: in each of the two cases of `internalIdle_iff` the rule of each internal transaction makes it hold. -/
theorem quiescentStatesWaitForTheEnvironment : Obligations.QuiescentStatesWaitForTheEnvironment := by
  refine fun s => ⟨quiescent_iff s.blk, internalIdle_iff s.cfg s.blk, fun hidle => ?_⟩
  obtain hquiet | hwaits := (internalIdle_iff s.cfg s.blk).mp hidle
  · obtain ⟨hi, hv, hempty, hr, hl⟩ := (quiescent_iff s.blk).mp hquiet
    exact ⟨holds_init hi, holds_syncStep_empty hi hv hempty, exec_dispatch_of_not_frmValid hv, holds_persist hi hr hl⟩
  · have ⟨hi, hv, _, _, hr, hl⟩ := hwaits
    exact ⟨holds_init hi, holds_syncStep_frame hi hv, holds_dispatch_of_waitsForRoom hwaits, holds_persist hi hr hl⟩

end Sys2Proof.Machine

/-! # 70_reset_and_hazards.md: INIT, the block reset, and a reset inside a storage write -/

namespace Sys2Proof.Machine

/-! ## The registers a reset leaves (R290) -/

theorem fifo_reset (p : Params) (f : FifoSel) : (Block.reset p).fifo f = Fifo.reset := by
  cases f <;> rfl

@[simp] theorem ChanRegs.reset_win_getElem (i : Nat) (h : i < 16) : ChanRegs.reset.win[i] = 0 :=
  Vector.getElem_replicate h

/-! ## A reset inside a storage write (R305) -/

theorem step_of_torn_admitted {s : State} {w : TxWord} {i : Instr} (he : (fetch s).1 = .torn w)
    (hd : decodeWord w = .ok i) (ha : admitted (fetch s).2 i = true) :
    step s = .next ((fetch s).2.tornReset i) := by
  simp only [step, he, hd, ha, if_true]

/-- The write a transaction makes depends on the registers and the parameters alone. -/
theorem writeTarget_congr {s t : State} (hcfg : t.cfg = s.cfg) (hblk : t.blk = s.blk) (i : Instr) :
    writeTarget t i = writeTarget s i := by
  simp only [writeTarget, hcfg, hblk]

theorem State.tornReset_of_accepted {s : State} {i : Instr} {w off : Nat} (htarget : writeTarget s i = some (w, off))
    (haccepted : WriteAccepted s.cfg w off) :
    s.tornReset i = (s.scrambleUnit (unitBase s.cfg off)).blockReset := by
  simp only [State.tornReset, htarget, (nvCheck_eq_none_iff _ _ _).mpr haccepted, if_true]

/-! ## INIT (R292) -/

/-- INIT without storage: neither allocation finds a place, so no counter has a slot. -/
theorem exec_init_without_storage {s : State} (hi : s.blk.initDone = false) (hnone : s.cfg.nvsSize = 0) :
    exec .init s = .next { s.setBlk { s.blk with
      nvStatus := .outOfSpace
      raisesSlot := ⟨0, false⟩
      lowersSlot := ⟨0, false⟩
      raisesNb := 0
      lowersNb := 0
      initDone := true } with result := .none } := by
  have hrun : exec .init s = execInit s := rfl
  have hfails (b : Block) : allocBlock s.cfg 2 b = (.fail .outOfSpace, { b with nvStatus := .outOfSpace }) :=
    allocBlock_of_no_fit (by decide) (firstFit_of_no_run fun a _ hfits => by omega)
  rw [hrun, execInit, if_neg (by simp [hi]), hfails]
  dsimp only
  rw [hfails]
  rfl

/-- The bits of the two slots, of the four bytes from offset 0, are the used ones after INIT. -/
theorem getElem?_markUsed_slots {n i : Nat} (h : i < n) :
    (markUsed (markUsed (List.replicate n false) 2 0) 2 2)[i]? = some (decide (i < 4)) := by
  rw [getElem?_markUsed, getElem?_markUsed, List.getElem?_replicate, if_pos h, Option.map_some, Option.map_some,
    Option.some_inj, Bool.eq_iff_iff]
  simp only [Bool.false_or, Bool.or_eq_true, Bool.and_eq_true, decide_eq_true_eq]
  omega

/-! ## The obligations of 70_reset_and_hazards.md -/

/-- Settles O8: the registers are those of `Block.reset`, the parameters are legal, and no storage byte is listed. -/
theorem resetMeetsTheInvariant : Obligations.ResetMeetsTheInvariant :=
  blockInv_of_reset (by decide) ⟨.nil, nofun⟩ rfl

/-- Settles O53: every register is read off `Block.reset`, which the step installs beside the storage it keeps. -/
theorem blockResetRestoresEveryRegister : Obligations.BlockResetRestoresEveryRegister := by
  intro s es hs
  have hf := fetch_of_sched hs
  have hstep := step_of_reset (congrArg Prod.fst hf)
  rw [hf] at hstep
  refine ⟨_, hstep, fun _ => rfl, rfl, rfl, fun f => ?_, rfl, rfl, rfl, rfl, rfl, fun c => ?_, rfl, rfl, rfl, rfl, rfl,
    rfl, rfl, rfl⟩
  · rw [State.blockReset_blk, fifo_reset]
    exact ⟨rfl, rfl, rfl, rfl⟩
  · rw [State.blockReset_blk, chan_reset]
    exact ⟨ChanRegs.reset_win_getElem, rfl, rfl, rfl, rfl, rfl, rfl, rfl⟩

/-- Settles O54: the step is the scramble of the write's unit and then the reset of the registers, which leaves
storage alone. -/
theorem tornWriteSpoilsOnlyItsUnit : Obligations.TornWriteSpoilsOnlyItsUnit := by
  intro s w es i n off hs hd ha htarget haccepted
  have hf := fetch_of_sched hs
  have hstep := step_of_torn_admitted (congrArg Prod.fst hf) hd (hf ▸ ha)
  have htarget' : writeTarget { s with sched := es } i = some (n, off) := (writeTarget_congr rfl rfl i).trans htarget
  rw [hf, State.tornReset_of_accepted htarget' haccepted] at hstep
  obtain ⟨-, -, -, -, houtside⟩ := State.scrambleUnit_frame { s with sched := es } (unitBase s.cfg off)
  exact ⟨_, hstep, rfl, rfl, fun j hj => State.scrambleUnit_byte? { s with sched := es } (unitBase s.cfg off) hj,
    houtside⟩

/-- Settles O51: without storage by `exec_init_without_storage`, with storage by `exec_init_fresh`. -/
theorem initBindsSlotsAndLoadsCounters : Obligations.InitBindsSlotsAndLoadsCounters := by
  intro s hi hp hfsm
  refine ⟨fun _ => rfl, ?_⟩
  by_cases hsize : s.cfg.nvsSize = 0
  · exact ⟨_, exec_init_without_storage hi hsize, rfl, restSame_setBlk s _ _, rfl,
      fun _ => ⟨rfl, rfl, rfl, rfl, rfl⟩, fun hne => absurd hsize hne⟩
  · exact ⟨_, exec_init_fresh hi hfsm hp hsize, rfl, restSame_setBlk s _ _, rfl, fun hnone => absurd hnone hsize,
      fun _ => ⟨rfl, rfl, State.loadCounter_toNat s 0, State.loadCounter_toNat s 2, rfl,
        fun _ hin => getElem?_markUsed_slots hin⟩⟩

end Sys2Proof.Machine

/-! # 95_test_vectors.md: the words and frames written out there -/

namespace Sys2Proof

/-! ## Rows of spec/opcode_table.json -/

theorem CmdCodes.default_wf : CmdCodes.default.wf := by
  decide

/-- A number of 64 bits that is the word of a transaction is read as the transaction. -/
theorem decodeTableWord_of_word {n : Nat} {i : Instr} (h : encode .default i = .word (BitVec.ofNat 64 n))
    (hwf : i.wellFormed .default = true) : decodeTableWord 64 n = some i := by
  rw [decodeTableWord, if_pos rfl, ← h, decodeOfEncodeIsTheInstruction .default i CmdCodes.default_wf hwf]

/-- A number of 40 bits that is the request of a command is read as the command. -/
theorem decodeTableWord_of_frame {n : Nat} {i : Instr} (h : encode .default i = .frame (BitVec.ofNat 40 n))
    (hwf : i.wellFormed .default = true) : decodeTableWord 40 n = some i := by
  rw [decodeTableWord, if_neg (by decide), if_pos rfl, ← h,
    decodeOfEncodeIsTheInstruction .default i CmdCodes.default_wf hwf]

/-- A number of 64 bits whose fields spell no operation is read as none (R95, R99). -/
theorem decodeTableWord_eq_none {n : Nat} (h : ¬ Machine.spellsOperation (BitVec.ofNat 64 n)) :
    decodeTableWord 64 n = none := by
  obtain ⟨e, he⟩ := (Machine.wordsThatSpellNothingOnlySetTheMark.1 _).mpr h
  rw [decodeTableWord, if_pos rfl, decode, he]

/-- Settles O7: each word and frame that decodes is the encoding of what it stands for, and the fields of the two
ill-formed words, a FIFO selector of 2 and a TICK with data, spell no operation. -/
theorem specWordsDecode : Obligations.SpecWordsDecode := by
  have hfifo : ¬ Machine.spellsOperation (BitVec.ofNat 64 0x0102000000000041) := by
    unfold Machine.spellsOperation
    decide
  have htick : ¬ Machine.spellsOperation (BitVec.ofNat 64 0x2000000000000001) := by
    unfold Machine.spellsOperation
    decide
  exact ⟨decodeTableWord_of_word rfl rfl, decodeTableWord_of_word rfl rfl, decodeTableWord_of_word rfl rfl,
    decodeTableWord_of_word rfl rfl, decodeTableWord_of_word rfl rfl, decodeTableWord_of_word rfl rfl,
    decodeTableWord_of_frame rfl rfl, decodeTableWord_of_frame rfl rfl,
    decodeTableWord_eq_none hfifo, decodeTableWord_eq_none htick⟩

end Sys2Proof
